-- ==== Sys2Proof/Word.lean ====
section
/-! DEFINITION. The word types of the block: the bus word (rules R11, R61), the command word (rule R90), the
response word (rule R98), a byte, and the indices of GPIO ports and pins (rules R9, R30). -/

namespace Sys2Proof

/-- One byte: a received or transmitted character (rule R40). -/
abbrev Byte := BitVec 8

/-- One peripheral register word: `REG_WIDTH` = 32 (rules R11, R61). -/
abbrev Word := BitVec 32

/-- One command word on the command port (rule R90). -/
abbrev CmdWord := BitVec 64

/-- One response word (rule R98). -/
abbrev RespWord := BitVec 16

/-- A GPIO port by its letter index, A = 0, B = 1, ... (rules R9, R44). DESIGN CHOICE (log 6): 16 of them. -/
abbrev Port := Fin 16

/-- A pin index 0..15 within a port (rule R30). -/
abbrev Pin := Fin 16

/-- A logical indicator line 0..3 (rule R120). -/
abbrev LineIdx := Fin 4

end Sys2Proof
end

