-- ==== Sys2Proof/Machine/Periph.lean ====
section
/-! DEFINITION. The peripheral register fields the block writes and reads (10_state.md sections 2 to 4), their names,
the registers that hold them, and the shape of the layout parameter (rules R10, R44). -/

namespace Sys2Proof.Machine

/-- The mode of a pin (rule R30). -/
inductive Mode where
  /-- general-purpose input -/
  | inp
  /-- general-purpose output -/
  | out
  /-- alternate function -/
  | af
  /-- analog -/
  | an
  deriving DecidableEq, Repr, Inhabited

/-- The output type of a pin (rule R31). -/
inductive OType where
  /-- push-pull -/
  | pp
  /-- open-drain -/
  | od
  deriving DecidableEq, Repr, Inhabited

/-- The clock-control fields (rule R29). -/
structure Rcc where
  /-- `RCC.gpio_en[p]` -/
  gpioEn : Vector Bool 16
  /-- `RCC.uart_en` for `UART_INST` -/
  uartEn : Bool
  deriving DecidableEq, Repr, Inhabited

/-- One GPIO port: mode, output type, output level and alternate function of its 16 pins (rules R30 to R34). The
set/reset register holds no state of its own (rule R33). -/
structure Gpio where
  mode  : Vector Mode 16
  otype : Vector OType 16
  /-- output data, bit `i` for pin `i` (rule R32) -/
  odr   : BitVec 16
  af    : Vector (BitVec 4) 16
  deriving DecidableEq, Repr, Inhabited

/-- The UART fields (rules R35 to R40). -/
structure Uart where
  /-- enable fields (rule R35) -/
  ue     : Bool
  te     : Bool
  re     : Bool
  rxneie : Bool
  /-- frame fields (rule R36) -/
  m      : Bool
  stop   : BitVec 2
  pce    : Bool
  over8  : Bool
  rtse   : Bool
  ctse   : Bool
  /-- baud-rate register, mantissa [15:4], fraction [3:0] (rule R37) -/
  brr    : BitVec 16
  /-- status flags (rule R38) -/
  rxne   : Bool
  txe    : Bool
  /-- error flags (rule R39) -/
  ore    : Bool
  fe     : Bool
  pe     : Bool
  /-- receive data holding register (rule R40) -/
  rdr    : Byte
  /-- transmit data holding register (rule R40) -/
  tdr    : Byte
  /-- The MODEL's own (log 4): no byte has been received yet, so what a read of `rdr` gives is a draw (rules R46, R64). -/
  rdrOpen : Bool
  /-- The MODEL's own (logs 4 and 9): the byte the next `TX_LOAD` takes is a draw: none has been stored yet (rule R46), or
  one was stored while `txe = 0` (item I8). -/
  tdrOpen : Bool
  deriving DecidableEq, Repr, Inhabited

/-- The peripheral register state: `RESET_PERIPH` is a value of this type (rules R11, R46). -/
structure Periph where
  rcc  : Rcc
  gpio : Vector Gpio 16
  uart : Uart
  /-- The bits of the layout's registers that no field above names (rule R41), byte by byte, in the canonical form
  of Machine/Memory.lean. -/
  other : List (Nat × Byte)
  deriving DecidableEq, Repr, Inhabited

/-- The abstract fields (rules R29 to R39), each a named bit range of a peripheral register (rule R17). -/
inductive Field where
  | rccGpioEn (p : Port)
  | rccUartEn
  | gpioMode (p : Port) (i : Pin)
  | gpioOtype (p : Port) (i : Pin)
  | gpioOdr (p : Port) (i : Pin)
  | gpioAf (p : Port) (i : Pin)
  | uartUe
  | uartTe
  | uartRe
  | uartRxneie
  | uartM
  | uartStop
  | uartPce
  | uartOver8
  | uartRtse
  | uartCtse
  | uartBrr
  | uartRxne
  | uartTxe
  | uartOre
  | uartFe
  | uartPe
  deriving DecidableEq, Repr, Inhabited

/-- The registers a whole-word bus transaction names (rules R13, R28): those with rules of their own, and any other
register of the layout by its address. -/
inductive BusReg where
  /-- `UART.sr`, the status register (rule R68) -/
  | sr
  /-- `UART.dr`, the data register (rules R40, R64, R66) -/
  | dr
  /-- `UART.brr`, the baud-rate register (rule R37) -/
  | brr
  /-- `GPIO[p].bsrr`, the set/reset register (rule R33) -/
  | bsrr (p : Port)
  /-- another register of the layout -/
  | word (addr : BitVec 32)
  deriving DecidableEq, Repr, Inhabited

/-- One row of the layout: a register address and a bit range, inclusive (rule R10). -/
structure Slot where
  addr : BitVec 32
  hi   : Nat
  lo   : Nat
  deriving DecidableEq, Repr, Inhabited

/-- The parameter `LAYOUT` (rules R10, R44): where every abstract field stands, and the addresses of the data register and of
the set/reset registers. -/
structure Layout where
  gpioEn : Vector Slot 16
  uartEn : Slot
  mode   : Vector (Vector Slot 16) 16
  otype  : Vector (Vector Slot 16) 16
  odr    : Vector (Vector Slot 16) 16
  af     : Vector (Vector Slot 16) 16
  bsrr   : Vector (BitVec 32) 16
  dr     : BitVec 32
  ue     : Slot
  te     : Slot
  re     : Slot
  rxneie : Slot
  m      : Slot
  stop   : Slot
  pce    : Slot
  over8  : Slot
  rtse   : Slot
  ctse   : Slot
  brr    : Slot
  rxne   : Slot
  txe    : Slot
  ore    : Slot
  fe     : Slot
  pe     : Slot
  deriving DecidableEq, Repr, Inhabited

end Sys2Proof.Machine
end

