-- ==== Sys2Proof/Config.lean ====
section
/-! DEFINITION. What an implementation fixes (the parameters of 00_scope.md section 3) and the free values: what the spec
calls a draw, or leaves to the schedule, is a constant here with no body, so that nothing can evaluate it. -/

namespace Sys2Proof.Config

open Sys2Proof Sys2Proof.Machine

/-- `TIE_RULE` (rules R11, R142): the rounding of an exact half in the divisor calculator. -/
inductive TieRule where
  | up
  | down
  | even
  deriving DecidableEq, Repr, Inhabited

/-- One step of one agent (rule R18): what the interleaving of rule R75 is a sequence of. -/
inductive AgentStep where
  /-- `Caller(k)` writes command word `w` to the command port (rule R90). -/
  | issue (k : Nat) (w : CmdWord)
  /-- The block performs the next micro-step of caller `k`'s command in flight (rules R7, R18). -/
  | block (k : Nat)
  /-- Caller `k`'s harness program takes its next line (rule R102). -/
  | harness (k : Nat)
  /-- `RX_ARRIVE` of the `Wire` (rule R221). -/
  | rxArrive
  /-- `TX_LOAD` of the `LineSide` (rule R224). -/
  | txLoad
  /-- `TX_DONE` of the `LineSide` (rule R225). -/
  | txDone
  /-- the reset event (rule R270) -/
  | reset
  deriving DecidableEq, Repr, Inhabited

/-- The implementation parameters (rules R8 to R11), fixed for one machine. -/
structure Params where
  /-- `PCLK_HZ` (rule R8) -/
  pclkHz   : BitVec 32
  /-- `TIE_RULE` (rule R142) -/
  tieRule  : TieRule
  /-- `IND_PORT` and `IND_PIN[0..3]` (rule R9) -/
  indPort  : Port
  indPin   : Vector Pin 4
  /-- `SER_PORT`, `TX_PIN`, `RX_PIN`, `UART_INST` (rule R9) -/
  serPort  : Port
  txPin    : Pin
  rxPin    : Pin
  uartInst : Nat
  /-- `N_CALLERS` (rule R11) -/
  nCallers : Nat
  /-- `LAYOUT` (rule R10) -/
  layout   : Layout
  /-- `RESET_PERIPH` (rules R11, R46) -/
  resetPeriph : Periph
  /-- the pins the platform reserves at reset, port and pin (rule R46, item I18) -/
  reservedPins : List (Port × Pin)
  deriving DecidableEq, Repr, Inhabited

/-- FREE VALUE (log 8): the words of the spec's draws (rules R13, R64, R67, R68, R222), one fresh index a draw. -/
opaque freeWord : Nat → Word

/-- FREE VALUE (log 1): which agent steps next where State's schedule names none (rules R75, R226, R246, item I19). -/
opaque freeStep : Nat → AgentStep

/-- FREE VALUE (log 4): what `UART.rdr` holds at reset, which the spec leaves without a value (rules R46, R272). -/
opaque resetRdr : Byte

/-- FREE VALUE (log 4): what `UART.tdr` holds at reset (rules R46, R272). -/
opaque resetTdr : Byte

end Sys2Proof.Config
end

