-- ==== Sys2Proof/Machine/Memory.lean ====
section
/-! DEFINITION. The byte store behind the bits of the layout's registers that no abstract field names (rules R41, R60 to R62):
a list of (address, byte) in one canonical form, addresses strictly rising and no zero byte listed. An unlisted address
reads as 0 (log 5). -/

namespace Sys2Proof.Machine.Memory

open Sys2Proof

/-- The byte an unlisted address reads as: the reset value of the other register bits. PRESUMED (log 5). -/
def unlisted : Byte := 0

/-- The byte at an address. -/
def read : List Host.Cell → Nat → Byte
  | [], _ => unlisted
  | (b, v) :: rest, a => if a = b then v else read rest a

/-- Put a byte at an address, keeping the canonical form: writing what an unlisted address reads as removes the entry. -/
def write : List Host.Cell → Nat → Byte → List Host.Cell
  | [], a, v => if v = unlisted then [] else [(a, v)]
  | (b, u) :: rest, a, v =>
    if a < b then (if v = unlisted then (b, u) :: rest else (a, v) :: (b, u) :: rest)
    else if a = b then (if v = unlisted then rest else (a, v) :: rest)
    else (b, u) :: write rest a v

/-- The canonical form: every address above `lo`, addresses strictly rising, no entry equal to the unlisted byte. -/
def wfFrom (lo : Nat) : List Host.Cell → Bool
  | [] => true
  | (a, v) :: rest => decide (lo ≤ a) && (v != unlisted) && wfFrom (a + 1) rest

/-- The canonical form of the whole store. -/
def wf (m : List Host.Cell) : Bool := wfFrom 0 m

/-- A 32-bit word at an address, little-endian (rule R62). -/
def read32 (m : List Host.Cell) (a : Nat) : Word :=
  read m (a + 3) ++ read m (a + 2) ++ read m (a + 1) ++ read m a

/-- Put a 32-bit word at an address, little-endian (rule R62). -/
def write32 (m : List Host.Cell) (a : Nat) (w : Word) : List Host.Cell :=
  write (write (write (write m a (w.extractLsb' 0 8)) (a + 1) (w.extractLsb' 8 8)) (a + 2) (w.extractLsb' 16 8)) (a + 3)
    (w.extractLsb' 24 8)

end Sys2Proof.Machine.Memory
end

