-- ==== Sys2Proof/Machine/Defaults.lean ====
section
/-! DEFINITION. The default parameters of the model (rules R8 to R11): the informative defaults of rules R9 and R44, the reset
values of rule R46. Statements are about every value of the parameters; these are the ones `State.reset` has (log 6). -/

namespace Sys2Proof.Machine

open Sys2Proof Sys2Proof.Config

/-- The indices 0..15 of a port or a pin. -/
def idx16 : List (Fin 16) := [0, 1, 2, 3, 4, 5, 6, 7, 8, 9, 10, 11, 12, 13, 14, 15]

/-- The table of a function of a port or a pin. -/
def table16 {α : Type} (f : Fin 16 → α) : Vector α 16 :=
  #v[f 0, f 1, f 2, f 3, f 4, f 5, f 6, f 7, f 8, f 9, f 10, f 11, f 12, f 13, f 14, f 15]

/-- The reset value of the clock-control fields (rule R46). -/
def Rcc.resetValue : Rcc := { gpioEn := Vector.replicate 16 false, uartEn := false }

/-- The reset value of a GPIO port (rule R46). -/
def Gpio.resetValue : Gpio :=
  { mode := Vector.replicate 16 .inp, otype := Vector.replicate 16 .pp, odr := 0, af := Vector.replicate 16 0 }

/-- The reset value of the UART fields (rule R46); the holding registers hold an open value (log 4). -/
def Uart.resetValue : Uart :=
  { ue := false, te := false, re := false, rxneie := false
    m := false, stop := 0, pce := false, over8 := false, rtse := false, ctse := false
    brr := 0, rxne := false, txe := true, ore := false, fe := false, pe := false
    rdr := resetRdr, tdr := resetTdr, rdrOpen := true, tdrOpen := true }

/-- `RESET_PERIPH`, its default (rules R11, R46). -/
def Periph.resetValue : Periph :=
  { rcc := Rcc.resetValue, gpio := Vector.replicate 16 Gpio.resetValue, uart := Uart.resetValue, other := [] }

/-- The base address of GPIO port `p` in the informative layout (rule R44). -/
def gpioBase (p : Port) : Word := 0x40020000 + 0x400 * BitVec.ofNat 32 p.val

/-- A register address plus an offset in the informative layout. -/
def gpioSlots (offset : Nat) (hi lo : Nat → Nat) : Vector (Vector Slot 16) 16 :=
  table16 fun p => table16 fun i => { addr := gpioBase p + BitVec.ofNat 32 offset, hi := hi i.val, lo := lo i.val }

/-- The alternate-function slots: AFRL at +0x20 for pins 0..7, AFRH at +0x24 for pins 8..15 (rule R44). -/
def afSlots : Vector (Vector Slot 16) 16 :=
  table16 fun p => table16 fun i =>
    if i.val < 8 then { addr := gpioBase p + 0x20, hi := 4 * i.val + 3, lo := 4 * i.val }
    else { addr := gpioBase p + 0x24, hi := 4 * (i.val - 8) + 3, lo := 4 * (i.val - 8) }

/-- One bit of a register. -/
def bitSlot (addr : Word) (b : Nat) : Slot := { addr := addr, hi := b, lo := b }

/-- `LAYOUT`, its informative default, the STM32F4 reference values (rule R44). -/
def Layout.stm32f4 : Layout :=
  { gpioEn := table16 fun p => bitSlot 0x40023830 p.val
    uartEn := bitSlot 0x40023840 17
    mode := gpioSlots 0x00 (fun i => 2 * i + 1) (fun i => 2 * i)
    otype := gpioSlots 0x04 id id
    odr := gpioSlots 0x14 id id
    af := afSlots
    bsrr := table16 fun p => gpioBase p + 0x18
    dr := 0x40004404
    ue := bitSlot 0x4000440C 13
    te := bitSlot 0x4000440C 3
    re := bitSlot 0x4000440C 2
    rxneie := bitSlot 0x4000440C 5
    m := bitSlot 0x4000440C 12
    stop := { addr := 0x40004410, hi := 13, lo := 12 }
    pce := bitSlot 0x4000440C 10
    over8 := bitSlot 0x4000440C 15
    rtse := bitSlot 0x40004414 8
    ctse := bitSlot 0x40004414 9
    brr := { addr := 0x40004408, hi := 15, lo := 0 }
    rxne := bitSlot 0x40004400 5
    txe := bitSlot 0x40004400 7
    ore := bitSlot 0x40004400 3
    fe := bitSlot 0x40004400 1
    pe := bitSlot 0x40004400 0 }

/-- The parameters of `State.reset` (log 6): the source's example clock (rule R8), the informative pins of rule R9, two
callers, ties up (rule R142). -/
def defaultParams : Params :=
  { pclkHz := 42000000
    tieRule := .up
    indPort := 3
    indPin := #v[12, 13, 14, 15]
    serPort := 0
    txPin := 2
    rxPin := 3
    uartInst := 2
    nCallers := 2
    layout := Layout.stm32f4
    resetPeriph := Periph.resetValue
    reservedPins := [] }

end Sys2Proof.Machine
end

