-- ==== Sys2Proof/Syntax.lean ====
section
/-! DEFINITION. The commands of the block: one constructor per row of the opcode table (rule R92), with its
operand as rule R93 assembles it. -/

namespace Sys2Proof

/-- The six commands (rules R92, R93). -/
inductive Instr where
  /-- `IND_INIT`: configure the four indicator pins (rule R122). -/
  | indInit
  /-- `IND_ON`: turn line `line` on (rule R127). -/
  | indOn (line : BitVec 32)
  /-- `IND_OFF`: turn line `line` off (rule R128). -/
  | indOff (line : BitVec 32)
  /-- `SER_INIT`: configure and start the UART at `baud` (rule R162). -/
  | serInit (baud : BitVec 32)
  /-- `SER_READ`: poll for one received byte (rule R192). -/
  | serRead
  /-- `SER_WRITE`: offer one byte for transmission (rule R202). -/
  | serWrite (byte : BitVec 8)
  deriving DecidableEq, Repr, Inhabited

end Sys2Proof
end

