-- ==== Sys2Proof/Machine/State.lean ====
section
/-! DEFINITION. The state of the machine as plain data: the block's control state, the peripheral fields, the UART's hidden
state, the callers' harness state (10_state.md), the parameters, and the model's own schedule. -/

namespace Sys2Proof.Machine

open Sys2Proof Sys2Proof.Config

/-- The states of the serial channel's configuration (rule R23). -/
inductive SerCfg where
  | unconfigured
  | configured
  deriving DecidableEq, Repr, Inhabited

/-- The commands the configuration sequencer runs (rule R24). -/
inductive InitCmd where
  | indInit
  | serInit
  deriving DecidableEq, Repr, Inhabited

/-- The configuration sequencer's position (rule R24). -/
structure Seq where
  caller : Nat
  cmd    : InitCmd
  /-- how many micro-steps the command in flight has performed -/
  step   : Nat
  /-- the divisor latched at micro-step 13 of `SER_INIT`; `none` is the rule's "-" -/
  d      : Option (BitVec 16)
  deriving DecidableEq, Repr, Inhabited

/-- The phase of a command in flight (rule R25). -/
inductive Phase where
  /-- a `SER_READ` or `SER_WRITE` between its status read and its data access, with the flag it sampled -/
  | statusSampled (flag : Bool)
  /-- an init command -/
  | configuring
  deriving DecidableEq, Repr, Inhabited

/-- One element of `inflight` (rule R25). -/
structure Flight where
  caller : Nat
  cmd    : Instr
  phase  : Phase
  deriving DecidableEq, Repr, Inhabited

/-- The causes of the block's sticky fault (rule R243). -/
inductive FaultCause where
  | baudOverflow
  | baudZero
  | serNotConfigured
  | indNotConfigured
  | badLine
  | illegalCommand
  | concurrentAccess
  deriving DecidableEq, Repr, Inhabited

/-- What a fault records (rule R47). -/
structure FaultInfo where
  caller : Nat
  word   : CmdWord
  step   : Nat
  deriving DecidableEq, Repr, Inhabited

/-- One bus transaction of the block (rule R28). -/
inductive Event where
  /-- `W(field, value)`: a field write -/
  | w (f : Field) (value : Word)
  /-- `WR(register, word)`: a whole-register write -/
  | wr (r : BusReg) (word : Word)
  /-- `RD(register, word)`: a register read, with the word returned -/
  | rd (r : BusReg) (word : Word)
  deriving DecidableEq, Repr, Inhabited

/-- A response (rules R17, R98). -/
inductive Response where
  | ok
  | data (b : Byte)
  | notReady
  deriving DecidableEq, Repr, Inhabited

/-- One line of a harness program (rule R102). Labels are numbers here. -/
inductive HarnessLine where
  /-- `label:` -/
  | label (l : Nat)
  /-- a command line (rule R100) -/
  | cmd (i : Instr)
  /-- `ser.write b`: write the caller's byte latch (rule R104) -/
  | serWriteB
  /-- branch if not ready (rule R103) -/
  | bnr (l : Nat)
  /-- branch (rule R103) -/
  | br (l : Nat)
  | halt
  deriving DecidableEq, Repr, Inhabited

/-- Whether a caller's harness program goes on (rules R102, R107). -/
inductive RunStatus where
  | running
  /-- it executed `halt` -/
  | halted
  /-- harness fault: `ser.write b` with the latch unwritten -/
  | unwrittenLatch
  /-- harness fault: it fell off its last line -/
  | noHalt
  deriving DecidableEq, Repr, Inhabited

/-- One caller's harness state (rule R27). It belongs to the caller, not to the block. -/
structure Caller where
  /-- `last(k)`: the last response received -/
  last   : Option Response
  /-- `b(k)`: the byte latch, `none` while unwritten (rules R27, R107) -/
  latch  : Option Byte
  /-- `lc(k)`: the label counter, an index into the program -/
  lc     : Nat
  /-- the harness program, if this calling context runs one (log 3) -/
  prog   : Option (List HarnessLine)
  status : RunStatus
  deriving DecidableEq, Repr, Inhabited

/-- One arriving byte of `wire_rx_in` with its two error draws (rules R43, R221). The parity draw is read by no step: rule R221
leaves `UART.pe` unchanged, parity being disabled. -/
structure Arrival where
  byte : Byte
  ferr : Bool
  perr : Bool
  deriving DecidableEq, Repr, Inhabited

/-- Why the model stops with a fault. None of these is the block's own fault (rule R241), which is a next state. All are safe:
the model stops and claims nothing. -/
inductive Fault where
  /-- Raised by a meaning run for a caller that has ANOTHER command in flight (rule R76 allows one): no run reaches it. Safe. -/
  | callerBusy
  /-- Raised by a meaning whose command is in flight in a phase of another kind of command (rule R25): no run reaches it. Safe. -/
  | phaseMismatch
  /-- Raised by an init in flight whose sequencer entry is missing, is another command's, is past its last micro-step, or
  holds no divisor at the BRR write (rule R24): no run reaches it. Safe. -/
  | sequencerMismatch
  /-- Raised by a harness branch to a label its program does not define: an assembly error (rule R103), so such a program does
  not exist. Safe. -/
  | undefinedLabel
  /-- Raised by a bus access to an address the layout does not name (rule R60); no command issues one. Safe. -/
  | unmappedAddress
  deriving DecidableEq, Repr, Inhabited

/-- What the model gives no meaning to. All are safe. -/
inductive Refusal where
  /-- Raised by an arm of `exec` whose instruction has no meaning yet. Safe. -/
  | notModelled (mnemonic : String)
  /-- Raised by a bus access to a peripheral whose clock enable is 0 (rule R72, item I7: refuse). Safe. -/
  | unclockedPeripheral
  /-- Raised by a bus access at an address that is no multiple of 4 (rule R62, item I15: refuse). Safe. -/
  | misalignedAccess
  /-- Raised by a whole-word write of a register with a field that no whole-word write changes (rules R32, R38, R39), to
  which the spec gives no effect; no command issues one. Safe. -/
  | readOnlyRegister
  deriving DecidableEq, Repr, Inhabited

/-- The state of the machine. -/
structure State where
  /-- the implementation parameters (rules R8 to R11); no step changes them -/
  cfg       : Params
  /-- `ind_cfg` (rule R22) -/
  indCfg    : Bool
  /-- `ser_cfg` (rule R23) -/
  serCfg    : SerCfg
  /-- `seq` (rule R24) -/
  seq       : Option Seq
  /-- `inflight` (rule R25), sorted by caller (log 13) -/
  inflight  : List Flight
  /-- `fault` (rule R26) -/
  fault     : Option FaultCause
  /-- `fault_info` (rule R47) -/
  faultInfo : Option FaultInfo
  /-- `trace` (rule R28) -/
  trace     : List Event
  /-- the peripheral register fields (rules R29 to R41) -/
  per       : Periph
  /-- `tx_shift` (rule R43) -/
  txShift   : Option Byte
  /-- `wire_tx` (rule R43) -/
  wireTx    : List Byte
  /-- `wire_rx_in` (rule R43): the arrivals placed; where it is empty an arrival is a free value (log 2) -/
  wireRxIn  : List Arrival
  /-- the callers' harness state, caller `k` at index `k` (rule R27) -/
  callers   : List Caller
  /-- The MODEL's own (log 7): the caller whose command `exec` performs. -/
  cur       : Nat
  /-- The MODEL's own (log 1): the agent steps to come, the next one first; where it is empty the next step is a free value. -/
  schedule  : List AgentStep
  /-- The MODEL's own (log 8): how many free values have been taken. -/
  draws     : Nat
  deriving DecidableEq, Repr, Inhabited

/-- A caller right after reset (rules R27, R271). -/
def Caller.reset : Caller := { last := none, latch := none, lc := 0, prog := none, status := .running }

/-- The machine right after reset, for given parameters (rules R46, R270, R271). -/
def State.resetWith (p : Params) : State :=
  { cfg := p
    indCfg := false
    serCfg := .unconfigured
    seq := none
    inflight := []
    fault := none
    faultInfo := none
    trace := []
    per := p.resetPeriph
    txShift := none
    wireTx := []
    wireRxIn := []
    callers := List.replicate p.nCallers Caller.reset
    cur := 0
    schedule := []
    draws := 0 }

/-- The machine right after reset, at the default parameters (rule R46, log 6). -/
def State.reset : State := State.resetWith defaultParams

end Sys2Proof.Machine
end

