-- ==== Sys2Proof/Machine/Fields.lean ====
section
/-! DEFINITION. Reading and writing the abstract fields (rules R29 to R39, R63), and the registers the layout makes of them
(rules R10, R44, R60, R61). -/

namespace Sys2Proof.Machine

open Sys2Proof Sys2Proof.Config

/-- The encoding of a pin mode (rule R30). -/
def Mode.code : Mode → BitVec 2
  | .inp => 0b00
  | .out => 0b01
  | .af => 0b10
  | .an => 0b11

/-- The pin mode of an encoding (rule R30). -/
def Mode.ofCode (c : BitVec 2) : Mode :=
  if c = 0b00 then .inp else if c = 0b01 then .out else if c = 0b10 then .af else .an

/-- The encoding of an output type (rule R31). -/
def OType.code : OType → BitVec 1
  | .pp => 0
  | .od => 1

/-- The output type of an encoding (rule R31). -/
def OType.ofCode (c : BitVec 1) : OType := if c = 0 then .pp else .od

/-- A one-bit field as a word. -/
def bitWord (b : Bool) : Word := (BitVec.ofBool b).setWidth 32

/-- Change GPIO port `p`. -/
def Periph.modifyGpio (per : Periph) (p : Port) (f : Gpio → Gpio) : Periph :=
  { per with gpio := per.gpio.set p.val (f per.gpio[p]) p.isLt }

/-- The value of a field, zero-extended (rules R12, R13 `P.f`). -/
def Periph.get (per : Periph) : Field → Word
  | .rccGpioEn p => bitWord per.rcc.gpioEn[p]
  | .rccUartEn => bitWord per.rcc.uartEn
  | .gpioMode p i => (per.gpio[p].mode[i]).code.setWidth 32
  | .gpioOtype p i => (per.gpio[p].otype[i]).code.setWidth 32
  | .gpioOdr p i => bitWord (per.gpio[p].odr.getLsbD i.val)
  | .gpioAf p i => (per.gpio[p].af[i]).setWidth 32
  | .uartUe => bitWord per.uart.ue
  | .uartTe => bitWord per.uart.te
  | .uartRe => bitWord per.uart.re
  | .uartRxneie => bitWord per.uart.rxneie
  | .uartM => bitWord per.uart.m
  | .uartStop => per.uart.stop.setWidth 32
  | .uartPce => bitWord per.uart.pce
  | .uartOver8 => bitWord per.uart.over8
  | .uartRtse => bitWord per.uart.rtse
  | .uartCtse => bitWord per.uart.ctse
  | .uartBrr => per.uart.brr.setWidth 32
  | .uartRxne => bitWord per.uart.rxne
  | .uartTxe => bitWord per.uart.txe
  | .uartOre => bitWord per.uart.ore
  | .uartFe => bitWord per.uart.fe
  | .uartPe => bitWord per.uart.pe

/-- The block may write the field. Status and error flags are read-only to it (rules R38, R39) and an output level changes only
through the set/reset register (rule R32). -/
def Field.writable : Field → Bool
  | .gpioOdr _ _ | .uartRxne | .uartTxe | .uartOre | .uartFe | .uartPe => false
  | .rccGpioEn _ | .rccUartEn | .gpioMode _ _ | .gpioOtype _ _ | .gpioAf _ _ | .uartUe | .uartTe | .uartRe | .uartRxneie
  | .uartM | .uartStop | .uartPce | .uartOver8 | .uartRtse | .uartCtse | .uartBrr => true

/-- Set a field to the low bits of `v`, every other field keeping its value (rule R63). A field the block may not write keeps
its value. -/
def Periph.set (per : Periph) (f : Field) (v : Word) : Periph :=
  match f with
  | .rccGpioEn p => { per with rcc := { per.rcc with gpioEn := per.rcc.gpioEn.set p.val (v.getLsbD 0) p.isLt } }
  | .rccUartEn => { per with rcc := { per.rcc with uartEn := v.getLsbD 0 } }
  | .gpioMode p i =>
    per.modifyGpio p fun g => { g with mode := g.mode.set i.val (Mode.ofCode (v.extractLsb' 0 2)) i.isLt }
  | .gpioOtype p i =>
    per.modifyGpio p fun g => { g with otype := g.otype.set i.val (OType.ofCode (v.extractLsb' 0 1)) i.isLt }
  | .gpioAf p i => per.modifyGpio p fun g => { g with af := g.af.set i.val (v.extractLsb' 0 4) i.isLt }
  | .uartUe => { per with uart := { per.uart with ue := v.getLsbD 0 } }
  | .uartTe => { per with uart := { per.uart with te := v.getLsbD 0 } }
  | .uartRe => { per with uart := { per.uart with re := v.getLsbD 0 } }
  | .uartRxneie => { per with uart := { per.uart with rxneie := v.getLsbD 0 } }
  | .uartM => { per with uart := { per.uart with m := v.getLsbD 0 } }
  | .uartStop => { per with uart := { per.uart with stop := v.extractLsb' 0 2 } }
  | .uartPce => { per with uart := { per.uart with pce := v.getLsbD 0 } }
  | .uartOver8 => { per with uart := { per.uart with over8 := v.getLsbD 0 } }
  | .uartRtse => { per with uart := { per.uart with rtse := v.getLsbD 0 } }
  | .uartCtse => { per with uart := { per.uart with ctse := v.getLsbD 0 } }
  | .uartBrr => { per with uart := { per.uart with brr := v.extractLsb' 0 16 } }
  | .gpioOdr _ _ | .uartRxne | .uartTxe | .uartOre | .uartFe | .uartPe => per

/-- The clock of the peripheral that holds the field is enabled (rules R29, R72). The clock-control unit needs no enable. -/
def Periph.clocked (per : Periph) : Field → Bool
  | .rccGpioEn _ | .rccUartEn => true
  | .gpioMode p _ | .gpioOtype p _ | .gpioOdr p _ | .gpioAf p _ => per.rcc.gpioEn[p]
  | .uartUe | .uartTe | .uartRe | .uartRxneie | .uartM | .uartStop | .uartPce | .uartOver8 | .uartRtse | .uartCtse
  | .uartBrr | .uartRxne | .uartTxe | .uartOre | .uartFe | .uartPe => per.rcc.uartEn

/-- Where the layout puts a field (rules R10, R44). -/
def Layout.slot (L : Layout) : Field → Slot
  | .rccGpioEn p => L.gpioEn[p]
  | .rccUartEn => L.uartEn
  | .gpioMode p i => L.mode[p][i]
  | .gpioOtype p i => L.otype[p][i]
  | .gpioOdr p i => L.odr[p][i]
  | .gpioAf p i => L.af[p][i]
  | .uartUe => L.ue
  | .uartTe => L.te
  | .uartRe => L.re
  | .uartRxneie => L.rxneie
  | .uartM => L.m
  | .uartStop => L.stop
  | .uartPce => L.pce
  | .uartOver8 => L.over8
  | .uartRtse => L.rtse
  | .uartCtse => L.ctse
  | .uartBrr => L.brr
  | .uartRxne => L.rxne
  | .uartTxe => L.txe
  | .uartOre => L.ore
  | .uartFe => L.fe
  | .uartPe => L.pe

/-- How many bits a field has (rules R29 to R39). -/
def Field.width : Field → Nat
  | .gpioMode _ _ | .uartStop => 2
  | .gpioAf _ _ => 4
  | .uartBrr => 16
  | .rccGpioEn _ | .rccUartEn | .gpioOtype _ _ | .gpioOdr _ _ | .uartUe | .uartTe | .uartRe | .uartRxneie
  | .uartM | .uartPce | .uartOver8 | .uartRtse | .uartCtse | .uartRxne | .uartTxe | .uartOre | .uartFe | .uartPe => 1

/-- Every abstract field. -/
def Field.all : List Field :=
  [.rccUartEn, .uartUe, .uartTe, .uartRe, .uartRxneie, .uartM, .uartStop, .uartPce, .uartOver8, .uartRtse, .uartCtse,
    .uartBrr, .uartRxne, .uartTxe, .uartOre, .uartFe, .uartPe]
  ++ idx16.map .rccGpioEn
  ++ idx16.flatMap fun p => idx16.flatMap fun i =>
      [.gpioMode p i, .gpioOtype p i, .gpioOdr p i, .gpioAf p i]

/-- The bits of a slot, as a mask. -/
def Slot.mask (s : Slot) : Word := BitVec.ofNat 32 ((2 ^ (s.hi + 1 - s.lo) - 1) * 2 ^ s.lo)

/-- Put a value into a slot of a word, leaving the other bits. -/
def Slot.put (s : Slot) (w v : Word) : Word := (w &&& ~~~s.mask) ||| ((v <<< s.lo) &&& s.mask)

/-- The value a slot of a word holds. -/
def Slot.take (s : Slot) (w : Word) : Word := (w &&& s.mask) >>> s.lo

/-- The fields the layout puts into the register at an address. -/
def Layout.fieldsAt (L : Layout) (addr : Word) : List Field := Field.all.filter fun f => (L.slot f).addr == addr

/-- The register the layout has at an address: one with rules of its own, or any other that holds a field; none where the layout names
nothing (rules R10, R60). -/
def Layout.regAt (L : Layout) (addr : Word) : Option BusReg :=
  if addr = L.dr then some .dr
  else if addr = L.rxne.addr then some .sr
  else if addr = L.brr.addr then some .brr
  else match idx16.find? fun p => L.bsrr[p] == addr with
    | some p => some (.bsrr p)
    | none => if (L.fieldsAt addr).isEmpty then none else some (.word addr)

/-- The word of the register at an address: its fields, and the other bits from the byte store (rules R41, R61). -/
def Periph.wordAt (per : Periph) (L : Layout) (addr : Word) : Word :=
  (L.fieldsAt addr).foldl (fun w f => (L.slot f).put w (per.get f)) (Memory.read32 per.other addr.toNat)

/-- The bits of the register at an address that some field names. -/
def Layout.namedBits (L : Layout) (addr : Word) : Word :=
  (L.fieldsAt addr).foldl (fun m f => m ||| (L.slot f).mask) 0

/-- Write a whole word to the register at an address: each field takes its bits, and the byte store takes the others (rules
R41, R61). -/
def Periph.setWordAt (per : Periph) (L : Layout) (addr w : Word) : Periph :=
  let per' := (L.fieldsAt addr).foldl (fun q f => q.set f ((L.slot f).take w)) per
  { per' with other := Memory.write32 per'.other addr.toNat (w &&& ~~~L.namedBits addr) }

end Sys2Proof.Machine
end

