-- ==== Sys2Proof/WellFormed.lean ====
section
/-! DEFINITION. Well-formedness: of an instruction (its operands have exactly the encoding's widths, so every term is
well-formed), of the layout (rules R10, R37, R60, R62), and of the implementation parameters (rules R8, R9, R11, R276). -/

namespace Sys2Proof

/-- Every operand of a command fits its field (rules R93, R101): the operand types have the fields' widths, so nothing
is left to check but the constructor. A `line` above 3 and a `baud` of 0 are valid encodings (rule R93). -/
def Instr.wellFormed : Instr → Bool
  | .indInit => true
  | .indOn _ => true
  | .indOff _ => true
  | .serInit _ => true
  | .serRead => true
  | .serWrite _ => true

namespace Machine

/-- Every register address is a multiple of 4 (rule R62). -/
def Layout.aligned (L : Layout) : Bool :=
  Field.all.all (fun f => (L.slot f).addr.toNat % 4 == 0) && L.bsrr.toList.all (fun a => a.toNat % 4 == 0) && L.dr.toNat % 4 == 0

/-- Every field has a bit range of its own width within its 32-bit register, and the divisor has bits [15:0] (rules R10, R37, R61). -/
def Layout.slotsFit (L : Layout) : Bool :=
  Field.all.all (fun f => decide ((L.slot f).hi < 32) && (L.slot f).hi + 1 == (L.slot f).lo + f.width) && L.brr.lo == 0

/-- The five status flags stand at five different bits of one register, the status register (rules R10, R68). -/
def Layout.statusOk (L : Layout) : Bool :=
  [L.rxne, L.txe, L.ore, L.fe, L.pe].all (fun x => x.hi == x.lo && decide (x.lo < 32) && x.addr == L.rxne.addr)
    && decide [L.rxne.lo, L.txe.lo, L.ore.lo, L.fe.lo, L.pe.lo].Nodup

/-- The addresses of the registers that have rules of their own: data, status, divisor, set/reset (rules R33, R37, R64, R68). -/
def Layout.ownAddrs (L : Layout) : List Word := L.dr :: L.rxne.addr :: L.brr.addr :: L.bsrr.toList

/-- The registers that have rules of their own are different registers, and hold no field but theirs. DEDUCED (log 28). -/
def Layout.registersApart (L : Layout) : Bool :=
  decide L.ownAddrs.Nodup && Field.all.all fun f =>
    match f with
    | .uartBrr | .uartRxne | .uartTxe | .uartOre | .uartFe | .uartPe => true
    | .rccGpioEn _ | .rccUartEn | .gpioMode _ _ | .gpioOtype _ _ | .gpioOdr _ _ | .gpioAf _ _ | .uartUe | .uartTe | .uartRe
    | .uartRxneie | .uartM | .uartStop | .uartPce | .uartOver8 | .uartRtse | .uartCtse => !L.ownAddrs.contains (L.slot f).addr

/-- The layout is as the rules ask. -/
def Layout.wellFormed (L : Layout) : Bool := L.aligned && L.slotsFit && L.statusOk && L.registersApart

/-- The fields of one register share no bit. DEDUCED (log 28): a named bit range (rule R17) is a field's own. -/
def Layout.disjointAt (L : Layout) (addr : Word) : Prop :=
  (L.fieldsAt addr).Pairwise fun f g => (L.slot f).mask &&& (L.slot g).mask = 0

end Machine

namespace Config

/-- `PCLK_HZ` is in 1 to 2^32-1 (rule R8). -/
def Params.pclkOk (p : Params) : Bool := p.pclkHz != 0

/-- `N_CALLERS ≥ 1` (rule R11). -/
def Params.callersOk (p : Params) : Bool := decide (1 ≤ p.nCallers)

/-- The four indicator pins are distinct (rule R9). -/
def Params.linesDistinct (p : Params) : Bool := decide p.indPin.toList.Nodup

/-- `TX_PIN` and `RX_PIN` are distinct (rule R9). -/
def Params.serialDistinct (p : Params) : Bool := p.txPin != p.rxPin

/-- If `IND_PORT = SER_PORT`, the serial pins do not meet the indicator pins (rule R9). -/
def Params.pinsApart (p : Params) : Bool :=
  p.indPort != p.serPort || (!p.indPin.toList.contains p.txPin && !p.indPin.toList.contains p.rxPin)

/-- No pin parameter is a pin the platform reserves at reset (rules R46, R276c). -/
def Params.pinsFree (p : Params) : Bool :=
  p.indPin.toList.all (fun i => !p.reservedPins.contains (p.indPort, i))
    && !p.reservedPins.contains (p.serPort, p.txPin) && !p.reservedPins.contains (p.serPort, p.rxPin)

/-- The parameters are as rules R8, R9, R10, R11, R46 and R62 ask. -/
def Params.wellFormed (p : Params) : Bool :=
  p.pclkOk && p.callersOk && p.linesDistinct && p.serialDistinct && p.pinsApart && p.pinsFree && p.layout.wellFormed

end Config

end Sys2Proof
end

