-- ==== Sys2Proof/Decode.lean ====
section
/-! DEFINITION. Decoding of a command word, total on every 64-bit word (rules R91 to R97), and the encoder written from
the same table (rules R92, R100). -/

namespace Sys2Proof

/-- Why a command word is illegal (rules R94, R95). -/
inductive IllegalWord where
  /-- `RSV ≠ 0` (rule R94) -/
  | reservedBits
  /-- OP 0x0 or 0x7 to 0xF (rule R95) -/
  | reservedOp
  /-- `ARG ≠ 0` for `IND_INIT` or `SER_READ` (rule R94) -/
  | argNotZero
  /-- `ARG[31:8] ≠ 0` for `SER_WRITE` (rule R94) -/
  | argHighNotZero
  deriving DecidableEq, Repr, Inhabited

/-- What decoding gives: a command, or an illegal word by its reason (rule R96). -/
inductive Decoded where
  | cmd (i : Instr)
  | illegal (why : IllegalWord)
  deriving DecidableEq, Repr, Inhabited

/-- `OP`, bits [63:60] (rule R91). -/
def opOf (w : CmdWord) : BitVec 4 := w.extractLsb' 60 4

/-- `RSV`, bits [59:32] (rule R91). -/
def rsvOf (w : CmdWord) : BitVec 28 := w.extractLsb' 32 28

/-- `ARG`, bits [31:0] (rule R91). -/
def argOf (w : CmdWord) : BitVec 32 := w.extractLsb' 0 32

/-- A command word from its operation and operand, `RSV` zero (rule R91). -/
def cmdWord (op : BitVec 4) (arg : BitVec 32) : CmdWord := op ++ (0 : BitVec 28) ++ arg

/-- The opcode map, for a word whose reserved bits are zero (rules R92, R93, R95, R96). -/
def decodeOp (op : BitVec 4) (arg : BitVec 32) : Decoded :=
  if op = 0x1 then (if arg = 0 then .cmd .indInit else .illegal .argNotZero)
  else if op = 0x2 then .cmd (.indOn arg)
  else if op = 0x3 then .cmd (.indOff arg)
  else if op = 0x4 then .cmd (.serInit arg)
  else if op = 0x5 then (if arg = 0 then .cmd .serRead else .illegal .argNotZero)
  else if op = 0x6 then
    (if arg.extractLsb' 8 24 = 0 then .cmd (.serWrite (arg.extractLsb' 0 8)) else .illegal .argHighNotZero)
  else .illegal .reservedOp

/-- Decoding (rule R96): the reserved bits first, then the opcode map. -/
def decode (w : CmdWord) : Decoded :=
  if rsvOf w = 0 then decodeOp (opOf w) (argOf w) else .illegal .reservedBits

/-- The operation number of a command (rule R92). -/
def opNumber : Instr → BitVec 4
  | .indInit => 0x1
  | .indOn _ => 0x2
  | .indOff _ => 0x3
  | .serInit _ => 0x4
  | .serRead => 0x5
  | .serWrite _ => 0x6

/-- The operand of a command in its `ARG` field (rules R92, R93). -/
def operandArg : Instr → BitVec 32
  | .indInit => 0
  | .indOn line => line
  | .indOff line => line
  | .serInit baud => baud
  | .serRead => 0
  | .serWrite byte => (0 : BitVec 24) ++ byte

/-- The command word of a command (rules R92, R100). -/
def encode (i : Instr) : CmdWord := cmdWord (opNumber i) (operandArg i)

/-- The instruction read from a word of `nbits` bits numbered as the opcode table numbers them: one 64-bit command word
(rule R91), the bits above `nbits` zero. -/
def decodeTableWord (nbits w : Nat) : Option Instr :=
  match decode (BitVec.ofNat 64 (w % 2 ^ nbits)) with
  | .cmd i => some i
  | .illegal _ => none

end Sys2Proof
end

