-- ==== Sys2Proof/Machine/Divisor.lean ====
section
/-! DEFINITION. The baud-rate divisor calculator (41_divisor.md). -/

namespace Sys2Proof.Machine

open Sys2Proof Sys2Proof.Config

/-- What `brr_calc` gives (rule R140). -/
inductive BrrResult where
  | ok (d : BitVec 16)
  | err (c : FaultCause)
  deriving DecidableEq, Repr, Inhabited

/-- The rounding of an exact half `q + 1/2` (rules R142, R144). -/
def roundTie (rule : TieRule) (q : Nat) : Nat :=
  match rule with
  | .up => q + 1
  | .down => q
  | .even => q + q % 2

/-- `pclk / baud` rounded to nearest, exact on unbounded naturals (rules R144, R147). -/
def roundDiv (rule : TieRule) (pclk baud : Nat) : Nat :=
  let q := pclk / baud
  let r := pclk % baud
  if 2 * r > baud then q + 1 else if 2 * r < baud then q else roundTie rule q

/-- `brr_calc` (rules R140, R143, R144, R145, R146). -/
def brrCalc (rule : TieRule) (pclk baud : BitVec 32) : BrrResult :=
  if baud = 0 then .err .baudZero
  else
    let n := roundDiv rule pclk.toNat baud.toNat
    if n > 0xFFFF then .err .baudOverflow else .ok (BitVec.ofNat 16 n)

/-- `mantissa = D[15:4]` (rules R37, R141). -/
def mantissa (d : BitVec 16) : BitVec 12 := d.extractLsb' 4 12

/-- `fraction = D[3:0]` (rules R37, R141). -/
def fraction (d : BitVec 16) : BitVec 4 := d.extractLsb' 0 4

end Sys2Proof.Machine
end

