-- ==== Sys2Proof/Machine/Flags.lean ====
section
/-! DEFINITION. The flags and outputs computed from state: the status word (rule R68), the error flags after a data read (rule
R67), the fault code (rules R99, R243), the response word (rule R98), the notification output (rule R42), the
activation of the line's sides (rule R220), what a pin shows (rules R32, R34, R121). -/

namespace Sys2Proof.Machine

open Sys2Proof Sys2Proof.Config

/-- The code of a fault cause on `FAULT_OUT` (rule R243). -/
def FaultCause.code : FaultCause → BitVec 4
  | .baudOverflow => 1
  | .baudZero => 2
  | .serNotConfigured => 3
  | .indNotConfigured => 4
  | .badLine => 5
  | .illegalCommand => 6
  | .concurrentAccess => 7

/-- The port `FAULT_OUT`: 0 while `fault = none` (rule R99). -/
def State.faultOut (s : State) : BitVec 4 :=
  match s.fault with
  | none => 0
  | some c => c.code

/-- `KIND`, bits [9:8] of the response word (rule R98). -/
def Response.kind : Response → BitVec 2
  | .ok => 0b00
  | .data _ => 0b01
  | .notReady => 0b10

/-- `VAL`, bits [7:0] of the response word (rule R98). -/
def Response.val : Response → Byte
  | .ok => 0
  | .data b => b
  | .notReady => 0

/-- The response word (rule R98). -/
def Response.word (r : Response) : RespWord := (0 : BitVec 6) ++ r.kind ++ r.val

/-- The output `irq_rx` (rules R42, R229, R250). -/
def State.irqRx (s : State) : Bool := s.per.uart.rxneie && s.per.uart.rxne

/-- The receive side is active (rule R220). -/
def Periph.rxActive (per : Periph) : Bool := per.rcc.uartEn && per.uart.ue && per.uart.re

/-- The transmit side is active (rule R220). -/
def Periph.txActive (per : Periph) : Bool := per.rcc.uartEn && per.uart.ue && per.uart.te

/-- A fresh bit of a draw. -/
def freeBit (n : Nat) : Bool := (freeWord n).getLsbD 0

/-- An error flag after a data-register read: it keeps its value or becomes 0, a draw (rule R67). -/
def drawnFlag (flag keep : Bool) : Bool := flag && keep

/-- The status-register word: the five flags at their places in the layout, the other bits as drawn (rule R68). -/
def srWord (L : Layout) (u : Uart) (drawn : Word) : Word :=
  let w := L.pe.put drawn (bitWord u.pe)
  let w := L.fe.put w (bitWord u.fe)
  let w := L.ore.put w (bitWord u.ore)
  let w := L.txe.put w (bitWord u.txe)
  L.rxne.put w (bitWord u.rxne)

/-- Bits [7:0] of a data-register read: `rdr`, or drawn where no byte has been received (rules R46, R64, item I12). -/
def drByte (u : Uart) (drawn : Word) : Byte := if u.rdrOpen then drawn.extractLsb' 0 8 else u.rdr

/-- The data-register word a read gives: bits [31:8] drawn (rule R64). -/
def drWord (u : Uart) (drawn : Word) : Word := drawn.extractLsb' 8 24 ++ drByte u drawn

/-- The level a pin drives: its output level while its mode is OUT, nothing otherwise (rules R32, R121). -/
def Periph.drives (per : Periph) (p : Port) (i : Pin) : Option Bool :=
  if per.gpio[p].mode[i] = .out then some (per.gpio[p].odr.getLsbD i.val) else none

/-- The baud-rate register word a read gives: the divisor in bits [15:0] (rule R37). DESIGN CHOICE (log 26): bits [31:16], of which the spec
says only that they are reserved and written 0, are drawn. -/
def brrWord (u : Uart) (drawn : Word) : Word := drawn.extractLsb' 16 16 ++ u.brr

/-- A pin is routed to the UART: mode AF and selector 7 (rules R34, R70). -/
def Periph.routedToUart (per : Periph) (p : Port) (i : Pin) : Bool :=
  per.gpio[p].mode[i] == .af && per.gpio[p].af[i] == 7

/-- The state of logical line `k`: true is on (rule R121). -/
def State.lineOn (s : State) (k : LineIdx) : Bool := s.per.gpio[s.cfg.indPort].odr.getLsbD (s.cfg.indPin[k]).val

end Sys2Proof.Machine
end

