-- ==== Sys2Proof/Machine/Operands.lean ====
section
/-! DEFINITION. The operands of the commands in use: a line's pin and its set/reset words (rules R120, R127, R128), the data word
of a byte (rules R61, R66), the byte of a data word (rule R192). -/

namespace Sys2Proof.Machine

open Sys2Proof Sys2Proof.Config

/-- The logical line an operand names, for an operand of 0 to 3, which admission has checked (rules R93, R126). -/
def lineIdx (line : BitVec 32) : LineIdx := ⟨line.toNat % 4, Nat.mod_lt _ (by decide)⟩

/-- The physical pin of a logical line (rule R120). -/
def linePin (p : Params) (k : LineIdx) : Pin := p.indPin[k]

/-- The set/reset word that sets pin `n`: bit `n` only (rule R127). -/
def setWord (n : Pin) : Word := (1 : Word) <<< n.val

/-- The set/reset word that clears pin `n`: bit `n + 16` only (rule R128). -/
def clearWord (n : Pin) : Word := (1 : Word) <<< (n.val + 16)

/-- What a word written to the set/reset register does to the output levels of its port: for every pin, the set bit
wins, then the clear bit, else the level stays (rule R33). -/
def bsrrEffect (odr : BitVec 16) (w : Word) : BitVec 16 :=
  (odr &&& ~~~(w.extractLsb' 16 16)) ||| w.extractLsb' 0 16

/-- The data-register word of a byte: `zext_32(byte)` (rules R61, R66). -/
def byteWord (b : Byte) : Word := b.setWidth 32

/-- The byte a data-register word carries: bits [7:0], the others discarded (rules R64, R194e). -/
def wordByte (w : Word) : Byte := w.extractLsb' 0 8

end Sys2Proof.Machine
end

