-- ==== Sys2Proof/Machine/Ops.lean ====
section
/-! DEFINITION. The shared operations: bus transactions (20_memory.md), raising the block's fault (rule R241), responding (rules
R98, R102, R104), the set of commands in flight (rule R25), admission (rules R244, R245), the configuration sequencer
(rules R24, R122, R162), the reset event (rule R270). -/

namespace Sys2Proof.Machine

open Sys2Proof Sys2Proof.Config

/-- The outcome of a meaning. -/
abbrev Out := Host.Outcome State Fault Refusal

/-- Go on with what an operation gives, or stop where it stops. -/
def andThen {α β : Type} (o : Host.Outcome α Fault Refusal) (k : α → Host.Outcome β Fault Refusal) :
    Host.Outcome β Fault Refusal :=
  match o with
  | .next a => k a
  | .fault r => .fault r
  | .refused r => .refused r

/-! ## Bus transactions -/

/-- Append an event to the transaction trace (rules R13, R28). -/
def State.emit (s : State) (e : Event) : State := { s with trace := s.trace ++ [e] }

/-- `FieldWrite(f, v)` (rules R13, R63, R70): one atomic transaction on the field's register. -/
def fieldWrite (f : Field) (v : Word) (s : State) : Out :=
  if s.per.clocked f then .next ({ s with per := s.per.set f v }.emit (.w f v)) else .refused .unclockedPeripheral

/-- `BusRead(UART.sr)` (rule R68): no side effect; gives the word read. -/
def readSr (s : State) : Host.Outcome (Word × State) Fault Refusal :=
  if s.per.rcc.uartEn then
    let w := srWord s.cfg.layout s.per.uart (freeWord s.draws)
    .next (w, { s with draws := s.draws + 1 }.emit (.rd .sr w))
  else .refused .unclockedPeripheral

/-- The UART after a data-register read: `rxne` cleared (rule R65), each error flag kept or cleared, a draw of its own
(rule R67). -/
def Uart.afterRead (u : Uart) (n : Nat) : Uart :=
  { u with
    rxne := false
    ore := drawnFlag u.ore (freeBit n)
    fe := drawnFlag u.fe (freeBit (n + 1))
    pe := drawnFlag u.pe (freeBit (n + 2)) }

/-- `BusRead(UART.dr)` (rules R64, R65, R67); gives the word read. -/
def readDr (s : State) : Host.Outcome (Word × State) Fault Refusal :=
  if s.per.rcc.uartEn then
    let w := drWord s.per.uart (freeWord s.draws)
    .next (w, { s with
      per := { s.per with uart := s.per.uart.afterRead (s.draws + 1) }
      draws := s.draws + 4 }.emit (.rd .dr w))
  else .refused .unclockedPeripheral

/-- The UART after a data-register write: the byte in `tdr`, `txe` cleared (rule R66). A write while `txe = 0` replaces the
byte, and which byte then reaches the wire is open (item I8, log 9). -/
def Uart.afterWrite (u : Uart) (b : Byte) : Uart :=
  { u with tdr := b, txe := false, tdrOpen := !u.txe }

/-- `BusWrite(UART.dr, w)` (rule R66). -/
def writeDr (w : Word) (s : State) : Out :=
  if s.per.rcc.uartEn then
    .next ({ s with per := { s.per with uart := s.per.uart.afterWrite (wordByte w) } }.emit (.wr .dr w))
  else .refused .unclockedPeripheral

/-- `BusWrite(UART.brr, w)`: the whole-register write of the divisor (rules R37, R162 step 14). DESIGN CHOICE (log 26): bits [31:16], which
rule R37 says are written 0, are not kept, whatever they are. -/
def writeBrr (w : Word) (s : State) : Out :=
  if s.per.rcc.uartEn then .next ({ s with per := s.per.set .uartBrr w }.emit (.wr .brr w))
  else .refused .unclockedPeripheral

/-- `BusWrite(GPIO[p].bsrr, w)`: one atomic update of the port's output levels (rules R33, R69). -/
def writeBsrr (p : Port) (w : Word) (s : State) : Out :=
  if s.per.rcc.gpioEn[p] then
    .next ({ s with per := s.per.modifyGpio p fun g => { g with odr := bsrrEffect g.odr w } }.emit (.wr (.bsrr p) w))
  else .refused .unclockedPeripheral

/-- `BusRead(UART.brr)` (rules R13, R37, R61): no side effect; gives the word read. -/
def readBrr (s : State) : Host.Outcome (Word × State) Fault Refusal :=
  if s.per.rcc.uartEn then
    let w := brrWord s.per.uart (freeWord s.draws)
    .next (w, { s with draws := s.draws + 1 }.emit (.rd .brr w))
  else .refused .unclockedPeripheral

/-- `BusRead(GPIO[p].bsrr)` (rule R33): gives 0, no side effect. -/
def readBsrr (p : Port) (s : State) : Host.Outcome (Word × State) Fault Refusal :=
  if s.per.rcc.gpioEn[p] then .next (0, s.emit (.rd (.bsrr p) 0)) else .refused .unclockedPeripheral

/-- `BusRead` of a register that has no rules of its own: the current value of its fields, its other bits from the byte store, no side
effect (rules R41, R61, R81). -/
def readWord (addr : Word) (s : State) : Host.Outcome (Word × State) Fault Refusal :=
  if (s.cfg.layout.fieldsAt addr).all s.per.clocked then
    .next (s.per.wordAt s.cfg.layout addr, s.emit (.rd (.word addr) (s.per.wordAt s.cfg.layout addr)))
  else .refused .unclockedPeripheral

/-- `BusWrite` of a register that has no rules of its own: each field takes its bits, the byte store the others (rules R41, R61). A
register that holds a read-only field refuses it (rule R32, log 12). -/
def writeWord (addr w : Word) (s : State) : Out :=
  if !(s.cfg.layout.fieldsAt addr).all s.per.clocked then .refused .unclockedPeripheral
  else if !(s.cfg.layout.fieldsAt addr).all Field.writable then .refused .readOnlyRegister
  else .next ({ s with per := s.per.setWordAt s.cfg.layout addr w }.emit (.wr (.word addr) w))

/-- The read of a register of the layout, by what it is. -/
def regRead (r : BusReg) (s : State) : Host.Outcome (Word × State) Fault Refusal :=
  match r with
  | .sr => readSr s
  | .dr => readDr s
  | .brr => readBrr s
  | .bsrr p => readBsrr p s
  | .word addr => readWord addr s

/-- The write of a register of the layout, by what it is. The status register's flags are read-only (rules R38, R39, log 12). -/
def regWrite (r : BusReg) (w : Word) (s : State) : Out :=
  match r with
  | .sr => .refused .readOnlyRegister
  | .dr => writeDr w s
  | .brr => writeBrr w s
  | .bsrr p => writeBsrr p w s
  | .word addr => writeWord addr w s

/-- Go on with the register at an address: refused where the address is no multiple of 4 (rule R62, item I15), a fault where the layout names
no register there (rule R60, log 12). -/
def atRegister {α : Type} (addr : Word) (s : State) (k : BusReg → Host.Outcome α Fault Refusal) : Host.Outcome α Fault Refusal :=
  if addr.toNat % 4 ≠ 0 then .refused .misalignedAccess
  else match s.cfg.layout.regAt addr with
    | none => .fault .unmappedAddress
    | some r => k r

/-- `MemRead(addr, 4)`: `BusRead` of the register at an address of the layout (rules R13, R60, R62). -/
def memRead (addr : Word) (s : State) : Host.Outcome (Word × State) Fault Refusal := atRegister addr s fun r => regRead r s

/-- `MemWrite(addr, 4, w)`: `BusWrite` of the register at an address of the layout (rules R13, R60, R62). -/
def memWrite (addr w : Word) (s : State) : Out := atRegister addr s fun r => regWrite r w s

/-- `BusRead(r)` of any register (rules R13, R33, R60, R61). A register named by its address is the one the layout has there: the data
register by its address is the data register (rule R13, log 12). -/
def busRead (r : BusReg) (s : State) : Host.Outcome (Word × State) Fault Refusal :=
  match r with
  | .word addr => memRead addr s
  | .sr | .dr | .brr | .bsrr _ => regRead r s

/-- `BusWrite(r, w)` of any register (rules R13, R60, R61); a register named by its address as in `busRead`. -/
def busWrite (r : BusReg) (w : Word) (s : State) : Out :=
  match r with
  | .word addr => memWrite addr w s
  | .sr | .dr | .brr | .bsrr _ => regWrite r w s

/-! ## Faults and responses -/

/-- `raise Fault(c)` for command word `w` of the current caller at micro-step `n` (rules R47, R241): nothing else changes. -/
def State.raiseFault (s : State) (c : FaultCause) (w : CmdWord) (n : Nat) : State :=
  { s with fault := some c, faultInfo := some { caller := s.cur, word := w, step := n } }

/-- A caller on receiving a response: `last`, the byte latch after `DATA`, and the label counter of a harness program move on
(rules R27, R102, R104). -/
def Caller.receive (c : Caller) (r : Response) : Caller :=
  { c with
    last := some r
    latch := match r with
      | .data b => some b
      | .ok => c.latch
      | .notReady => c.latch
    lc := if c.prog.isSome then c.lc + 1 else c.lc }

/-- `respond(r)` to the current caller (rules R13, R98). -/
def State.respond (s : State) (r : Response) : State :=
  { s with callers := s.callers.modify s.cur fun c => c.receive r }

/-! ## Commands in flight -/

/-- The command of caller `k` in flight, if any (rules R25, R76). -/
def State.flightOf (s : State) (k : Nat) : Option Flight := s.inflight.find? fun f => f.caller == k

/-- Put a command into the set, kept sorted by caller (log 13). -/
def insertFlight (f : Flight) : List Flight → List Flight
  | [] => [f]
  | g :: rest => if f.caller < g.caller then f :: g :: rest else g :: insertFlight f rest

/-- The current caller's command goes into flight (rule R25). -/
def State.enterFlight (s : State) (i : Instr) (ph : Phase) : State :=
  { s with inflight := insertFlight { caller := s.cur, cmd := i, phase := ph } s.inflight }

/-- The current caller's command leaves the set (rule R25). -/
def State.leaveFlight (s : State) : State :=
  { s with inflight := s.inflight.filter fun f => f.caller != s.cur }

/-! ## Admission -/

/-- `IND_INIT` or `SER_INIT`. -/
def isInit : Instr → Bool
  | .indInit | .serInit _ => true
  | .indOn _ | .indOff _ | .serRead | .serWrite _ => false

/-- `SER_READ` or `SER_WRITE`. -/
def isTransfer : Instr → Bool
  | .serRead | .serWrite _ => true
  | .indInit | .indOn _ | .indOff _ | .serInit _ => false

/-- A command in flight of another caller stands in the way of `cmd`: it is an init (a), `cmd` is an init (b), or both are serial
transfers (c) (rule R245). -/
def Flight.blocks (f : Flight) (k : Nat) (cmd : Instr) : Bool :=
  f.caller != k && (f.phase == .configuring || isInit cmd || (isTransfer cmd && isTransfer f.cmd))

/-- `conflict(k, cmd)` (rule R245). -/
def State.conflict (s : State) (k : Nat) (cmd : Instr) : Bool := s.inflight.any fun f => f.blocks k cmd

/-- Checks 3 and 4 of admission, then micro-step 1 (rule R244). Check 2 is decoding, done before a command is a command. -/
def admission (i : Instr) (check : State → Option FaultCause) (first : State → Out) (s : State) : Out :=
  if s.conflict s.cur i then .next (s.raiseFault .concurrentAccess (encode i) 0)
  else match check s with
    | some c => .next (s.raiseFault c (encode i) 0)
    | none => first s

/-- The next micro-step of command `i` of the current caller: none once the block is faulted (rules R242, R244 check 1); admission and
micro-step 1 where the caller has nothing in flight; a later micro-step where `i` is in flight. -/
def perform (i : Instr) (check : State → Option FaultCause) (first : State → Out) (later : Phase → State → Out) (s : State) :
    Out :=
  if s.fault.isSome then .next s
  else match s.flightOf s.cur with
    | none => admission i check first s
    | some f => if f.cmd = i then later f.phase s else .fault .callerBusy

/-- The check of `IND_ON` and `IND_OFF`: `ind_cfg`, then the line (rule R126). -/
def indCheck (line : BitVec 32) (s : State) : Option FaultCause :=
  if !s.indCfg then some .indNotConfigured else if line.toNat > 3 then some .badLine else none

/-- The check of `SER_READ` and `SER_WRITE` (rules R191, R201). -/
def serCheck (s : State) : Option FaultCause :=
  if s.serCfg = .configured then none else some .serNotConfigured

/-- No check of the command's own (rules R161, R244). -/
def noCheck (_ : State) : Option FaultCause := none

/-! ## The configuration sequencer -/

/-- One micro-step of an init command (rules R122, R162). -/
inductive MicroOp where
  /-- `FieldWrite(f, v)` -/
  | field (f : Field) (v : Word)
  /-- `brr_calc(PCLK_HZ, baud)`, latched in `seq.D` (rule R152) -/
  | latchDivisor (baud : BitVec 32)
  /-- `BusWrite(UART.brr, zext_32(seq.D))` -/
  | storeDivisor
  deriving DecidableEq, Repr, Inhabited

/-- After a micro-step: the step index moves on, and after the last one the command ends with `OK` (rules R24, R122, R162). `q` is the
sequencer before the step, with the divisor as the step leaves it. -/
def State.advance (s : State) (q : Seq) (last : Bool) (finish : State → State) : State :=
  if last then ((finish { s with seq := none }).leaveFlight).respond .ok
  else { s with seq := some { q with step := q.step + 1 } }

/-- Perform one micro-step of init command `i` (rules R122, R162, R163). -/
def runOp (i : Instr) (op : MicroOp) (q : Seq) (last : Bool) (finish : State → State) (s : State) : Out :=
  match op with
  | .field f v => andThen (fieldWrite f v s) fun t => .next (t.advance q last finish)
  | .latchDivisor baud =>
    match brrCalc s.cfg.tieRule s.cfg.pclkHz baud with
    | .ok d => .next (s.advance { q with d := some d } last finish)
    | .err c => .next (s.raiseFault c (encode i) (q.step + 1))
  | .storeDivisor =>
    match q.d with
    | none => .fault .sequencerMismatch
    | some d => andThen (writeBrr (d.setWidth 32) s) fun t => .next (t.advance q last finish)

/-- The next micro-step of the init command the sequencer is at (rules R24, R76). -/
def seqStep (i : Instr) (cmd : InitCmd) (ops : List MicroOp) (finish : State → State) (s : State) : Out :=
  match s.seq with
  | none => .fault .sequencerMismatch
  | some q =>
    if q.caller = s.cur ∧ q.cmd = cmd then
      match ops[q.step]? with
      | none => .fault .sequencerMismatch
      | some op => runOp i op q (q.step + 1 == ops.length) finish s
    else .fault .sequencerMismatch

/-- An init command goes into flight and performs its micro-step 1 (rules R122, R162). -/
def seqStart (i : Instr) (cmd : InitCmd) (ops : List MicroOp) (finish : State → State) (s : State) : Out :=
  seqStep i cmd ops finish
    { s.enterFlight i .configuring with seq := some { caller := s.cur, cmd := cmd, step := 0, d := none } }

/-- A later micro-step of an init command: its phase is CONFIGURING (rule R25). -/
def seqLater (i : Instr) (cmd : InitCmd) (ops : List MicroOp) (finish : State → State) (ph : Phase) (s : State) : Out :=
  match ph with
  | .configuring => seqStep i cmd ops finish s
  | .statusSampled _ => .fault .phaseMismatch

/-! ## Reset -/

/-- A caller at the reset event: its program starts again at its first line (rules R27, R271). -/
def Caller.restart (c : Caller) : Caller := { Caller.reset with prog := c.prog }

/-- The reset event (rules R270, R271): every piece of the machine's state takes its reset value; the parameters, the callers'
programs and the inputs to come (arrivals, schedule, free values) are not the machine's own state and stay. -/
def State.resetEvent (s : State) : State :=
  { State.resetWith s.cfg with
    callers := s.callers.map Caller.restart
    wireRxIn := s.wireRxIn
    schedule := s.schedule
    draws := s.draws }

end Sys2Proof.Machine
end

