-- ==== Sys2Proof/Machine/Indicator.lean ====
section
/-! DEFINITION. The indicator line driver: IND_INIT, IND_ON, IND_OFF (40_indicator.md). -/

namespace Sys2Proof.Machine

open Sys2Proof Sys2Proof.Config

/-- The nine micro-steps of `IND_INIT`: the port's clock, then mode OUT and type PP of each line's pin (rule R122). -/
def indInitOps (p : Params) : List MicroOp :=
  [ .field (.rccGpioEn p.indPort) 1
  , .field (.gpioMode p.indPort p.indPin[0]) (Mode.out.code.setWidth 32)
  , .field (.gpioOtype p.indPort p.indPin[0]) (OType.pp.code.setWidth 32)
  , .field (.gpioMode p.indPort p.indPin[1]) (Mode.out.code.setWidth 32)
  , .field (.gpioOtype p.indPort p.indPin[1]) (OType.pp.code.setWidth 32)
  , .field (.gpioMode p.indPort p.indPin[2]) (Mode.out.code.setWidth 32)
  , .field (.gpioOtype p.indPort p.indPin[2]) (OType.pp.code.setWidth 32)
  , .field (.gpioMode p.indPort p.indPin[3]) (Mode.out.code.setWidth 32)
  , .field (.gpioOtype p.indPort p.indPin[3]) (OType.pp.code.setWidth 32) ]

/-- A completed `IND_INIT` sets `ind_cfg` (rules R22, R122). -/
def indInitFinish (s : State) : State := { s with indCfg := true }

/-- `IND_INIT` (rules R122 to R124). -/
def execIndInit (s : State) : Out :=
  perform .indInit noCheck (seqStart .indInit .indInit (indInitOps s.cfg) indInitFinish)
    (seqLater .indInit .indInit (indInitOps s.cfg) indInitFinish) s

/-- The one micro-step of `IND_ON` and `IND_OFF`: one set/reset write for the line's pin, then `OK` (rules R127, R128, R129). -/
def lineWrite (line : BitVec 32) (word : Pin → Word) (s : State) : Out :=
  andThen (writeBsrr s.cfg.indPort (word (linePin s.cfg (lineIdx line))) s) fun t => .next (t.respond .ok)

/-- A single-micro-step command is never in flight (rule R25). -/
def neverLater (_ : Phase) (_ : State) : Out := .fault .phaseMismatch

/-- `IND_ON` (rules R126, R127, R129). -/
def execIndOn (line : BitVec 32) (s : State) : Out :=
  perform (.indOn line) (indCheck line) (lineWrite line setWord) neverLater s

/-- `IND_OFF` (rules R126, R128, R129). -/
def execIndOff (line : BitVec 32) (s : State) : Out :=
  perform (.indOff line) (indCheck line) (lineWrite line clearWord) neverLater s

end Sys2Proof.Machine
end

