-- ==== Sys2Proof/Machine/SerialConfig.lean ====
section
/-! DEFINITION. The UART configuration sequencer: SER_INIT (42_serial_config.md). -/

namespace Sys2Proof.Machine

open Sys2Proof Sys2Proof.Config

/-- The eighteen micro-steps of `SER_INIT`, in the order of the table of rule R162. -/
def serInitOps (p : Params) (baud : BitVec 32) : List MicroOp :=
  [ .field .rccUartEn 1
  , .field (.rccGpioEn p.serPort) 1
  , .field (.gpioAf p.serPort p.txPin) 7
  , .field (.gpioAf p.serPort p.rxPin) 7
  , .field (.gpioMode p.serPort p.txPin) (Mode.af.code.setWidth 32)
  , .field (.gpioMode p.serPort p.rxPin) (Mode.af.code.setWidth 32)
  , .field .uartM 0
  , .field .uartStop 0
  , .field .uartPce 0
  , .field .uartOver8 0
  , .field .uartRtse 0
  , .field .uartCtse 0
  , .latchDivisor baud
  , .storeDivisor
  , .field .uartUe 1
  , .field .uartTe 1
  , .field .uartRe 1
  , .field .uartRxneie 1 ]

/-- The final micro-step sets `ser_cfg` (rules R23, R162 step 18). -/
def serInitFinish (s : State) : State := { s with serCfg := .configured }

/-- `SER_INIT` (rules R161 to R169). -/
def execSerInit (baud : BitVec 32) (s : State) : Out :=
  perform (.serInit baud) noCheck (seqStart (.serInit baud) .serInit (serInitOps s.cfg baud) serInitFinish)
    (seqLater (.serInit baud) .serInit (serInitOps s.cfg baud) serInitFinish) s

end Sys2Proof.Machine
end

