-- ==== Sys2Proof/Machine/SerialIo.lean ====
section
/-! DEFINITION. Polled byte read and write: SER_READ, SER_WRITE (43_serial_io.md). -/

namespace Sys2Proof.Machine

open Sys2Proof Sys2Proof.Config

/-- Micro-step 1 of a serial transfer: one status read; with the flag clear the command ends with `NOT_READY`, with the flag set
it goes into flight (rules R192, R202). The flag is the one the status word carries at its place (rule R68): it is taken from the field. -/
def sampleStatus (i : Instr) (flag : Uart → Bool) (s : State) : Out :=
  andThen (readSr s) fun r =>
    if flag s.per.uart then .next (r.2.enterFlight i (.statusSampled true)) else .next (r.2.respond .notReady)

/-- Micro-step 2 of a serial transfer, for a flag sampled as 1 (rules R25, R192, R202). -/
def dataAccess (access : State → Out) (ph : Phase) (s : State) : Out :=
  match ph with
  | .statusSampled true => access s
  | .statusSampled false => .fault .phaseMismatch
  | .configuring => .fault .phaseMismatch

/-- Micro-step 2 of `SER_READ`: the data load, then `DATA` with bits [7:0] of the word read (rule R192). -/
def loadData (s : State) : Out :=
  andThen (readDr s) fun r => .next (r.2.leaveFlight.respond (.data (drByte s.per.uart (freeWord s.draws))))

/-- Micro-step 2 of `SER_WRITE`: the data store, then `OK` (rule R202). -/
def storeData (byte : Byte) (s : State) : Out :=
  andThen (writeDr (byteWord byte) s) fun t => .next (t.leaveFlight.respond .ok)

/-- `SER_READ` (rules R190 to R196). -/
def execSerRead (s : State) : Out :=
  perform .serRead serCheck (sampleStatus .serRead Uart.rxne) (dataAccess loadData) s

/-- `SER_WRITE` (rules R200 to R204). -/
def execSerWrite (byte : BitVec 8) (s : State) : Out :=
  perform (.serWrite byte) serCheck (sampleStatus (.serWrite byte) Uart.txe) (dataAccess (storeData byte)) s

end Sys2Proof.Machine
end

