-- ==== Sys2Proof/Machine/Dispatch.lean ====
section
/-! DEFINITION. The dispatch of a command to its meaning: its next micro-step, for the current caller. -/

namespace Sys2Proof.Machine

open Sys2Proof

def exec (i : Instr) (s : State) : Host.Outcome State Fault Refusal :=
  match i with
  | .indInit => Sys2Proof.Machine.execIndInit s
  | .indOn line => Sys2Proof.Machine.execIndOn line s
  | .indOff line => Sys2Proof.Machine.execIndOff line s
  | .serInit baud => Sys2Proof.Machine.execSerInit baud s
  | .serRead => Sys2Proof.Machine.execSerRead s
  | .serWrite byte => Sys2Proof.Machine.execSerWrite byte s

end Sys2Proof.Machine
end

