-- ==== Sys2Proof/Machine/Harness.lean ====
section
/-! DEFINITION. The caller harness notation (30_encoding.md section 5): the assembler of commands and programs, the pseudo-instructions,
and what one line of a program does to its caller. -/

namespace Sys2Proof.Machine

open Sys2Proof Sys2Proof.Config

/-- An immediate as written: a number, decimal or hexadecimal, or a character (rule R101). -/
inductive Imm where
  | num (n : Nat)
  | chr (c : Char)
  deriving DecidableEq, Repr, Inhabited

/-- The value of an immediate; a character stands for its ASCII code (rule R101). DESIGN CHOICE (log 27): a character above 0x7F has no
ASCII code, so it is no immediate. -/
def Imm.value : Imm → Option Nat
  | .num n => some n
  | .chr c => if c.toNat < 128 then some c.toNat else none

/-- A line of harness source: a command, a harness line or a pseudo-instruction (rules R100, R102, R104 to R106). -/
inductive Source where
  | label (l : Nat)
  /-- `ind.init` -/
  | indInit
  /-- `ind.on <line>` -/
  | indOn (line : Imm)
  /-- `ind.off <line>` -/
  | indOff (line : Imm)
  /-- `ser.init <baud>` -/
  | serInit (baud : Imm)
  /-- `ser.read` -/
  | serRead
  /-- `ser.write <byte>` -/
  | serWrite (byte : Imm)
  /-- `ser.write b` -/
  | serWriteB
  | bnr (l : Nat)
  | br (l : Nat)
  | halt
  /-- `ser.getc` (rule R105) -/
  | getc
  /-- `ser.putc <byte>` (rule R106) -/
  | putc (byte : Imm)
  /-- `ser.putc b` (rule R106) -/
  | putcB
  deriving DecidableEq, Repr, Inhabited

/-- An operand of `n` bits, if the immediate fits them (rule R101). -/
def Imm.operand (n : Nat) (x : Imm) : Option (BitVec n) :=
  x.value.bind fun v => if v < 2 ^ n then some (BitVec.ofNat n v) else none

/-- A 32-bit operand, if the immediate fits (rule R101). -/
def Imm.word (x : Imm) : Option (BitVec 32) := x.operand 32

/-- A byte operand, if the immediate fits (rule R101). -/
def Imm.byte (x : Imm) : Option Byte := x.operand 8

/-- The lines a line of source stands for, `fresh` being a label of its own for a pseudo-instruction; `none` is an assembly error
(rules R100, R101, R105, R106). -/
def Source.expand (fresh : Nat) : Source → Option (List HarnessLine)
  | .label l => some [.label l]
  | .indInit => some [.cmd .indInit]
  | .indOn line => line.word.map fun x => [.cmd (.indOn x)]
  | .indOff line => line.word.map fun x => [.cmd (.indOff x)]
  | .serInit baud => baud.word.map fun x => [.cmd (.serInit x)]
  | .serRead => some [.cmd .serRead]
  | .serWrite byte => byte.byte.map fun x => [.cmd (.serWrite x)]
  | .serWriteB => some [.serWriteB]
  | .bnr l => some [.bnr l]
  | .br l => some [.br l]
  | .halt => some [.halt]
  | .getc => some [.label fresh, .cmd .serRead, .bnr fresh]
  | .putc byte => byte.byte.map fun x => [.label fresh, .cmd (.serWrite x), .bnr fresh]
  | .putcB => some [.label fresh, .serWriteB, .bnr fresh]

/-- The command word a line of source stands for, if it is one command line (rule R100). -/
def Source.word (x : Source) : Option CmdWord :=
  match x.expand 0 with
  | none => none
  | some [.cmd i] => some (encode i)
  | some _ => none

/-- The largest label a line of source names. -/
def Source.label? : Source → Nat
  | .label l | .bnr l | .br l => l
  | .indInit | .indOn _ | .indOff _ | .serInit _ | .serRead | .serWrite _ | .serWriteB | .halt | .getc | .putc _ | .putcB => 0

/-- Expand the lines of a program, giving each the next fresh label. -/
def expandAll : Nat → List Source → Option (List HarnessLine)
  | _, [] => some []
  | fresh, x :: rest => do
    let lines ← x.expand fresh
    let more ← expandAll (fresh + 1) rest
    pure (lines ++ more)

/-- The index of the line after `label l:` (rule R103). -/
def labelTarget (prog : List HarnessLine) (l : Nat) : Option Nat :=
  (prog.findIdx? fun x => x == .label l).map (· + 1)

/-- Every branch of a program goes to a label it defines (rule R103). -/
def programOk (prog : List HarnessLine) : Bool :=
  prog.all fun x =>
    match x with
    | .bnr l | .br l => (labelTarget prog l).isSome
    | .label _ | .cmd _ | .serWriteB | .halt => true

/-- Assemble a program; `none` is an assembly error: an immediate that does not fit, or a branch to an undefined label (rules
R101, R103). -/
def assemble (src : List Source) : Option (List HarnessLine) :=
  match expandAll ((src.map Source.label?).foldl max 0 + 1) src with
  | none => none
  | some prog => if programOk prog then some prog else none

/-- The line is a label. -/
def HarnessLine.isLabel : HarnessLine → Bool
  | .label _ => true
  | .cmd _ | .serWriteB | .bnr _ | .br _ | .halt => false

/-- Labels take no step: the first line at or after `lc` that is no label (rule R102). -/
def skipLabels (prog : List HarnessLine) (lc : Nat) : Nat :=
  lc + ((prog.drop lc).takeWhile HarnessLine.isLabel).length

/-- What the next line asks for. -/
inductive LineAction where
  /-- the caller's own control flow: the caller after it -/
  | goOn (c : Caller)
  /-- the caller, at its command line, writes a command word (rules R102, R104) -/
  | issue (w : CmdWord) (c : Caller)
  /-- a branch to a label the program does not define (rule R103) -/
  | noLabel
  deriving DecidableEq, Repr, Inhabited

/-- A branch to a label (rule R103). -/
def jumpTo (prog : List HarnessLine) (l : Nat) (c : Caller) : LineAction :=
  match labelTarget prog l with
  | some n => .goOn { c with lc := n }
  | none => .noLabel

/-- The next line of a running caller's program (rules R102, R103, R104, R107). -/
def nextLine (prog : List HarnessLine) (c : Caller) : LineAction :=
  let n := skipLabels prog c.lc
  let c := { c with lc := n }
  match prog[n]? with
  | none => .goOn { c with status := .noHalt }
  | some (.label _) => .goOn { c with lc := n + 1 }
  | some (.cmd i) => .issue (encode i) c
  | some .serWriteB =>
    match c.latch with
    | none => .goOn { c with status := .unwrittenLatch }
    | some b => .issue (encode (.serWrite b)) c
  | some (.bnr l) => if c.last = some .notReady then jumpTo prog l c else .goOn { c with lc := n + 1 }
  | some (.br l) => jumpTo prog l c
  | some .halt => .goOn { c with status := .halted }

end Sys2Proof.Machine
end

