-- ==== Sys2Proof/Machine/LineSide.lean ====
section
/-! DEFINITION. The UART line side and the wire: RX_ARRIVE, TX_LOAD, TX_DONE (44_uart_agent.md). -/

namespace Sys2Proof.Machine

open Sys2Proof Sys2Proof.Config

/-- An arrival that nothing has placed: byte and error draws free (rule R226, item I20, log 2). -/
def freeArrival (n : Nat) : Arrival :=
  { byte := (freeWord n).extractLsb' 0 8, ferr := (freeWord n).getLsbD 8, perr := (freeWord n).getLsbD 9 }

/-- Take the next arrival of `wire_rx_in` (rule R43). -/
def State.nextArrival (s : State) : Arrival × State :=
  match s.wireRxIn with
  | a :: rest => (a, { s with wireRxIn := rest })
  | [] => (freeArrival s.draws, { s with draws := s.draws + 1 })

/-- A byte delivered into an empty receive register (rule R221). -/
def Uart.deliver (u : Uart) (v : Byte) (ferr : Bool) : Uart :=
  { u with rdr := v, rxne := true, fe := ferr, rdrOpen := false }

/-- An overrun: `ore` is set and which byte survives is a draw (rule R222). -/
def Uart.overrun (u : Uart) (v : Byte) (keepOld : Bool) : Uart :=
  { u with ore := true, rdr := if keepOld then u.rdr else v, rdrOpen := u.rdrOpen && keepOld }

/-- The arrival of byte `v` at the receiver (rules R221, R222, R223). -/
def State.arrive (s : State) (v : Byte) (ferr : Bool) : State :=
  if !s.per.rxActive then s
  else if s.per.uart.rxne then
    { s with per := { s.per with uart := s.per.uart.overrun v (freeBit s.draws) }, draws := s.draws + 1 }
  else { s with per := { s.per with uart := s.per.uart.deliver v ferr } }

/-- `RX_ARRIVE` (rules R221 to R223). -/
def rxArrive (s : State) : State := s.nextArrival.2.arrive s.nextArrival.1.byte s.nextArrival.1.ferr

/-- `TX_LOAD` is enabled (rules R220, R224). -/
def State.txLoadEnabled (s : State) : Bool := s.per.txActive && !s.per.uart.txe && s.txShift.isNone

/-- The byte `TX_LOAD` takes: `tdr`, or a draw where it is open (rule R224, logs 4 and 9). -/
def State.txByte (s : State) : Byte :=
  if s.per.uart.tdrOpen then (freeWord s.draws).extractLsb' 0 8 else s.per.uart.tdr

/-- `TX_LOAD` (rule R224); no step where it is not enabled. -/
def txLoad (s : State) : State :=
  if s.txLoadEnabled then
    { s with
      txShift := some s.txByte
      per := { s.per with uart := { s.per.uart with txe := true } }
      draws := s.draws + 1 }
  else s

/-- `TX_DONE` is enabled: a byte is in the shift register (rule R225) and the transmit side is active (rule R220, log 10). -/
def State.txDoneEnabled (s : State) : Bool := s.per.txActive && s.txShift.isSome

/-- `TX_DONE` (rule R225); no step where it is not enabled. -/
def txDone (s : State) : State :=
  if s.txDoneEnabled then { s with wireTx := s.wireTx ++ s.txShift.toList, txShift := none } else s

end Sys2Proof.Machine
end

