-- ==== Sys2Proof/Machine/Agents.lean ====
section
/-! DEFINITION. The steps of the agents (rules R7, R18, R75): a caller issuing a command word, the block's next micro-step, a harness
line, the line side, the wire, reset. An agent step that is not enabled changes nothing (log 11). -/

namespace Sys2Proof.Machine

open Sys2Proof Sys2Proof.Config

/-- The current caller's command word reaches the block: nothing where the block is faulted (check 1), `ILLEGAL_COMMAND` where the
word is illegal (check 2), else the command's admission and micro-step 1 (rules R242, R244). -/
def issueWord (w : CmdWord) (s : State) : Out :=
  if s.fault.isSome then .next s
  else match decode w with
    | .illegal _ => .next (s.raiseFault .illegalCommand w 0)
    | .cmd i => exec i s

/-- The harness program of caller `k`, if it runs one. -/
def State.progOf (s : State) (k : Nat) : Option (List HarnessLine) := s.callers[k]?.bind Caller.prog

/-- Caller `k` may write a command word of its own: it exists, has nothing in flight (rules R76, R90) and runs no harness program
(whose lines would write its words, rule R102). -/
def State.mayIssue (s : State) (k : Nat) : Bool :=
  decide (k < s.cfg.nCallers) && (s.flightOf k).isNone && (s.progOf k).isNone

/-- `Caller(k)` writes command word `w` (rule R90). -/
def issueStep (k : Nat) (w : CmdWord) (s : State) : Out :=
  if s.mayIssue k then issueWord w { s with cur := k } else .next s

/-- The block performs the next micro-step of caller `k`'s command in flight (rules R7, R76). -/
def blockStep (k : Nat) (s : State) : Out :=
  match s.flightOf k with
  | none => .next s
  | some f => exec f.cmd { s with cur := k }

/-- Caller `k`'s harness program takes its next line, unless it has ended or awaits a response (rules R102 to R104, R107). -/
def harnessStep (k : Nat) (s : State) : Out :=
  match s.callers[k]? with
  | none => .next s
  | some c =>
    match c.prog with
    | none => .next s
    | some prog =>
      if c.status = .running ∧ s.flightOf k = none then
        match nextLine prog c with
        | .goOn c' => .next { s with callers := s.callers.set k c' }
        | .issue w c' => issueWord w { s with callers := s.callers.set k c', cur := k }
        | .noLabel => .fault .undefinedLabel
      else .next s

/-- One step of one agent (rule R18). -/
def agentStep (a : AgentStep) (s : State) : Out :=
  match a with
  | .issue k w => issueStep k w s
  | .block k => blockStep k s
  | .harness k => harnessStep k s
  | .rxArrive => .next (rxArrive s)
  | .txLoad => .next (txLoad s)
  | .txDone => .next (txDone s)
  | .reset => .next s.resetEvent

/-- Which agent steps next, and the state once that is settled: the head of the schedule, or a free value (rules R75, R226, R246,
log 1). -/
def State.pick (s : State) : AgentStep × State :=
  match s.schedule with
  | a :: rest => (a, { s with schedule := rest })
  | [] => (freeStep s.draws, { s with draws := s.draws + 1 })

/-- The machine's next step. -/
def nextStep (s : State) : Out := agentStep s.pick.1 s.pick.2

/-- The state in which caller 0 next writes word `w`: that agent step heads the schedule, and caller 0 may issue (it runs no harness
program and has nothing in flight). Stands for the caller's write to the command port (log 3). -/
def State.withWord (s : State) (w : CmdWord) : State :=
  { s with
    schedule := .issue 0 w :: s.schedule
    callers := s.callers.modify 0 fun c => { c with prog := none }
    inflight := s.inflight.filter fun f => f.caller != 0
    seq := s.seq.filter fun q => q.caller != 0 }

end Sys2Proof.Machine
end

