-- ==== Sys2Proof/Safety.lean ====
section
/-! DEFINITION. What counts as a good state and a good run: the launch and deployment premises (rules R276, R277), fairness (rule
R226), the end of a run (rule R287), a command run to its end without interruption, the end states of the inits (rules
R122, R167), and the invariant of the machine. -/

namespace Sys2Proof.Machine

open Sys2Proof Sys2Proof.Config

/-! ## Premises -/

/-- `PCLK_OK`: the parameter is the real frequency of the UART's bus clock (rule R276a). The model contains no real clock. -/
def PclkOk (realHz : Nat) (p : Params) : Prop := p.pclkHz.toNat = realHz

/-- `LAYOUT_OK`: the parameter is the real layout (rule R276b). The model contains no real registers. -/
def LayoutOk (real : Layout) (p : Params) : Prop := p.layout = real

/-- `PINS_OK` (rule R276c). -/
def PinsOk (p : Params) : Prop := p.linesDistinct ∧ p.serialDistinct ∧ p.pinsApart ∧ p.pinsFree

/-- `CLEAN_RESET`: the launch state is the reset state, with whatever programs, arrivals and schedule are placed (rule R276e). -/
def CleanReset (s : State) : Prop :=
  s = { State.resetWith s.cfg with
    callers := s.callers.map Caller.restart, wireRxIn := s.wireRxIn, schedule := s.schedule, draws := s.draws }

/-- `BAUD_OK`: a baud rate that `brr_calc` accepts (rule R277). -/
def BaudOk (p : Params) (baud : BitVec 32) : Prop := ∃ d, brrCalc p.tieRule p.pclkHz baud = .ok d

/-- Weak fairness of `TX_LOAD` and `TX_DONE` over an unending run: a step that stays enabled is taken (rule R226). -/
def WeaklyFair (run : Nat → State) : Prop :=
  (∀ n, (∀ m, n ≤ m → (run m).txLoadEnabled) → ∃ m, n ≤ m ∧ run (m + 1) = txLoad (run m).pick.2 ∧ (run m).pick.1 = .txLoad) ∧
  (∀ n, (∀ m, n ≤ m → (run m).txDoneEnabled) → ∃ m, n ≤ m ∧ run (m + 1) = txDone (run m).pick.2 ∧ (run m).pick.1 = .txDone)

/-- A run has ended (rule R287). It says nothing of bytes still in `tdr` or `tx_shift`. -/
def State.Ended (s : State) : Prop :=
  (∀ c ∈ s.callers, c.status = .halted) ∧ s.inflight = [] ∧ s.fault = none

/-! ## A command without interruption -/

/-- `n` micro-steps of command `i` of the current caller, no other agent stepping between them. -/
def runCommand : Nat → Instr → State → Out
  | 0, _, s => .next s
  | n + 1, i, s => andThen (exec i s) (runCommand n i)

/-- Command `i` of the current caller is in flight in phase `ph`, and the block is not faulted (rule R25). -/
def State.Flying (s : State) (i : Instr) (ph : Phase) : Prop :=
  s.fault = none ∧ s.flightOf s.cur = some { caller := s.cur, cmd := i, phase := ph }

/-- The current caller has nothing in flight, and admission lets `i` in as far as conflicts go (rules R244, R245). -/
def State.Free (s : State) (i : Instr) : Prop :=
  s.fault = none ∧ s.flightOf s.cur = none ∧ s.conflict s.cur i = false

/-- The peripheral fields after a completed `IND_INIT` (rule R122). -/
def indInitPeriph (p : Params) (per : Periph) : Periph :=
  let pin (k : LineIdx) (q : Periph) : Periph :=
    q.modifyGpio p.indPort fun g =>
      { g with
        mode := g.mode.set (p.indPin[k]).val .out (p.indPin[k]).isLt
        otype := g.otype.set (p.indPin[k]).val .pp (p.indPin[k]).isLt }
  pin 3 (pin 2 (pin 1 (pin 0
    { per with rcc := { per.rcc with gpioEn := per.rcc.gpioEn.set p.indPort.val true p.indPort.isLt } })))

/-- The trace entries of one `IND_INIT`, in order (rule R122, vector IND-1). -/
def indInitTrace (p : Params) : List Event :=
  .w (.rccGpioEn p.indPort) 1 :: [(0 : LineIdx), 1, 2, 3].flatMap fun k =>
    [.w (.gpioMode p.indPort p.indPin[k]) 0b01, .w (.gpioOtype p.indPort p.indPin[k]) 0]

/-- The peripheral fields after micro-steps 1 to 12 of `SER_INIT` (rules R162, R163). -/
def serInitFrame (p : Params) (per : Periph) : Periph :=
  { per with
    rcc := { gpioEn := per.rcc.gpioEn.set p.serPort.val true p.serPort.isLt, uartEn := true }
    gpio := per.gpio.set p.serPort.val
      { per.gpio[p.serPort] with
        af := ((per.gpio[p.serPort].af).set p.txPin.val 7 p.txPin.isLt).set p.rxPin.val 7 p.rxPin.isLt
        mode := ((per.gpio[p.serPort].mode).set p.txPin.val .af p.txPin.isLt).set p.rxPin.val .af p.rxPin.isLt }
      p.serPort.isLt
    uart := { per.uart with m := false, stop := 0, pce := false, over8 := false, rtse := false, ctse := false } }

/-- The peripheral fields after a completed `SER_INIT` whose divisor is `d` (rule R167). -/
def serInitPeriph (p : Params) (d : BitVec 16) (per : Periph) : Periph :=
  { serInitFrame p per with
    uart := { (serInitFrame p per).uart with brr := d, ue := true, te := true, re := true, rxneie := true } }

/-- The trace entries of micro-steps 1 to 12 of `SER_INIT` (rule R162, vector CFG-1). -/
def serInitFrameTrace (p : Params) : List Event :=
  [ .w .rccUartEn 1, .w (.rccGpioEn p.serPort) 1
  , .w (.gpioAf p.serPort p.txPin) 7, .w (.gpioAf p.serPort p.rxPin) 7
  , .w (.gpioMode p.serPort p.txPin) 0b10, .w (.gpioMode p.serPort p.rxPin) 0b10
  , .w .uartM 0, .w .uartStop 0, .w .uartPce 0, .w .uartOver8 0, .w .uartRtse 0, .w .uartCtse 0 ]

/-- The trace entries of a completed `SER_INIT` whose divisor is `d` (rule R162, vector CFG-1). -/
def serInitTrace (p : Params) (d : BitVec 16) : List Event :=
  serInitFrameTrace p ++
    [.wr .brr (d.setWidth 32), .w .uartUe 1, .w .uartTe 1, .w .uartRe 1, .w .uartRxneie 1]

/-- The field writes of `IND_INIT` by micro-step number (rule R122). -/
def indInitTable (p : Params) : List (Nat × Field × Word) :=
  [ (1, .rccGpioEn p.indPort, 1)
  , (2, .gpioMode p.indPort p.indPin[0], 0b01), (3, .gpioOtype p.indPort p.indPin[0], 0)
  , (4, .gpioMode p.indPort p.indPin[1], 0b01), (5, .gpioOtype p.indPort p.indPin[1], 0)
  , (6, .gpioMode p.indPort p.indPin[2], 0b01), (7, .gpioOtype p.indPort p.indPin[2], 0)
  , (8, .gpioMode p.indPort p.indPin[3], 0b01), (9, .gpioOtype p.indPort p.indPin[3], 0) ]

/-- The field writes of `SER_INIT` by micro-step number: the rows of rule R162's table but 13 and 14. -/
def serInitTable (p : Params) : List (Nat × Field × Word) :=
  [ (1, .rccUartEn, 1), (2, .rccGpioEn p.serPort, 1)
  , (3, .gpioAf p.serPort p.txPin, 7), (4, .gpioAf p.serPort p.rxPin, 7)
  , (5, .gpioMode p.serPort p.txPin, 0b10), (6, .gpioMode p.serPort p.rxPin, 0b10)
  , (7, .uartM, 0), (8, .uartStop, 0), (9, .uartPce, 0), (10, .uartOver8, 0), (11, .uartRtse, 0), (12, .uartCtse, 0)
  , (15, .uartUe, 1), (16, .uartTe, 1), (17, .uartRe, 1), (18, .uartRxneie, 1) ]

/-- How many micro-steps a command takes at most (rule R286). -/
def stepBound : Instr → Nat
  | .indInit => 9
  | .indOn _ => 1
  | .indOff _ => 1
  | .serInit _ => 18
  | .serRead => 2
  | .serWrite _ => 2

/-- Caller `c` of program `prog` next takes line `n`: from its label counter on, labels stand before it, and labels take no step (rule R102). -/
def Caller.Reaches (c : Caller) (prog : List HarnessLine) (n : Nat) : Prop :=
  c.lc ≤ n ∧ ∀ m, c.lc ≤ m → m < n → ∃ l, prog[m]? = some (.label l)

/-- The responses a command may end with (rule R98). -/
def mayRespond : Instr → Response → Prop
  | .indInit, r | .indOn _, r | .indOff _, r | .serInit _, r => r = .ok
  | .serRead, r => r = .notReady ∨ ∃ b, r = .data b
  | .serWrite _, r => r = .ok ∨ r = .notReady

/-- What a bus transaction recorded in the trace does to the peripheral fields (rules R33, R63 to R68). -/
def Event.Explains (e : Event) (a b : Periph) : Prop :=
  match e with
  | .w f v => b = a.set f v
  | .wr (.bsrr p) x => b = a.modifyGpio p fun g => { g with odr := bsrrEffect g.odr x }
  | .wr .brr x => b = a.set .uartBrr x
  | .wr .dr x => b = { a with uart := { a.uart with tdr := wordByte x, txe := false, tdrOpen := !a.uart.txe } }
  | .rd .sr _ => b = a
  | .rd .dr x =>
    b = { a with uart := { a.uart with rxne := false, ore := b.uart.ore, fe := b.uart.fe, pe := b.uart.pe } } ∧
      (b.uart.ore = true → a.uart.ore = true) ∧ (b.uart.fe = true → a.uart.fe = true) ∧
      (b.uart.pe = true → a.uart.pe = true) ∧ (a.uart.rdrOpen = false → wordByte x = a.uart.rdr)
  | .wr .sr _ | .wr (.word _) _ | .rd .brr _ | .rd (.bsrr _) _ | .rd (.word _) _ => False

/-- The table of rule R46. For the two holding registers, which hold no value: what a read of one gives, and what a `TX_LOAD` of the
other takes, is a draw. A pin the platform reserves is excepted from the mode row. The callers' harness state is as rule R27 says. -/
def State.AtReset (s : State) : Prop :=
  s.indCfg = false ∧ s.serCfg = .unconfigured ∧ s.seq = none ∧ s.inflight = [] ∧ s.fault = none ∧ s.faultInfo = none ∧
  s.trace = [] ∧ (∀ p : Port, s.per.rcc.gpioEn[p] = false) ∧ s.per.rcc.uartEn = false ∧
  (∀ p : Port, ∀ i : Pin, ((p, i) ∉ s.cfg.reservedPins → s.per.gpio[p].mode[i] = .inp) ∧ s.per.gpio[p].otype[i] = .pp ∧
    s.per.gpio[p].odr.getLsbD i.val = false ∧ s.per.gpio[p].af[i] = 0) ∧
  s.per.uart.ue = false ∧ s.per.uart.te = false ∧ s.per.uart.re = false ∧ s.per.uart.rxneie = false ∧
  s.per.uart.m = false ∧ s.per.uart.stop = 0 ∧ s.per.uart.pce = false ∧ s.per.uart.over8 = false ∧
  s.per.uart.rtse = false ∧ s.per.uart.ctse = false ∧ s.per.uart.brr = 0 ∧ s.per.uart.rxne = false ∧
  s.per.uart.txe = true ∧ s.per.uart.ore = false ∧ s.per.uart.fe = false ∧ s.per.uart.pe = false ∧
  (∀ drawn, drByte s.per.uart drawn = drawn.extractLsb' 0 8) ∧ s.txByte = (freeWord s.draws).extractLsb' 0 8 ∧
  s.txShift = none ∧ s.wireTx = [] ∧
  ∀ c ∈ s.callers, c.last = none ∧ c.latch = none ∧ c.lc = 0 ∧ c.status = .running

/-! ## The invariant -/

/-- At most one command is in flight, and it fits the sequencer, the flag it sampled, the clocks and enables it has set and the
divisor it has latched (rules R24, R25, R72, R152, R210, R245). -/
def State.activityOk (s : State) : Prop :=
  match s.inflight with
  | [] => s.seq = none
  | [f] =>
    f.caller < s.cfg.nCallers ∧
    match f.cmd with
    | .serRead => f.phase = .statusSampled true ∧ s.seq = none ∧ s.serCfg = .configured ∧ s.per.uart.rxne = true
    | .serWrite _ => f.phase = .statusSampled true ∧ s.seq = none ∧ s.serCfg = .configured ∧ s.per.uart.txe = true
    | .indInit =>
      f.phase = .configuring ∧ s.per.rcc.gpioEn[s.cfg.indPort] = true ∧
        ∃ n, 1 ≤ n ∧ n ≤ 8 ∧ s.seq = some { caller := f.caller, cmd := .indInit, step := n, d := none }
    | .serInit baud =>
      f.phase = .configuring ∧ s.per.rcc.uartEn = true ∧
        ∃ n d, 1 ≤ n ∧ n ≤ 17 ∧ s.seq = some { caller := f.caller, cmd := .serInit, step := n, d := d } ∧
          (2 ≤ n → s.per.rcc.gpioEn[s.cfg.serPort] = true) ∧ (n ≤ 12 → d = none) ∧
          (13 ≤ n → ∃ D, d = some D ∧ brrCalc s.cfg.tieRule s.cfg.pclkHz baud = .ok D) ∧
          (15 ≤ n → s.per.uart.ue = true) ∧ (16 ≤ n → s.per.uart.te = true) ∧ (17 ≤ n → s.per.uart.re = true)
    | .indOn _ => False
    | .indOff _ => False
  | _ :: _ :: _ => False

/-- What a completed init leaves enabled stays enabled (rules R29, R35, R72, R220, R257). -/
def State.configuredOk (s : State) : Prop :=
  (s.indCfg = true → s.per.rcc.gpioEn[s.cfg.indPort] = true) ∧
  (s.serCfg = .configured →
    s.per.rcc.uartEn = true ∧ s.per.rcc.gpioEn[s.cfg.serPort] = true ∧
    s.per.uart.ue = true ∧ s.per.uart.te = true ∧ s.per.uart.re = true ∧ s.per.uart.rxneie = true) ∧
  (s.txShift ≠ none → s.per.txActive = true)

/-- A received byte is never open, a byte waiting for the shift register is never open, and the byte store has its canonical
form (rules R272, R66; logs 4, 5, 9). -/
def Periph.sound (per : Periph) : Prop :=
  (per.uart.rxne = true → per.uart.rdrOpen = false) ∧ (per.uart.txe = false → per.uart.tdrOpen = false) ∧
    Memory.wf per.other = true

/-- A fault and its record come together, the record names an existing caller, and its step is 13 for the two divisor faults and 0 for
every other cause (rules R47, R241, R243). -/
def State.faultOk (s : State) : Prop :=
  match s.fault, s.faultInfo with
  | none, none => True
  | some c, some r => r.caller < s.cfg.nCallers ∧ r.step = (if c = .baudOverflow ∨ c = .baudZero then 13 else 0)
  | _, _ => False

/-- There are `N_CALLERS` callers, and every harness program branches only to labels it defines (rules R11, R103). -/
def State.callersOk (s : State) : Prop :=
  s.callers.length = s.cfg.nCallers ∧ ∀ c ∈ s.callers, ∀ prog, c.prog = some prog → programOk prog = true

/-- The invariant of the machine. -/
structure State.Inv (s : State) : Prop where
  activity   : s.activityOk
  configured : s.configuredOk
  sound      : s.per.sound
  resetSound : s.cfg.resetPeriph.sound
  faultRecord : s.faultOk
  harness    : s.callersOk

/-- The order of the enables on the UART: with the peripheral enabled the frame fields hold their values, and no enable of the
source's step 5 is set before the ones ahead of it (rules R165, R278). -/
def Periph.enableOk (per : Periph) : Prop :=
  (per.uart.ue = true → per.uart.m = false ∧ per.uart.stop = 0 ∧ per.uart.pce = false ∧ per.uart.over8 = false ∧
    per.uart.rtse = false ∧ per.uart.ctse = false) ∧
  (per.uart.te = true → per.uart.ue = true) ∧ (per.uart.re = true → per.uart.te = true) ∧
  (per.uart.rxneie = true → per.uart.re = true)

/-- The order of the enables, with what a `SER_INIT` in flight has written so far (rules R162, R165, R278). -/
structure State.EnableOk (s : State) : Prop where
  now   : s.per.enableOk
  reset : s.cfg.resetPeriph.enableOk
  soFar : ∀ q, s.seq = some q → q.cmd = .serInit →
    (7 ≤ q.step → s.per.uart.m = false) ∧ (8 ≤ q.step → s.per.uart.stop = 0) ∧ (9 ≤ q.step → s.per.uart.pce = false) ∧
    (10 ≤ q.step → s.per.uart.over8 = false) ∧ (11 ≤ q.step → s.per.uart.rtse = false) ∧
    (12 ≤ q.step → s.per.uart.ctse = false) ∧ (14 ≤ q.step → q.d = some s.per.uart.brr)

end Sys2Proof.Machine
end

