-- ==== Sys2Proof/Certificates/Slice0/Obligations.lean ====
section
/-! DEFINITION. The statements for the provers: the numbered rules of the spec that say what a command, an agent or the machine does.
Each docstring cites the rules. -/

open Sys2Proof Sys2Proof.Machine Sys2Proof.Config

/-! ## Encoding -/

/-- The encoding examples and the response words of rule R108, by the assembler, the encoder and the decoder. -/
def Obligations.EncodingExamples : Prop :=
  (Source.indInit.word = some 0x1000000000000000 ∧ (Source.indOn (.num 2)).word = some 0x2000000000000002 ∧
    (Source.indOff (.num 3)).word = some 0x3000000000000003 ∧ (Source.serInit (.num 9600)).word = some 0x4000000000002580 ∧
    (Source.serInit (.num 115200)).word = some 0x400000000001C200 ∧ Source.serRead.word = some 0x5000000000000000 ∧
    (Source.serWrite (.chr 'A')).word = some 0x6000000000000041) ∧
  (encode .indInit = 0x1000000000000000 ∧ encode (.indOn 2) = 0x2000000000000002 ∧
    encode (.indOff 3) = 0x3000000000000003 ∧ encode (.serInit 9600) = 0x4000000000002580 ∧
    encode (.serInit 115200) = 0x400000000001C200 ∧ encode .serRead = 0x5000000000000000 ∧
    encode (.serWrite 0x41) = 0x6000000000000041) ∧
  (decode 0x1000000000000000 = .cmd .indInit ∧ decode 0x2000000000000002 = .cmd (.indOn 2) ∧
    decode 0x3000000000000003 = .cmd (.indOff 3) ∧ decode 0x4000000000002580 = .cmd (.serInit 9600) ∧
    decode 0x400000000001C200 = .cmd (.serInit 115200) ∧ decode 0x5000000000000000 = .cmd .serRead ∧
    decode 0x6000000000000041 = .cmd (.serWrite 0x41)) ∧
  Response.ok.word = 0x0000 ∧ (Response.data 0x41).word = 0x0141 ∧ Response.notReady.word = 0x0200

/-- The assembler, for every immediate: the command words of rule R100's table where the immediate's value fits its field, an assembly error
where it does not (rule R101), a line above 3 among those that fit. That a character above 0x7F, which has no ASCII code, is an assembly error
is the model's choice (log 27). The pseudo-instructions expand in place to their loop, with a label that no other line of the program names
(rules R105, R106). -/
def Obligations.AssemblerWords : Prop :=
  (∀ (x : Imm) (v : Nat), (x = .num v ∨ ∃ c : Char, c.toNat < 128 ∧ x = .chr c ∧ v = c.toNat) →
    (v < 2 ^ 32 → (Source.indOn x).word = some (0x2000000000000000 ||| BitVec.ofNat 64 v) ∧
      (Source.indOff x).word = some (0x3000000000000000 ||| BitVec.ofNat 64 v) ∧
      (Source.serInit x).word = some (0x4000000000000000 ||| BitVec.ofNat 64 v)) ∧
    (2 ^ 32 ≤ v → (Source.indOn x).word = none ∧ (Source.indOff x).word = none ∧ (Source.serInit x).word = none) ∧
    (v < 2 ^ 8 → (Source.serWrite x).word = some (0x6000000000000000 ||| BitVec.ofNat 64 v)) ∧
    (2 ^ 8 ≤ v → (Source.serWrite x).word = none)) ∧
  (∀ c : Char, 128 ≤ c.toNat → (Source.indOn (.chr c)).word = none ∧ (Source.indOff (.chr c)).word = none ∧
    (Source.serInit (.chr c)).word = none ∧ (Source.serWrite (.chr c)).word = none) ∧
  (∀ (pre post : List Source) (x : Source) (prog : List HarnessLine) (line : HarnessLine),
    assemble (pre ++ x :: post) = some prog →
    ((x = .getc ∧ line = .cmd .serRead) ∨ (∃ y b, x = .putc y ∧ y.byte = some b ∧ line = .cmd (.serWrite b)) ∨
      (x = .putcB ∧ line = .serWriteB)) →
    ∃ l a b m n, prog = a ++ [.label l, line, .bnr l] ++ b ∧ expandAll m pre = some a ∧ expandAll n post = some b ∧
      labelTarget prog l = some (a.length + 1) ∧ ∀ z ∈ a ++ b, z ≠ .label l ∧ z ≠ .bnr l ∧ z ≠ .br l) ∧
  ∀ (pre post : List Source) (y : Imm), y.byte = none → assemble (pre ++ .putc y :: post) = none

/-- Decoding inverts encoding for every well-formed command, every operand at every value (rules R91 to R93, R96). -/
def Obligations.DecodeInvertsEncode : Prop :=
  ∀ i : Instr, i.wellFormed = true → decode (encode i) = .cmd i ∧ decodeTableWord 64 (encode i).toNat = some i

/-- Encoding inverts decoding: a legal word has one meaning and no bit of it is dropped (rules R91, R92, R96). -/
def Obligations.EncodeInvertsDecode : Prop :=
  ∀ (w : CmdWord) (i : Instr), decode w = .cmd i → encode i = w

/-- Which words are illegal, and that each of them faults `ILLEGAL_COMMAND` (rules R94, R95). -/
def Obligations.IllegalWordsFault : Prop :=
  (∀ w : CmdWord, (∃ why, decode w = .illegal why) ↔
    (w.extractLsb' 32 28 ≠ 0 ∨
      ((w.extractLsb' 60 4 = 0x1 ∨ w.extractLsb' 60 4 = 0x5) ∧ w.extractLsb' 0 32 ≠ 0) ∨
      (w.extractLsb' 60 4 = 0x6 ∧ w.extractLsb' 8 24 ≠ 0) ∨
      w.extractLsb' 60 4 = 0x0 ∨ 0x7 ≤ (w.extractLsb' 60 4).toNat)) ∧
  ∀ (w : CmdWord) (why : IllegalWord) (s : State), decode w = .illegal why → s.fault = none →
    issueWord w s = .next { s with fault := some .illegalCommand, faultInfo := some ⟨s.cur, w, 0⟩ }

/-! ## The step -/

/-- A step whose agent is a caller writing a legal command word, the block with a command in flight, or a harness program at a
command line, labels ahead of it passed, is `exec` of that command; `withFetchWord` places such a step (rules R18, R90, R102). -/
def Obligations.StepRunsDecodedInstruction : Prop :=
  (∀ (s : State) (k : Nat) (w : CmdWord) (i : Instr) (rest : List AgentStep),
    s.schedule = .issue k w :: rest → s.mayIssue k = true → s.fault = none → decode w = .cmd i →
      step s = exec i { s with schedule := rest, cur := k }) ∧
  (∀ (s : State) (k : Nat) (f : Flight) (rest : List AgentStep),
    s.schedule = .block k :: rest → s.flightOf k = some f → step s = exec f.cmd { s with schedule := rest, cur := k }) ∧
  (∀ (s : State) (k : Nat) (i : Instr) (rest : List AgentStep) (c : Caller) (prog : List HarnessLine),
    s.schedule = .harness k :: rest → s.callers[k]? = some c → c.prog = some prog → c.status = .running →
    s.flightOf k = none → s.fault = none → ∀ n, c.Reaches prog n → prog[n]? = some (.cmd i) →
      step s = exec i { s with schedule := rest, cur := k, callers := s.callers.set k { c with lc := n } }) ∧
  (∀ (s : State) (nbits w : Nat) (i : Instr), 0 < s.cfg.nCallers → s.fault = none → decodeTableWord nbits w = some i →
    step (s.withFetchWord nbits w) = exec i { s.withFetchWord nbits w with schedule := s.schedule, cur := 0 })

/-- The parameters, the callers' programs and their number never change (rules R8 to R11, R102). -/
def Obligations.ParametersNeverChange : Prop :=
  ∀ s t : State, step s = .next t → t.cfg = s.cfg ∧ t.callers.map Caller.prog = s.callers.map Caller.prog

/-- The register bits no abstract field names are changed by no step but reset, which sets them to `RESET_PERIPH`; as bytes: every
address reads as before (rule R41). -/
def Obligations.OtherRegisterBitsKept : Prop :=
  ∀ s t : State, step s = .next t →
    (s.pick.1 ≠ .reset → t.per.other = s.per.other ∧
      ∀ a, Memory.read t.per.other a = Memory.read s.per.other a) ∧
    (s.pick.1 = .reset → t.per.other = s.cfg.resetPeriph.other)

/-- The byte store keeps its canonical form under a word write, the word written is read back, little-endian, and every other byte
reads as before; a whole-register write to the machine keeps the form too (rules R41, R62). -/
def Obligations.ByteStoreWordWrite : Prop :=
  (∀ (m : List Host.Cell) (a : Nat) (w : Word), Memory.wf m = true →
    Memory.wf (Memory.write32 m a w) = true ∧ Memory.read32 (Memory.write32 m a w) a = w ∧
    ∀ b, (b < a ∨ a + 3 < b) → Memory.read (Memory.write32 m a w) b = Memory.read m b) ∧
  ∀ (s t : State) (addr w : Word), Memory.wf s.per.other = true → memWrite addr w s = .next t →
    Memory.wf t.per.other = true

/-! ## Invariants -/

/-- The invariant and the enable order hold at reset. -/
def Obligations.InvariantsHoldAtReset : Prop :=
  State.reset.Inv ∧ State.reset.EnableOk

/-- Every step of every agent keeps the invariant: one command in flight at most and it fits the sequencer, the sampled flag, the
clocks and the latched divisor; what an init enabled stays enabled; no received or waiting byte is open; the byte store is
canonical; a fault and its record agree (rules R24, R25, R47, R72, R152, R210, R243, R245). -/
def Obligations.StepKeepsInvariant : Prop :=
  ∀ s t : State, s.Inv → step s = .next t → t.Inv

/-- From a state of the invariant no step stops: none is refused (no access to an unclocked peripheral, rule R72) and none
faults (rules R24, R25, R76). -/
def Obligations.StepNeverStops : Prop :=
  ∀ s : State, s.Inv → ∃ t, step s = .next t

/-- The enable order is kept by every step: with `ue` set the frame fields hold their values, and `te`, `re`, `rxneie` are set only
after the enable ahead of them (rules R165, R278). -/
def Obligations.StepKeepsEnableOrder : Prop :=
  ∀ s t : State, s.Inv → s.EnableOk → step s = .next t → t.EnableOk

/-- Every command ends, with a response or with a fault, within its bound of micro-steps: 9, 1, 1, 18, 2, 2 (rule R286). -/
def Obligations.CommandsEndWithinBound : Prop :=
  ∀ (s : State) (i : Instr), s.Inv → s.cur < s.cfg.nCallers → s.Free i →
    ∃ n t, 1 ≤ n ∧ n ≤ stepBound i ∧ runCommand n i s = .next t ∧
      (t.fault ≠ none ∨
        (t.flightOf s.cur = none ∧ ∃ r, mayRespond i r ∧ t.callers = s.callers.modify s.cur fun c => c.receive r))

/-- A step of a caller, of the block or of a harness makes at most one bus transaction, and the one it records explains every change
of the peripheral fields (rules R7, R13, R28, R45). -/
def Obligations.TraceExplainsEveryStep : Prop :=
  ∀ s t : State, step s = .next t →
    (∃ k, (∃ w, s.pick.1 = .issue k w) ∨ s.pick.1 = .block k ∨ s.pick.1 = .harness k) →
      (t.trace = s.trace ∧ t.per = s.per) ∨ ∃ e, t.trace = s.trace ++ [e] ∧ e.Explains s.per t.per

/-- Clock enables are set by the inits and cleared by nothing but reset (rules R29, R257). -/
def Obligations.ClocksStayOn : Prop :=
  ∀ s t : State, step s = .next t → s.pick.1 ≠ .reset →
    (∀ p : Port, s.per.rcc.gpioEn[p] = true → t.per.rcc.gpioEn[p] = true) ∧
    (s.per.rcc.uartEn = true → t.per.rcc.uartEn = true)

/-- Only a `SER_READ` in flight clears `rxne`, only a `SER_WRITE` in flight clears `txe`, reset apart (rules R38, R210). -/
def Obligations.FlagsClearedOnlyByDataAccess : Prop :=
  ∀ s t : State, step s = .next t → s.pick.1 ≠ .reset →
    (s.per.uart.rxne = true → t.per.uart.rxne = false →
      ∃ k f, s.flightOf k = some f ∧ f.cmd = .serRead ∧ s.pick.1 = .block k) ∧
    (s.per.uart.txe = true → t.per.uart.txe = false →
      ∃ k f b, s.flightOf k = some f ∧ f.cmd = .serWrite b ∧ s.pick.1 = .block k)

/-! ## Reset -/

/-- Reset: `State.reset` is the table of rule R46, no pin parameter being a reserved pin; the reset event takes every machine whose
`RESET_PERIPH` is the table's to it, block, peripherals and line side together, whatever its state, and any other machine's
peripherals to its `RESET_PERIPH`; the callers' last responses, latches and label counters are as rule R27 says, their programs stay; no
command resets: none shortens the trace (rules R27, R46, R270, R271). The model's own: what a `TX_LOAD` of the unset `tdr` takes is a draw (log
4), reset is an agent step of the schedule (log 1), the reset event restarts the callers and keeps their programs and the schedule (log 17). -/
def Obligations.ResetGivesTable : Prop :=
  State.reset.AtReset ∧ State.reset.cfg.pinsFree = true ∧
  (∀ s : State, s.cfg.resetPeriph = Periph.resetValue → s.resetEvent.AtReset) ∧
  (∀ s : State, s.resetEvent.per = s.cfg.resetPeriph ∧
    s.resetEvent.callers.map Caller.prog = s.callers.map Caller.prog ∧
    (∀ c ∈ s.resetEvent.callers, c.last = none ∧ c.latch = none ∧ c.lc = 0 ∧ c.status = .running) ∧
    ∀ rest, s.schedule = .reset :: rest → step s = .next { s.resetEvent with schedule := rest }) ∧
  ∀ (s t : State) (i : Instr), exec i s = .next t → s.trace <+: t.trace

/-! ## Admission and faults -/

/-- The checks of admission in their order, for a caller with nothing in flight; the first that applies decides; where none does,
micro-step 1 is performed: one bus transaction, no fault. The only later fault is `SER_INIT`'s at step 13 (rule R244). -/
def Obligations.AdmissionChecksInOrder : Prop :=
  (∀ (s : State) (w : CmdWord), s.flightOf s.cur = none →
    let faulted (c : FaultCause) : State := { s with fault := some c, faultInfo := some ⟨s.cur, w, 0⟩ }
    (s.fault ≠ none → issueWord w s = .next s) ∧
    (s.fault = none → (∃ why, decode w = .illegal why) → issueWord w s = .next (faulted .illegalCommand)) ∧
    ∀ i, s.fault = none → decode w = .cmd i →
      (s.conflict s.cur i = true → issueWord w s = .next (faulted .concurrentAccess)) ∧
      (s.conflict s.cur i = false →
        (∀ line, i = .indOn line ∨ i = .indOff line →
          (s.indCfg = false → issueWord w s = .next (faulted .indNotConfigured)) ∧
          (s.indCfg = true → line.toNat > 3 → issueWord w s = .next (faulted .badLine))) ∧
        ((i = .serRead ∨ ∃ b, i = .serWrite b) → s.serCfg ≠ .configured →
          issueWord w s = .next (faulted .serNotConfigured)) ∧
        ((∀ line, i = .indOn line ∨ i = .indOff line → s.indCfg = true ∧ line.toNat ≤ 3) →
          ((i = .serRead ∨ ∃ b, i = .serWrite b) → s.serCfg = .configured) →
          ∀ t, issueWord w s = .next t → t.fault = none ∧ ∃ e, t.trace = s.trace ++ [e]))) ∧
  ∀ (s t : State) (i : Instr) (f : Flight), s.fault = none → s.flightOf s.cur = some f → exec i s = .next t →
    t.fault ≠ none → (∃ baud, i = .serInit baud) ∧ ∃ q, s.seq = some q ∧ q.step = 12 ∧
      t.faultInfo = some ⟨s.cur, encode i, 13⟩

/-- The conflict rule: (a), (b), (c), that a conflict raises `CONCURRENT_ACCESS`, and that a caller never conflicts with itself (rule
R245). -/
def Obligations.ConflictRule : Prop :=
  (∀ (s : State) (k : Nat) (cmd : Instr), s.conflict k cmd = true ↔
    ∃ f ∈ s.inflight, f.caller ≠ k ∧
      (f.phase = .configuring ∨ (cmd = .indInit ∨ ∃ b, cmd = .serInit b) ∨
        ((cmd = .serRead ∨ ∃ b, cmd = .serWrite b) ∧ (f.cmd = .serRead ∨ ∃ b, f.cmd = .serWrite b)))) ∧
  (∀ (s : State) (cmd : Instr), s.fault = none → s.flightOf s.cur = none → s.conflict s.cur cmd = true →
    exec cmd s = .next { s with fault := some .concurrentAccess, faultInfo := some ⟨s.cur, encode cmd, 0⟩ }) ∧
  ∀ (s : State) (k : Nat) (cmd : Instr), (∀ f ∈ s.inflight, f.caller = k) → s.conflict k cmd = false

/-- Raising a fault: `fault`, `fault_info` and `FAULT_OUT` are set by the table of rule R243, nothing else changes, so there is no response, and
no later micro-step runs; `FAULT_OUT` is 0 while there is no fault and the cause's code once there is one (rules R99, R241, R243). -/
def Obligations.FaultTable : Prop :=
  (∀ s : State, s.faultOut = match s.fault with
    | none => 0
    | some .baudOverflow => 1
    | some .baudZero => 2
    | some .serNotConfigured => 3
    | some .indNotConfigured => 4
    | some .badLine => 5
    | some .illegalCommand => 6
    | some .concurrentAccess => 7) ∧
  (∀ (s t : State) (i : Instr) (c : FaultCause), s.fault = none → exec i s = .next t → t.fault = some c →
    ∃ n, t = { s with fault := some c, faultInfo := some ⟨s.cur, encode i, n⟩ } ∧ (∀ j, exec j t = .next t) ∧
      ((c = .baudOverflow ∧ t.faultOut = 1 ∧ n = 13 ∧ ∃ baud, i = .serInit baud ∧ baud ≠ 0 ∧
          roundDiv s.cfg.tieRule s.cfg.pclkHz.toNat baud.toNat > 0xFFFF) ∨
        (c = .baudZero ∧ t.faultOut = 2 ∧ n = 13 ∧ i = .serInit 0) ∨
        (c = .serNotConfigured ∧ t.faultOut = 3 ∧ n = 0 ∧ (i = .serRead ∨ ∃ b, i = .serWrite b) ∧
          s.serCfg ≠ .configured) ∨
        (c = .indNotConfigured ∧ t.faultOut = 4 ∧ n = 0 ∧ (∃ l, i = .indOn l ∨ i = .indOff l) ∧ s.indCfg = false) ∨
        (c = .badLine ∧ t.faultOut = 5 ∧ n = 0 ∧ ∃ l, (i = .indOn l ∨ i = .indOff l) ∧ l.toNat > 3) ∨
        (c = .concurrentAccess ∧ t.faultOut = 7 ∧ n = 0 ∧ s.conflict s.cur i = true))) ∧
  ∀ (s : State) (w : CmdWord) (why : IllegalWord), s.fault = none → decode w = .illegal why →
    ∃ t, issueWord w s = .next t ∧ t.faultOut = 6 ∧
      t = { s with fault := some .illegalCommand, faultInfo := some ⟨s.cur, w, 0⟩ }

/-- A fault is sticky: no command is admitted and no micro-step runs, the line side keeps its steps, only reset clears it, and a faulted
state is no end of a run (rules R242, R248). -/
def Obligations.FaultIsSticky : Prop :=
  (∀ (s : State), s.fault ≠ none → (∀ i, exec i s = .next s) ∧ (∀ w, issueWord w s = .next s) ∧ ¬ s.Ended) ∧
  (∀ (s t : State), s.fault ≠ none → step s = .next t → s.pick.1 ≠ .reset →
    t.fault = s.fault ∧ t.faultInfo = s.faultInfo ∧ t.trace = s.trace ∧ t.inflight = s.inflight ∧ t.seq = s.seq ∧
    t.indCfg = s.indCfg ∧ t.serCfg = s.serCfg ∧ t.per.rcc = s.per.rcc ∧ t.per.gpio = s.per.gpio ∧
    t.callers.map Caller.last = s.callers.map Caller.last) ∧
  (∀ (s : State) (c : Option FaultCause) (r : Option FaultInfo),
    rxArrive { s with fault := c, faultInfo := r } = { rxArrive s with fault := c, faultInfo := r } ∧
    txLoad { s with fault := c, faultInfo := r } = { txLoad s with fault := c, faultInfo := r } ∧
    txDone { s with fault := c, faultInfo := r } = { txDone s with fault := c, faultInfo := r }) ∧
  ∀ s : State, s.resetEvent.fault = none

/-- The response word's bits, the responses each command may end with, and what a caller does on receiving one: it becomes the last response,
`DATA` fills the byte latch, and the label counter of a harness program moves to the next line (rules R27, R98, R102, R104). -/
def Obligations.ResponsesOfCommands : Prop :=
  (∀ r : Response, r.word.extractLsb' 8 2 = (match r with | .ok => 0b00 | .data _ => 0b01 | .notReady => 0b10) ∧
    r.word.extractLsb' 0 8 = (match r with | .ok => 0 | .data b => b | .notReady => 0) ∧
    r.word.extractLsb' 10 6 = 0) ∧
  (∀ (c : Caller) (r : Response),
    (c.receive r).last = some r ∧ (c.receive r).latch = (match r with | .data b => some b | .ok | .notReady => c.latch) ∧
    (c.prog ≠ none → (c.receive r).lc = c.lc + 1) ∧ (c.receive r).prog = c.prog ∧ (c.receive r).status = c.status) ∧
  ∀ (s t : State) (i : Instr), exec i s = .next t →
    t.callers = s.callers ∨ ∃ r, mayRespond i r ∧ t.callers = s.callers.modify s.cur fun c => c.receive r

/-! ## Bus transactions -/

/-- `FieldWrite`: the field takes the value, every other field keeps its own, nothing else changes (rules R63, R70). -/
def Obligations.FieldWriteChangesOneField : Prop :=
  ∀ (f : Field) (v : Word) (s : State), f.writable = true → s.per.clocked f = true →
    ∃ t, fieldWrite f v s = .next t ∧ t.per.get f = (v.extractLsb' 0 f.width).setWidth 32 ∧
      (∀ g, g ≠ f → t.per.get g = s.per.get g) ∧
      t = { s with
        trace := s.trace ++ [.w f v]
        per := { t.per with
          other := s.per.other
          uart := { t.per.uart with
            rdr := s.per.uart.rdr, tdr := s.per.uart.tdr, rdrOpen := s.per.uart.rdrOpen, tdrOpen := s.per.uart.tdrOpen } } }

/-- The set/reset register: for every pin the set bit wins, then the clear bit, else the level stays; in one transaction, and nothing
else changes; a read gives 0; writing the same word twice is writing it once (rules R33, R69, R71). -/
def Obligations.SetResetRegisterWrite : Prop :=
  (∀ (s : State) (p : Port) (x : Word), s.per.rcc.gpioEn[p] = true →
    ∃ odr : BitVec 16,
      (∀ i : Pin, odr.getLsbD i.val =
        if x.getLsbD i.val then true else if x.getLsbD (i.val + 16) then false
        else s.per.gpio[p].odr.getLsbD i.val) ∧
      busWrite (.bsrr p) x s = .next { s with
        trace := s.trace ++ [.wr (.bsrr p) x]
        per := { s.per with gpio := s.per.gpio.set p.val { s.per.gpio[p] with odr := odr } p.isLt } } ∧
      busRead (.bsrr p) s = .next (0, { s with trace := s.trace ++ [.rd (.bsrr p) 0] })) ∧
  ∀ (odr : BitVec 16) (x : Word), bsrrEffect (bsrrEffect odr x) x = bsrrEffect odr x

/-- The status read has no side effect, and its word holds the five flags at their places, the other bits being a draw (rule R68).
The premise on the layout is that the five flags stand at five different bits. -/
def Obligations.StatusReadCarriesFlags : Prop :=
  ∀ s : State, s.per.rcc.uartEn = true → s.cfg.layout.statusOk = true →
    ∃ x, busRead .sr s = .next (x, { s with draws := s.draws + 1, trace := s.trace ++ [.rd .sr x] }) ∧
      x.getLsbD s.cfg.layout.rxne.lo = s.per.uart.rxne ∧ x.getLsbD s.cfg.layout.txe.lo = s.per.uart.txe ∧
      x.getLsbD s.cfg.layout.ore.lo = s.per.uart.ore ∧ x.getLsbD s.cfg.layout.fe.lo = s.per.uart.fe ∧
      x.getLsbD s.cfg.layout.pe.lo = s.per.uart.pe ∧
      ∀ b, b ≠ s.cfg.layout.rxne.lo → b ≠ s.cfg.layout.txe.lo → b ≠ s.cfg.layout.ore.lo → b ≠ s.cfg.layout.fe.lo →
        b ≠ s.cfg.layout.pe.lo → x.getLsbD b = (freeWord s.draws).getLsbD b

/-- The data-register read: the byte of `rdr` in bits [7:0] (a draw where none has been received), the other bits a draw, `rxne`
cleared, each error flag kept or cleared (rules R64, R65, R67). -/
def Obligations.DataReadEffect : Prop :=
  ∀ s : State, s.per.rcc.uartEn = true →
    ∃ x u, busRead .dr s = .next (x, { s with
        per := { s.per with uart := u }, draws := s.draws + 4, trace := s.trace ++ [.rd .dr x] }) ∧
      x.extractLsb' 8 24 = (freeWord s.draws).extractLsb' 8 24 ∧
      (s.per.uart.rdrOpen = false → x.extractLsb' 0 8 = s.per.uart.rdr) ∧
      (s.per.uart.rdrOpen = true → x.extractLsb' 0 8 = (freeWord s.draws).extractLsb' 0 8) ∧
      u = { s.per.uart with rxne := false, ore := u.ore, fe := u.fe, pe := u.pe } ∧
      (u.ore = s.per.uart.ore ∨ u.ore = false) ∧ (u.fe = s.per.uart.fe ∨ u.fe = false) ∧
      (u.pe = s.per.uart.pe ∨ u.pe = false)

/-! ## The indicator line driver -/

/-- `IND_INIT` run to its end: nine field writes in order, the four pins push-pull outputs, `ind_cfg`, `OK`, nothing else changed (rule
R122). -/
def Obligations.IndInitCompletes : Prop :=
  encode .indInit = 0x1000000000000000 ∧ ∀ s : State, s.Free .indInit →
    runCommand 9 .indInit s = .next { s with
      indCfg := true
      seq := none
      trace := s.trace ++ indInitTrace s.cfg
      per := indInitPeriph s.cfg s.per
      callers := s.callers.modify s.cur fun c => c.receive .ok }

/-- Each micro-step of `IND_INIT` as one `exec`: the first, from admission; the middle ones; the last, which ends the command (rules
R24, R25, R122). -/
def Obligations.IndInitMicroSteps : Prop :=
  (∀ s : State, s.Free .indInit →
    exec .indInit s = .next { s with
      inflight := insertFlight ⟨s.cur, .indInit, .configuring⟩ s.inflight
      seq := some ⟨s.cur, .indInit, 1, none⟩
      trace := s.trace ++ [.w (.rccGpioEn s.cfg.indPort) 1]
      per := s.per.set (.rccGpioEn s.cfg.indPort) 1 }) ∧
  (∀ (s : State) (n : Nat) (d : Option (BitVec 16)) (f : Field) (v : Word),
    s.Flying .indInit .configuring → s.seq = some ⟨s.cur, .indInit, n, d⟩ → (n + 1, f, v) ∈ indInitTable s.cfg →
    s.per.clocked f = true →
    (n + 1 < 9 → exec .indInit s = .next { s with
      seq := some ⟨s.cur, .indInit, n + 1, d⟩
      trace := s.trace ++ [.w f v]
      per := s.per.set f v }) ∧
    (n + 1 = 9 → exec .indInit s = .next { s with
      indCfg := true
      seq := none
      inflight := s.inflight.filter fun g => g.caller != s.cur
      trace := s.trace ++ [.w f v]
      per := s.per.set f v
      callers := s.callers.modify s.cur fun c => c.receive .ok }))

/-- `IND_INIT` corner cases, of two runs to the end one after the other: it writes no output level, so every line shows the level its bit
already held; the repeat changes no field and writes its nine trace entries again; every alternate function, every pin that is no indicator
pin and every other port stay, and so the serial pins where the pins are apart (rule R123). -/
def Obligations.IndInitCornerCases : Prop :=
  ∀ s : State, s.Free .indInit → ∃ t u, runCommand 9 .indInit s = .next t ∧ runCommand 9 .indInit t = .next u ∧
    (t.indCfg = true ∧ u.indCfg = true ∧ u.per = t.per ∧ (indInitTrace s.cfg).length = 9 ∧
      t.trace = s.trace ++ indInitTrace s.cfg ∧ u.trace = t.trace ++ indInitTrace s.cfg) ∧
    (∀ q : Port, t.per.gpio[q].odr = s.per.gpio[q].odr ∧ t.per.gpio[q].af = s.per.gpio[q].af) ∧
    (∀ k : LineIdx, t.lineOn k = s.lineOn k ∧ t.per.gpio[s.cfg.indPort].mode[s.cfg.indPin[k]] = .out ∧
      t.per.gpio[s.cfg.indPort].otype[s.cfg.indPin[k]] = .pp) ∧
    (∀ i : Pin, (∀ k : LineIdx, s.cfg.indPin[k] ≠ i) →
      t.per.gpio[s.cfg.indPort].mode[i] = s.per.gpio[s.cfg.indPort].mode[i] ∧
      t.per.gpio[s.cfg.indPort].otype[i] = s.per.gpio[s.cfg.indPort].otype[i]) ∧
    (∀ q : Port, q ≠ s.cfg.indPort → t.per.gpio[q] = s.per.gpio[q]) ∧
    (s.cfg.pinsApart = true →
      t.per.gpio[s.cfg.serPort].mode[s.cfg.txPin] = s.per.gpio[s.cfg.serPort].mode[s.cfg.txPin] ∧
      t.per.gpio[s.cfg.serPort].mode[s.cfg.rxPin] = s.per.gpio[s.cfg.serPort].mode[s.cfg.rxPin])

/-- `IND_ON`: one write of the word with bit n alone, n the line's pin, `OK`, and nothing else changed (rule R127). -/
def Obligations.IndOnWritesSetBit : Prop :=
  (∀ line : BitVec 32, opOf (encode (.indOn line)) = 0x2 ∧ argOf (encode (.indOn line)) = line) ∧
  ∀ (s : State) (line : BitVec 32) (k : LineIdx), s.Free (.indOn line) → s.indCfg = true → line.toNat = k.val →
    s.per.rcc.gpioEn[s.cfg.indPort] = true →
    let n := s.cfg.indPin[k]
    exec (.indOn line) s = .next { s with
      trace := s.trace ++ [.wr (.bsrr s.cfg.indPort) (BitVec.twoPow 32 n.val)]
      per := s.per.modifyGpio s.cfg.indPort fun g => { g with odr := g.odr ||| BitVec.twoPow 16 n.val }
      callers := s.callers.modify s.cur fun c => c.receive .ok }

/-- `IND_OFF`: one write of the word with bit n + 16 alone, `OK`, and nothing else changed (rule R128). -/
def Obligations.IndOffWritesClearBit : Prop :=
  (∀ line : BitVec 32, opOf (encode (.indOff line)) = 0x3 ∧ argOf (encode (.indOff line)) = line) ∧
  ∀ (s : State) (line : BitVec 32) (k : LineIdx), s.Free (.indOff line) → s.indCfg = true → line.toNat = k.val →
    s.per.rcc.gpioEn[s.cfg.indPort] = true →
    let n := s.cfg.indPin[k]
    exec (.indOff line) s = .next { s with
      trace := s.trace ++ [.wr (.bsrr s.cfg.indPort) (BitVec.twoPow 32 (n.val + 16))]
      per := s.per.modifyGpio s.cfg.indPort fun g => { g with odr := g.odr &&& ~~~BitVec.twoPow 16 n.val }
      callers := s.callers.modify s.cur fun c => c.receive .ok }

/-- The lines are independent: after `IND_ON` the line is on, after `IND_OFF` it is off, and every other line is as it was (rules R120,
R121, R129). -/
def Obligations.LinesAreIndependent : Prop :=
  ∀ (s : State) (line : BitVec 32) (k j : LineIdx), s.cfg.linesDistinct = true → line.toNat = k.val → j ≠ k →
    s.indCfg = true → s.per.rcc.gpioEn[s.cfg.indPort] = true →
    (s.Free (.indOn line) → ∃ t, exec (.indOn line) s = .next t ∧ t.lineOn k = true ∧ t.lineOn j = s.lineOn j) ∧
    (s.Free (.indOff line) → ∃ t, exec (.indOff line) s = .next t ∧ t.lineOn k = false ∧ t.lineOn j = s.lineOn j)

/-- The checks of `IND_ON` and `IND_OFF`: not configured first, then the line (rule R126). -/
def Obligations.IndicatorChecks : Prop :=
  ∀ (s : State) (line : BitVec 32) (i : Instr), i = .indOn line ∨ i = .indOff line → s.Free i →
    (s.indCfg = false →
      exec i s = .next { s with fault := some .indNotConfigured, faultInfo := some ⟨s.cur, encode i, 0⟩ }) ∧
    (s.indCfg = true → line.toNat > 3 →
      exec i s = .next { s with fault := some .badLine, faultInfo := some ⟨s.cur, encode i, 0⟩ })

/-- The frame of `IND_INIT`, `IND_ON` and `IND_OFF`, on every path that gives a next state: the UART, its clock, the line side, the other
ports, every other pin and every byte of the store are unchanged; `IND_INIT` changes no output level and `IND_ON`, `IND_OFF` no pin's
mode or type. -/
def Obligations.IndicatorFrame : Prop :=
  ∀ (s t : State) (i : Instr), (i = .indInit ∨ ∃ l, i = .indOn l ∨ i = .indOff l) → exec i s = .next t →
    t = { s with
      indCfg := t.indCfg, seq := t.seq, inflight := t.inflight, fault := t.fault, faultInfo := t.faultInfo
      trace := t.trace, callers := t.callers
      per := { s.per with rcc := { s.per.rcc with gpioEn := t.per.rcc.gpioEn }, gpio := t.per.gpio } } ∧
    (∀ a, Memory.read t.per.other a = Memory.read s.per.other a) ∧
    (∀ q : Port, q ≠ s.cfg.indPort → t.per.rcc.gpioEn[q] = s.per.rcc.gpioEn[q] ∧ t.per.gpio[q] = s.per.gpio[q]) ∧
    t.per.gpio[s.cfg.indPort].af = s.per.gpio[s.cfg.indPort].af ∧
    (∀ k, k ≠ s.cur → t.callers[k]? = s.callers[k]?) ∧
    (i = .indInit → t.per.gpio[s.cfg.indPort].odr = s.per.gpio[s.cfg.indPort].odr ∧
      ∀ p : Pin, (∀ k : LineIdx, s.cfg.indPin[k] ≠ p) →
        t.per.gpio[s.cfg.indPort].mode[p] = s.per.gpio[s.cfg.indPort].mode[p] ∧
        t.per.gpio[s.cfg.indPort].otype[p] = s.per.gpio[s.cfg.indPort].otype[p]) ∧
    (i ≠ .indInit → t.indCfg = s.indCfg ∧ t.seq = s.seq ∧ t.inflight = s.inflight ∧ t.per.rcc = s.per.rcc ∧
      t.per.gpio[s.cfg.indPort].mode = s.per.gpio[s.cfg.indPort].mode ∧
      t.per.gpio[s.cfg.indPort].otype = s.per.gpio[s.cfg.indPort].otype)

/-! ## The divisor calculator -/

/-- Rounding: the quotient rounded to nearest, an exact half by `TIE_RULE`: up, down, or to even; the default is up (rule R142). -/
def Obligations.DivisorRoundsToNearest : Prop :=
  defaultParams.tieRule = .up ∧
  ∀ (rule : TieRule) (pclk baud : Nat), 0 < baud →
    let n := roundDiv rule pclk baud
    (2 * pclk ≤ (2 * n + 1) * baud ∧ 2 * n * baud ≤ 2 * pclk + baud) ∧
    ∀ q, 2 * pclk = (2 * q + 1) * baud →
      n = match rule with
        | .up => q + 1
        | .down => q
        | .even => if q % 2 = 0 then q else q + 1

/-- With ties up the divisor is `(pclk + baud div 2) div baud` (rule R144). -/
def Obligations.DivisorFormulaTiesUp : Prop :=
  ∀ pclk baud : Nat, 0 < baud → roundDiv .up pclk baud = (pclk + baud / 2) / baud

/-- The range check and the split: `brr_calc` is `Ok` exactly where the rounded value fits 16 bits, and then mantissa and fraction are
its upper 12 and lower 4 bits and together give it back; baud 0 is `BAUD_ZERO` (rules R143, R145). -/
def Obligations.DivisorRangeAndSplit : Prop :=
  (∀ (rule : TieRule) (pclk : BitVec 32), brrCalc rule pclk 0 = .err .baudZero) ∧
  ∀ (rule : TieRule) (pclk baud : BitVec 32), baud ≠ 0 →
    let n := roundDiv rule pclk.toNat baud.toNat
    (n > 0xFFFF → brrCalc rule pclk baud = .err .baudOverflow) ∧
    (n ≤ 0xFFFF → ∃ D : BitVec 16, brrCalc rule pclk baud = .ok D ∧ D.toNat = n ∧
      (mantissa D).toNat = n >>> 4 ∧ (fraction D).toNat = n &&& 0xF ∧
      (mantissa D).toNat * 16 + (fraction D).toNat = n ∧ (D.setWidth 32 : Word).toNat = n)

/-- The overflow boundary under each tie rule, and for 42 MHz the smallest baud rate that fits (rule R149). -/
def Obligations.DivisorOverflowBoundary : Prop :=
  (∀ pclk baud : BitVec 32, baud ≠ 0 →
    ((∃ D, brrCalc .up pclk baud = .ok D) ↔ 2 * pclk.toNat < 131071 * baud.toNat) ∧
    ((∃ D, brrCalc .down pclk baud = .ok D) ↔ 2 * pclk.toNat ≤ 131071 * baud.toNat) ∧
    ((∃ D, brrCalc .even pclk baud = .ok D) ↔ 2 * pclk.toNat < 131071 * baud.toNat)) ∧
  brrCalc .up 42000000 641 = .ok 0xFFF3 ∧ mantissa 0xFFF3 = 4095 ∧ fraction 0xFFF3 = 3 ∧
  roundDiv .up 42000000 640 = 65625 ∧
  ∀ baud : BitVec 32, (∃ D, brrCalc .up 42000000 baud = .ok D) → 641 ≤ baud.toNat

/-- With ties up `D = 0` exactly where `2 * pclk < baud`; every divisor below 16 is accepted (rule R148). -/
def Obligations.SmallDivisorsAccepted : Prop :=
  (∀ pclk baud : BitVec 32, baud ≠ 0 → (brrCalc .up pclk baud = .ok 0 ↔ 2 * pclk.toNat < baud.toNat)) ∧
  ∀ (rule : TieRule) (pclk baud : BitVec 32), baud ≠ 0 → roundDiv rule pclk.toNat baud.toNat < 16 →
    ∃ D : BitVec 16, brrCalc rule pclk baud = .ok D ∧ D.toNat < 16 ∧ mantissa D = 0

/-! ## The configuration sequencer -/

/-- `SER_INIT` run to its end with an accepted divisor: its eighteen micro-steps leave the end state of rule R167, seventeen trace entries
in the order of rule R162, and `OK`; every other field is unchanged. -/
def Obligations.SerInitCompletes : Prop :=
  (∀ baud : BitVec 32, opOf (encode (.serInit baud)) = 0x4 ∧ argOf (encode (.serInit baud)) = baud) ∧
  ∀ (s : State) (baud : BitVec 32) (d : BitVec 16), s.Free (.serInit baud) →
    brrCalc s.cfg.tieRule s.cfg.pclkHz baud = .ok d →
    (serInitTrace s.cfg d).length = 17 ∧
    runCommand 18 (.serInit baud) s = .next { s with
      serCfg := .configured
      seq := none
      trace := s.trace ++ serInitTrace s.cfg d
      per := serInitPeriph s.cfg d s.per
      callers := s.callers.modify s.cur fun c => c.receive .ok }

/-- `SER_INIT` with a refused divisor, which baud 0 and every rounded quotient above 0xFFFF have: micro-steps 1 to 12 stay performed, no BRR write, no enable, the command stays in `seq` and
`inflight`, the fault is raised at step 13, and the block performs nothing more (rules R143, R146, R163). -/
def Obligations.SerInitDivisorFault : Prop :=
  (∀ (rule : TieRule) (pclk : BitVec 32), brrCalc rule pclk 0 = .err .baudZero) ∧
  (∀ (rule : TieRule) (pclk baud : BitVec 32), baud ≠ 0 → roundDiv rule pclk.toNat baud.toNat > 0xFFFF →
    brrCalc rule pclk baud = .err .baudOverflow) ∧
  ∀ (s : State) (baud : BitVec 32) (c : FaultCause), s.Free (.serInit baud) →
    brrCalc s.cfg.tieRule s.cfg.pclkHz baud = .err c →
    let t : State := { s with
      seq := some ⟨s.cur, .serInit, 12, none⟩
      inflight := insertFlight ⟨s.cur, .serInit baud, .configuring⟩ s.inflight
      trace := s.trace ++ serInitFrameTrace s.cfg
      per := serInitFrame s.cfg s.per
      fault := some c
      faultInfo := some ⟨s.cur, encode (.serInit baud), 13⟩ }
    runCommand 13 (.serInit baud) s = .next t ∧ exec (.serInit baud) t = .next t ∧
    t.per.uart.brr = s.per.uart.brr ∧ t.per.uart.ue = s.per.uart.ue ∧ t.per.uart.te = s.per.uart.te ∧
    t.per.uart.re = s.per.uart.re ∧ t.per.uart.rxneie = s.per.uart.rxneie ∧ t.serCfg = s.serCfg ∧ t.faultOut = c.code

/-- Each micro-step of `SER_INIT` as one `exec`: the field writes of the table, the calculation at 13, the divisor's write at 14, the end
at 18 (rules R24, R152, R162). -/
def Obligations.SerInitMicroSteps : Prop :=
  (∀ (s : State) (baud : BitVec 32), s.Free (.serInit baud) →
    exec (.serInit baud) s = .next { s with
      inflight := insertFlight ⟨s.cur, .serInit baud, .configuring⟩ s.inflight
      seq := some ⟨s.cur, .serInit, 1, none⟩
      trace := s.trace ++ [.w .rccUartEn 1]
      per := s.per.set .rccUartEn 1 }) ∧
  ∀ (s : State) (baud : BitVec 32) (n : Nat) (d : Option (BitVec 16)),
    s.Flying (.serInit baud) .configuring → s.seq = some ⟨s.cur, .serInit, n, d⟩ →
    (∀ f v, (n + 1, f, v) ∈ serInitTable s.cfg → s.per.clocked f = true → n + 1 < 18 →
      exec (.serInit baud) s = .next { s with
        seq := some ⟨s.cur, .serInit, n + 1, d⟩, trace := s.trace ++ [.w f v], per := s.per.set f v }) ∧
    (n + 1 = 13 → ∀ D, brrCalc s.cfg.tieRule s.cfg.pclkHz baud = .ok D →
      exec (.serInit baud) s = .next { s with seq := some ⟨s.cur, .serInit, 13, some D⟩ }) ∧
    (n + 1 = 14 → ∀ D, d = some D → s.per.rcc.uartEn = true →
      exec (.serInit baud) s = .next { s with
        seq := some ⟨s.cur, .serInit, 14, d⟩
        trace := s.trace ++ [.wr .brr (D.setWidth 32)]
        per := { s.per with uart := { s.per.uart with brr := D } } }) ∧
    (n + 1 = 18 → s.per.rcc.uartEn = true →
      exec (.serInit baud) s = .next { s with
        serCfg := .configured
        seq := none
        inflight := s.inflight.filter fun g => g.caller != s.cur
        trace := s.trace ++ [.w .uartRxneie 1]
        per := { s.per with uart := { s.per.uart with rxneie := true } }
        callers := s.callers.modify s.cur fun c => c.receive .ok })

/-- Repeating a completed `SER_INIT`: every repeat performs the eighteen micro-steps with their seventeen trace entries again; with the same baud
rate no field changes; with another that fits only `brr`; a repeat whose divisor faults leaves the configuration in place (rule R168). -/
def Obligations.SerInitRepeat : Prop :=
  ∀ (s : State) (baud : BitVec 32) (d : BitVec 16), s.Free (.serInit baud) →
    brrCalc s.cfg.tieRule s.cfg.pclkHz baud = .ok d →
    ∃ t u, runCommand 18 (.serInit baud) s = .next t ∧ runCommand 18 (.serInit baud) t = .next u ∧
      (u.per = t.per ∧ u.serCfg = .configured ∧ u.trace = t.trace ++ serInitTrace s.cfg d ∧ (serInitTrace s.cfg d).length = 17) ∧
      (∀ (other : BitVec 32) (e : BitVec 16), brrCalc s.cfg.tieRule s.cfg.pclkHz other = .ok e →
        ∃ v, runCommand 18 (.serInit other) t = .next v ∧ v.per = { t.per with uart := { t.per.uart with brr := e } } ∧
          v.serCfg = .configured ∧ v.trace = t.trace ++ serInitTrace s.cfg e ∧ (serInitTrace s.cfg e).length = 17) ∧
      ∀ (bad : BitVec 32) (c : FaultCause), brrCalc s.cfg.tieRule s.cfg.pclkHz bad = .err c →
        ∃ v, runCommand 13 (.serInit bad) t = .next v ∧ v.per = t.per ∧ v.serCfg = .configured ∧ v.fault = some c

/-- The frame of `SER_INIT`, on every path that gives a next state: the flags, the holding registers, `ind_cfg`, the line side, every other
port and its clock, the serial port's output types and levels, its other pins and every byte of the store are unchanged (rule R169). -/
def Obligations.SerialConfigFrame : Prop :=
  ∀ (s t : State) (baud : BitVec 32), exec (.serInit baud) s = .next t →
    t = { s with
      serCfg := t.serCfg, seq := t.seq, inflight := t.inflight, fault := t.fault, faultInfo := t.faultInfo
      trace := t.trace, callers := t.callers
      per := { s.per with
        rcc := t.per.rcc, gpio := t.per.gpio
        uart := { t.per.uart with
          rxne := s.per.uart.rxne, txe := s.per.uart.txe, ore := s.per.uart.ore, fe := s.per.uart.fe
          pe := s.per.uart.pe, rdr := s.per.uart.rdr, tdr := s.per.uart.tdr, rdrOpen := s.per.uart.rdrOpen
          tdrOpen := s.per.uart.tdrOpen } } } ∧
    (∀ a, Memory.read t.per.other a = Memory.read s.per.other a) ∧
    (∀ q : Port, q ≠ s.cfg.serPort → t.per.rcc.gpioEn[q] = s.per.rcc.gpioEn[q] ∧ t.per.gpio[q] = s.per.gpio[q]) ∧
    t.per.gpio[s.cfg.serPort].otype = s.per.gpio[s.cfg.serPort].otype ∧
    t.per.gpio[s.cfg.serPort].odr = s.per.gpio[s.cfg.serPort].odr ∧
    (∀ p : Pin, p ≠ s.cfg.txPin → p ≠ s.cfg.rxPin →
      t.per.gpio[s.cfg.serPort].mode[p] = s.per.gpio[s.cfg.serPort].mode[p] ∧
      t.per.gpio[s.cfg.serPort].af[p] = s.per.gpio[s.cfg.serPort].af[p]) ∧
    (∀ k, k ≠ s.cur → t.callers[k]? = s.callers[k]?)

/-! ## Polled read and write -/

/-- The micro-steps of `SER_READ`: the status read, its word the one the status register gives, then `NOT_READY` with no field changed or the
command in flight; the data load, its word the one the data register gives, `rxne` cleared, `DATA` with the byte of that word, whose bits
[31:8] are discarded (rules R64, R68, R192). -/
def Obligations.SerReadMicroSteps : Prop :=
  encode .serRead = 0x5000000000000000 ∧
  (∀ s : State, s.Free .serRead → s.serCfg = .configured → s.per.rcc.uartEn = true →
    ∃ x, busRead .sr s = .next (x, { s with draws := s.draws + 1, trace := s.trace ++ [.rd .sr x] }) ∧
      (s.per.uart.rxne = false → exec .serRead s = .next { s with
        draws := s.draws + 1
        trace := s.trace ++ [.rd .sr x]
        callers := s.callers.modify s.cur fun c => c.receive .notReady }) ∧
      (s.per.uart.rxne = true → exec .serRead s = .next { s with
        draws := s.draws + 1
        trace := s.trace ++ [.rd .sr x]
        inflight := insertFlight ⟨s.cur, .serRead, .statusSampled true⟩ s.inflight })) ∧
  ∀ s : State, s.Flying .serRead (.statusSampled true) → s.per.rcc.uartEn = true →
    ∃ x u b, busRead .dr s = .next (x, { s with
        draws := s.draws + 4, trace := s.trace ++ [.rd .dr x], per := { s.per with uart := u } }) ∧
      exec .serRead s = .next { s with
        draws := s.draws + 4
        trace := s.trace ++ [.rd .dr x]
        per := { s.per with uart := u }
        inflight := s.inflight.filter fun g => g.caller != s.cur
        callers := s.callers.modify s.cur fun c => c.receive (.data b) } ∧
      b = x.extractLsb' 0 8 ∧ (s.per.uart.rdrOpen = false → b = s.per.uart.rdr) ∧
      u = { s.per.uart with rxne := false, ore := u.ore, fe := u.fe, pe := u.pe } ∧
      (u.ore = s.per.uart.ore ∨ u.ore = false) ∧ (u.fe = s.per.uart.fe ∨ u.fe = false) ∧
      (u.pe = s.per.uart.pe ∨ u.pe = false)

/-- `SER_READ` run alone responds `DATA(b)`, b the received byte, if and only if `rxne` was 1 at its status sample; else `NOT_READY` with
no field changed (rule R193). The words in the trace are the ones the status register and then the data register give. A byte is in `rdr`
whenever `rxne` is 1 (`Obligations.StepKeepsInvariant`). -/
def Obligations.SerReadReturnsByteIffReady : Prop :=
  ∀ s : State, s.Free .serRead → s.serCfg = .configured → s.per.rcc.uartEn = true → s.per.uart.rdrOpen = false →
    ∃ x, busRead .sr s = .next (x, { s with draws := s.draws + 1, trace := s.trace ++ [.rd .sr x] }) ∧
    (s.per.uart.rxne = true → ∃ t u y v, exec .serRead s = .next u ∧ busRead .dr u = .next (y, v) ∧
      runCommand 2 .serRead s = .next t ∧
      t.callers = s.callers.modify s.cur (fun c => c.receive (.data s.per.uart.rdr)) ∧ t.inflight = s.inflight ∧
      t.trace = s.trace ++ [.rd .sr x, .rd .dr y] ∧ t.per = v.per ∧ t.per.uart.rxne = false ∧
      t.per.uart.rdr = s.per.uart.rdr) ∧
    (s.per.uart.rxne = false → ∃ t, exec .serRead s = .next t ∧
      t.callers = s.callers.modify s.cur (fun c => c.receive .notReady) ∧ t.inflight = s.inflight ∧ t.per = s.per ∧
      t.trace = s.trace ++ [.rd .sr x])

/-- The micro-steps of `SER_WRITE`: the status read, its word the one the status register gives, then `NOT_READY` with no field changed or the command in flight; the data store of the
zero-extended byte, `tdr` the byte, `txe` cleared, `OK` (rules R66, R68, R202). -/
def Obligations.SerWriteMicroSteps : Prop :=
  (∀ byte : Byte, opOf (encode (.serWrite byte)) = 0x6 ∧ argOf (encode (.serWrite byte)) = byte.setWidth 32) ∧
  (∀ (s : State) (byte : Byte), s.Free (.serWrite byte) → s.serCfg = .configured → s.per.rcc.uartEn = true →
    ∃ x, busRead .sr s = .next (x, { s with draws := s.draws + 1, trace := s.trace ++ [.rd .sr x] }) ∧
      (s.per.uart.txe = false → exec (.serWrite byte) s = .next { s with
        draws := s.draws + 1
        trace := s.trace ++ [.rd .sr x]
        callers := s.callers.modify s.cur fun c => c.receive .notReady }) ∧
      (s.per.uart.txe = true → exec (.serWrite byte) s = .next { s with
        draws := s.draws + 1
        trace := s.trace ++ [.rd .sr x]
        inflight := insertFlight ⟨s.cur, .serWrite byte, .statusSampled true⟩ s.inflight })) ∧
  ∀ (s : State) (byte : Byte), s.Flying (.serWrite byte) (.statusSampled true) → s.per.rcc.uartEn = true →
    exec (.serWrite byte) s = .next { s with
      trace := s.trace ++ [.wr .dr (byte.setWidth 32)]
      per := { s.per with uart := { s.per.uart with tdr := byte, txe := false, tdrOpen := !s.per.uart.txe } }
      inflight := s.inflight.filter fun g => g.caller != s.cur
      callers := s.callers.modify s.cur fun c => c.receive .ok }

/-- `SER_WRITE` run alone stores its byte if and only if `txe` was 1 at its status sample; else `NOT_READY` and the status read is its only
effect (rule R203). The status word in the trace is the one the status register gives. -/
def Obligations.SerWriteStoresIffReady : Prop :=
  ∀ (s : State) (byte : Byte), s.Free (.serWrite byte) → s.serCfg = .configured → s.per.rcc.uartEn = true →
    ∃ x, busRead .sr s = .next (x, { s with draws := s.draws + 1, trace := s.trace ++ [.rd .sr x] }) ∧
    (s.per.uart.txe = true → runCommand 2 (.serWrite byte) s = .next { s with
      draws := s.draws + 1
      trace := s.trace ++ [.rd .sr x, .wr .dr (byte.setWidth 32)]
      per := { s.per with uart := { s.per.uart with tdr := byte, txe := false, tdrOpen := false } }
      callers := s.callers.modify s.cur fun c => c.receive .ok }) ∧
    (s.per.uart.txe = false → exec (.serWrite byte) s = .next { s with
      draws := s.draws + 1
      trace := s.trace ++ [.rd .sr x]
      callers := s.callers.modify s.cur fun c => c.receive .notReady })

/-- `SER_READ` and `SER_WRITE` before a completed `SER_INIT` fault `SER_NOT_CONFIGURED` (rules R191, R201). -/
def Obligations.TransfersNeedConfiguration : Prop :=
  ∀ (s : State) (i : Instr), (i = .serRead ∨ ∃ b, i = .serWrite b) → s.Free i → s.serCfg ≠ .configured →
    exec i s = .next { s with fault := some .serNotConfigured, faultInfo := some ⟨s.cur, encode i, 0⟩ }

/-- The frame and the transaction bound of `SER_READ` and `SER_WRITE`, on every path that gives a next state: clocks, pins, enables, frame
fields, `brr`, the sequencer, the line side and every byte of the store are unchanged; a read changes only `rxne` and the error
flags, a write only `tdr` and `txe`; one exec makes at most one transaction, a status read or one data access (rule R212). -/
def Obligations.TransferFrame : Prop :=
  ∀ (s t : State) (i : Instr), (i = .serRead ∨ ∃ b, i = .serWrite b) → exec i s = .next t →
    t = { s with
      inflight := t.inflight, fault := t.fault, faultInfo := t.faultInfo, trace := t.trace, callers := t.callers
      draws := t.draws
      per := { s.per with uart := { s.per.uart with
        rxne := t.per.uart.rxne, txe := t.per.uart.txe, ore := t.per.uart.ore, fe := t.per.uart.fe
        pe := t.per.uart.pe, tdr := t.per.uart.tdr, tdrOpen := t.per.uart.tdrOpen } } } ∧
    (∀ a, Memory.read t.per.other a = Memory.read s.per.other a) ∧
    (∀ k, k ≠ s.cur → t.callers[k]? = s.callers[k]?) ∧
    (i = .serRead → t.per.uart.txe = s.per.uart.txe ∧ t.per.uart.tdr = s.per.uart.tdr ∧
      t.per.uart.tdrOpen = s.per.uart.tdrOpen ∧
      (t.trace = s.trace ∨ (∃ x, t.trace = s.trace ++ [.rd .sr x]) ∨ ∃ x, t.trace = s.trace ++ [.rd .dr x])) ∧
    (∀ b, i = .serWrite b → t.per.uart.rxne = s.per.uart.rxne ∧ t.per.uart.ore = s.per.uart.ore ∧
      t.per.uart.fe = s.per.uart.fe ∧ t.per.uart.pe = s.per.uart.pe ∧
      (t.trace = s.trace ∨ (∃ x, t.trace = s.trace ++ [.rd .sr x]) ∨ t.trace = s.trace ++ [.wr .dr (b.setWidth 32)]))

/-- A byte that arrives between the two micro-steps of a `SER_READ` is an overrun: `ore` is set, and the byte returned is the old or the new
one (rule R194). -/
def Obligations.OverrunDuringRead : Prop :=
  ∀ (s : State) (v : Byte) (ferr : Bool), s.Flying .serRead (.statusSampled true) → s.per.uart.rxne = true →
    s.per.uart.rdrOpen = false → s.per.rxActive = true →
    (s.arrive v ferr).per.uart.ore = true ∧
    ∃ t b, exec .serRead (s.arrive v ferr) = .next t ∧ (b = s.per.uart.rdr ∨ b = v) ∧ t.per.uart.rxne = false ∧
      t.callers = s.callers.modify s.cur fun c => c.receive (.data b)

/-! ## The line side -/

/-- `RX_ARRIVE`: a byte delivered, an overrun in which one of the two bytes survives, a byte lost at an inactive receiver (rules R221,
R222, R223), for the next arrival placed; where none is placed its byte and its framing draw are free values, which is the model's choice (log
2). -/
def Obligations.ArrivalEffect : Prop :=
  ∀ (s q : State) (v : Byte) (ferr : Bool),
    ((∃ a rest, s.wireRxIn = a :: rest ∧ v = a.byte ∧ ferr = a.ferr ∧ q = { s with wireRxIn := rest }) ∨
      (s.wireRxIn = [] ∧ v = (freeWord s.draws).extractLsb' 0 8 ∧ ferr = (freeWord s.draws).getLsbD 8 ∧
        q = { s with draws := s.draws + 1 })) →
    (s.per.rxActive = true → s.per.uart.rxne = false → rxArrive s = { q with
      per := { s.per with uart := { s.per.uart with rdr := v, rxne := true, fe := ferr, rdrOpen := false } } }) ∧
    (s.per.rxActive = true → s.per.uart.rxne = true → ∃ r o, rxArrive s = { q with
        draws := q.draws + 1
        per := { s.per with uart := { s.per.uart with ore := true, rdr := r, rdrOpen := o } } } ∧
      ((r = s.per.uart.rdr ∧ o = s.per.uart.rdrOpen) ∨ (r = v ∧ o = false))) ∧
    (s.per.rxActive = false → rxArrive s = q)

/-- `TX_LOAD`: where the transmit side is active, `txe` is 0 and the shift register is empty, the byte stored moves there and `txe` is set;
elsewhere it changes nothing (rule R224). -/
def Obligations.TxLoadStep : Prop :=
  ∀ s : State,
    (s.per.rcc.uartEn = true → s.per.uart.ue = true → s.per.uart.te = true → s.per.uart.txe = false → s.txShift = none →
      s.per.uart.tdrOpen = false → txLoad s = { s with
        txShift := some s.per.uart.tdr
        draws := s.draws + 1
        per := { s.per with uart := { s.per.uart with txe := true } } }) ∧
    ((s.per.rcc.uartEn = false ∨ s.per.uart.ue = false ∨ s.per.uart.te = false ∨ s.per.uart.txe = true ∨ s.txShift ≠ none) →
      txLoad s = s)

/-- `TX_DONE`: where the transmit side is active and a byte is in the shift register, the byte goes onto the wire; elsewhere it changes
nothing. That the transmit side must be active is the model's reading of rule R220 together with rule R225 (log 10). -/
def Obligations.TxDoneStep : Prop :=
  ∀ s : State,
    (∀ v, s.per.txActive = true → s.txShift = some v → txDone s = { s with wireTx := s.wireTx ++ [v], txShift := none }) ∧
    ((s.per.txActive = false ∨ s.txShift = none) → txDone s = s)

/-- An accepted byte reaches the wire exactly once: after the store, one `TX_LOAD` and one `TX_DONE` (after a byte already shifting out has
gone) append it, and `txe` is 1 again (rules R204, R225). -/
def Obligations.AcceptedByteReachesWire : Prop :=
  ∀ (s : State) (byte : Byte), s.Flying (.serWrite byte) (.statusSampled true) → s.per.uart.txe = true →
    s.per.txActive = true →
    ∃ t, exec (.serWrite byte) s = .next t ∧
      (s.txShift = none → (txDone (txLoad t)).wireTx = s.wireTx ++ [byte] ∧ (txDone (txLoad t)).per.uart.txe = true ∧
        (txDone (txLoad t)).txShift = none) ∧
      ∀ v, s.txShift = some v → txLoad t = t ∧
        (txDone (txLoad (txDone t))).wireTx = s.wireTx ++ [v, byte] ∧ (txDone (txLoad (txDone t))).txShift = none

/-- The notification output is `rxneie ∧ rxne`, in every state; it rises at the arrival that sets `rxne` while `rxneie` is 1, and it falls only at the data
load of a `SER_READ`, reset apart (rules R42, R229). -/
def Obligations.NotificationOutput : Prop :=
  (∀ s : State, s.irqRx = (s.per.uart.rxneie && s.per.uart.rxne)) ∧
  (∀ (s : State) (v : Byte) (ferr : Bool), s.per.rxActive = true → s.per.uart.rxne = false → s.per.uart.rxneie = true →
    s.irqRx = false ∧ (s.arrive v ferr).irqRx = true) ∧
  (∀ (s : State), s.Flying .serRead (.statusSampled true) → s.per.rcc.uartEn = true →
    ∃ t, exec .serRead s = .next t ∧ t.irqRx = false) ∧
  ∀ s t : State, step s = .next t → s.pick.1 ≠ .reset → s.irqRx = true → t.irqRx = false →
    ∃ k f, s.flightOf k = some f ∧ f.cmd = .serRead ∧ s.pick.1 = .block k

/-! ## The callers' harness -/

/-- The harness lines, labels ahead of them passed without a step: `bnr` and `br` to the line after the label, `ser.write b` with the latch
written and unwritten, the latch filled by `DATA`, the end of a program without `halt`, `halt`; a caller that has stopped takes no step; an
assembled program branches only to labels it defines (rules R102, R103, R104, R107). -/
def Obligations.HarnessLines : Prop :=
  (∀ (s : State) (k : Nat) (c : Caller) (prog : List HarnessLine) (n : Nat), s.callers[k]? = some c → c.prog = some prog →
    c.status = .running → s.flightOf k = none → c.Reaches prog n →
    let with' (d : Caller) : State := { s with callers := s.callers.set k d }
    (∀ l m, prog[n]? = some (.bnr l) → labelTarget prog l = some m →
      harnessStep k s = .next (with' { c with lc := if c.last = some .notReady then m else n + 1 })) ∧
    (∀ l m, prog[n]? = some (.br l) → labelTarget prog l = some m → harnessStep k s = .next (with' { c with lc := m })) ∧
    (prog[n]? = some .serWriteB → c.latch = none →
      harnessStep k s = .next (with' { c with lc := n, status := .unwrittenLatch })) ∧
    (∀ b, prog[n]? = some .serWriteB → c.latch = some b → s.fault = none →
      harnessStep k s = exec (.serWrite b) { s with callers := s.callers.set k { c with lc := n }, cur := k }) ∧
    (prog[n]? = none → harnessStep k s = .next (with' { c with lc := n, status := .noHalt })) ∧
    (prog[n]? = some .halt → harnessStep k s = .next (with' { c with lc := n, status := .halted }))) ∧
  (∀ (prog : List HarnessLine) (l m : Nat), labelTarget prog l = some m → ∃ n, m = n + 1 ∧ prog[n]? = some (.label l)) ∧
  (∀ (c : Caller) (b : Byte), (c.receive (.data b)).latch = some b ∧ (c.receive .ok).latch = c.latch ∧
    (c.receive .notReady).latch = c.latch) ∧
  (∀ (s : State) (k : Nat) (c : Caller), s.callers[k]? = some c → c.status ≠ .running → harnessStep k s = .next s) ∧
  ∀ (src : List Source) (prog : List HarnessLine), assemble src = some prog → ∀ l, .bnr l ∈ prog ∨ .br l ∈ prog →
    ∃ m, labelTarget prog l = some m

/-! ## Accesses by address -/

/-- An access by address: refused where misaligned, a fault where the layout names nothing, else the access of the register that stands there;
refused where the register's clock is off or, for a write, where it holds a read-only field; the divisor register read and written (rules R13,
R37, R60, R62, R72). Which stops these are, and in which order they are asked, is the model's choice (log 12); so are bits [31:16] of the
divisor register, drawn when read (log 26). -/
def Obligations.AddressedAccess : Prop :=
  ∀ (s : State) (addr w : Word),
    let L := s.cfg.layout
    (busRead (.word addr) s = memRead addr s ∧ busWrite (.word addr) w s = memWrite addr w s) ∧
    (addr.toNat % 4 ≠ 0 → memRead addr s = .refused .misalignedAccess ∧ memWrite addr w s = .refused .misalignedAccess) ∧
    (addr.toNat % 4 = 0 → addr ≠ L.dr → (∀ p : Port, L.bsrr[p] ≠ addr) → (∀ f : Field, (L.slot f).addr ≠ addr) →
      memRead addr s = .fault .unmappedAddress ∧ memWrite addr w s = .fault .unmappedAddress) ∧
    (L.aligned = true → L.registersApart = true →
      (memRead L.dr s = busRead .dr s ∧ memWrite L.dr w s = busWrite .dr w s) ∧
      (memRead L.rxne.addr s = busRead .sr s ∧ memWrite L.rxne.addr w s = .refused .readOnlyRegister) ∧
      (memRead L.brr.addr s = busRead .brr s ∧ memWrite L.brr.addr w s = busWrite .brr w s) ∧
      (∀ p : Port, memRead L.bsrr[p] s = busRead (.bsrr p) s ∧ memWrite L.bsrr[p] w s = busWrite (.bsrr p) w s) ∧
      ∀ f : Field, (L.slot f).addr ∉ L.ownAddrs →
        (s.per.clocked f = false → memRead (L.slot f).addr s = .refused .unclockedPeripheral ∧
          memWrite (L.slot f).addr w s = .refused .unclockedPeripheral) ∧
        ((∀ g : Field, (L.slot g).addr = (L.slot f).addr → s.per.clocked g = true) → f.writable = false →
          memWrite (L.slot f).addr w s = .refused .readOnlyRegister)) ∧
    (s.per.rcc.uartEn = false → busRead .sr s = .refused .unclockedPeripheral ∧ busRead .dr s = .refused .unclockedPeripheral ∧
      busRead .brr s = .refused .unclockedPeripheral ∧ busWrite .dr w s = .refused .unclockedPeripheral ∧
      busWrite .brr w s = .refused .unclockedPeripheral) ∧
    (∀ p : Port, s.per.rcc.gpioEn[p] = false → busRead (.bsrr p) s = .refused .unclockedPeripheral ∧
      busWrite (.bsrr p) w s = .refused .unclockedPeripheral) ∧
    (∀ f : Field, s.per.clocked f = false → fieldWrite f w s = .refused .unclockedPeripheral) ∧
    (s.per.rcc.uartEn = true →
      (∃ x, busRead .brr s = .next (x, { s with draws := s.draws + 1, trace := s.trace ++ [.rd .brr x] }) ∧
        x.extractLsb' 0 16 = s.per.uart.brr ∧ x.extractLsb' 16 16 = (freeWord s.draws).extractLsb' 16 16) ∧
      busWrite .brr w s = .next { s with
        trace := s.trace ++ [.wr .brr w], per := { s.per with uart := { s.per.uart with brr := w.extractLsb' 0 16 } } })

/-- A whole-word access of a register that has no rules of its own: a read gives every field its current value and every other bit its byte of
the store, with no side effect; a write gives every field its bits, puts the other bits into the store, leaves every field of another
register and every other byte, and is read back whole (rules R41, R60, R61, R81). The store is the model's (log 5). -/
def Obligations.WholeWordAccess : Prop :=
  ∀ (s : State) (addr w : Word),
    let L := s.cfg.layout
    L.slotsFit = true → L.disjointAt addr → addr.toNat % 4 = 0 → addr ∉ L.ownAddrs → (∃ f : Field, (L.slot f).addr = addr) →
    (∀ f : Field, (L.slot f).addr = addr → s.per.clocked f = true) →
    (∃ x, memRead addr s = .next (x, { s with trace := s.trace ++ [.rd (.word addr) x] }) ∧
      (∀ f : Field, (L.slot f).addr = addr → x.extractLsb' (L.slot f).lo f.width = (s.per.get f).extractLsb' 0 f.width) ∧
      ∀ b, (∀ f : Field, (L.slot f).addr = addr → b < (L.slot f).lo ∨ (L.slot f).hi < b) →
        x.getLsbD b = (Memory.read32 s.per.other addr.toNat).getLsbD b) ∧
    ((∀ f : Field, (L.slot f).addr = addr → f.writable = true) → Memory.wf s.per.other = true →
      ∃ t, memWrite addr w s = .next t ∧
        (∀ f : Field, (L.slot f).addr = addr → t.per.get f = (w.extractLsb' (L.slot f).lo f.width).setWidth 32) ∧
        (∀ f : Field, (L.slot f).addr ≠ addr → t.per.get f = s.per.get f) ∧
        (∀ a, a < addr.toNat ∨ addr.toNat + 3 < a → Memory.read t.per.other a = Memory.read s.per.other a) ∧
        t = { s with
          trace := s.trace ++ [.wr (.word addr) w]
          per := { t.per with uart := { t.per.uart with
            rdr := s.per.uart.rdr, tdr := s.per.uart.tdr, rdrOpen := s.per.uart.rdrOpen, tdrOpen := s.per.uart.tdrOpen } } } ∧
        ((∀ f : Field, (L.slot f).addr = addr → t.per.clocked f = true) →
          memRead addr t = .next (w, { t with trace := t.trace ++ [.rd (.word addr) w] })))
end

