-- ==== Sys2Proof/Laws/Encoding.lean ====
section
/-! SUPPORT. The three fields of a command word: what the encoder puts there the decoder finds (rules R91, R92). -/

namespace Sys2Proof

@[simp] theorem opOf_cmdWord (op : BitVec 4) (arg : BitVec 32) : opOf (cmdWord op arg) = op := by
  apply BitVec.eq_of_getLsbD_eq
  intro i hi
  simp only [opOf, cmdWord, BitVec.getLsbD_extractLsb', BitVec.getLsbD_append]
  rw [if_neg (by omega), if_neg (by omega), show 60 + i - 32 - 28 = i by omega]
  simp [hi]

@[simp] theorem rsvOf_cmdWord (op : BitVec 4) (arg : BitVec 32) : rsvOf (cmdWord op arg) = 0 := by
  apply BitVec.eq_of_getLsbD_eq
  intro i hi
  simp only [rsvOf, cmdWord, BitVec.getLsbD_extractLsb', BitVec.getLsbD_append]
  simp [hi]

@[simp] theorem argOf_cmdWord (op : BitVec 4) (arg : BitVec 32) : argOf (cmdWord op arg) = arg := by
  apply BitVec.eq_of_getLsbD_eq
  intro i hi
  simp only [argOf, cmdWord, BitVec.getLsbD_extractLsb', BitVec.getLsbD_append]
  simp [hi]

/-- A word with reserved bits zero is its operation and its operand. -/
theorem cmdWord_eta (w : CmdWord) (h : rsvOf w = 0) : cmdWord (opOf w) (argOf w) = w := by
  apply BitVec.eq_of_getLsbD_eq
  intro i hi
  simp only [cmdWord, BitVec.getLsbD_append]
  have hr : ∀ j, j < 28 → w.getLsbD (32 + j) = false := by
    intro j hj
    have := congrArg (fun x => x.getLsbD j) h
    simpa [rsvOf, BitVec.getLsbD_extractLsb', hj] using this
  by_cases h1 : i < 32
  · simp [h1, argOf]
  · by_cases h2 : i - 32 < 28
    · have := hr (i - 32) h2
      rw [show 32 + (i - 32) = i by omega] at this
      simp [h1, h2, this]
    · simp [h1, h2, opOf, BitVec.getLsbD_extractLsb']
      rw [show 60 + (i - 32 - 28) = i by omega]
      simp [show i - 32 - 28 < 4 by omega]

/-- The upper bits of a byte operand are zero. -/
theorem byteArg_hi (b : Byte) : ((0 : BitVec 24) ++ b : BitVec 32).extractLsb' 8 24 = 0 := by
  apply BitVec.eq_of_getLsbD_eq
  intro i hi
  simp only [BitVec.getLsbD_extractLsb', BitVec.getLsbD_append]
  simp [hi]

/-- The low byte of a byte operand is the byte. -/
theorem byteArg_lo (b : Byte) : ((0 : BitVec 24) ++ b : BitVec 32).extractLsb' 0 8 = b := by
  apply BitVec.eq_of_getLsbD_eq
  intro i hi
  simp only [BitVec.getLsbD_extractLsb', BitVec.getLsbD_append]
  simp [hi]

/-- An operand with zero upper bits is its low byte. -/
theorem byteArg_eta (a : BitVec 32) (h : a.extractLsb' 8 24 = 0) : (0 : BitVec 24) ++ a.extractLsb' 0 8 = a := by
  apply BitVec.eq_of_getLsbD_eq
  intro i hi
  simp only [BitVec.getLsbD_extractLsb', BitVec.getLsbD_append]
  have hr : ∀ j, j < 24 → a.getLsbD (8 + j) = false := by
    intro j hj
    have := congrArg (fun x => x.getLsbD j) h
    simpa [BitVec.getLsbD_extractLsb', hj] using this
  by_cases h1 : i < 8
  · simp [h1]
  · have := hr (i - 8) (by omega)
    rw [show 8 + (i - 8) = i by omega] at this
    simp [h1, this]

end Sys2Proof
end

