-- ==== Sys2Proof/Laws/State.lean ====
section
/-! SUPPORT. The small lemmas of the state's updates, one per field per update, so that no later proof unfolds a record
update. -/

namespace Sys2Proof.Machine

open Sys2Proof Sys2Proof.Config

/-! ## `State.emit` -/

@[simp] theorem State.emit_cfg (s : State) (e : Event) : (s.emit e).cfg = s.cfg := rfl

@[simp] theorem State.emit_indCfg (s : State) (e : Event) : (s.emit e).indCfg = s.indCfg := rfl

@[simp] theorem State.emit_serCfg (s : State) (e : Event) : (s.emit e).serCfg = s.serCfg := rfl

@[simp] theorem State.emit_seq (s : State) (e : Event) : (s.emit e).seq = s.seq := rfl

@[simp] theorem State.emit_inflight (s : State) (e : Event) : (s.emit e).inflight = s.inflight := rfl

@[simp] theorem State.emit_fault (s : State) (e : Event) : (s.emit e).fault = s.fault := rfl

@[simp] theorem State.emit_faultInfo (s : State) (e : Event) : (s.emit e).faultInfo = s.faultInfo := rfl

@[simp] theorem State.emit_trace (s : State) (e : Event) : (s.emit e).trace = s.trace ++ [e] := rfl

@[simp] theorem State.emit_per (s : State) (e : Event) : (s.emit e).per = s.per := rfl

@[simp] theorem State.emit_txShift (s : State) (e : Event) : (s.emit e).txShift = s.txShift := rfl

@[simp] theorem State.emit_wireTx (s : State) (e : Event) : (s.emit e).wireTx = s.wireTx := rfl

@[simp] theorem State.emit_wireRxIn (s : State) (e : Event) : (s.emit e).wireRxIn = s.wireRxIn := rfl

@[simp] theorem State.emit_callers (s : State) (e : Event) : (s.emit e).callers = s.callers := rfl

@[simp] theorem State.emit_cur (s : State) (e : Event) : (s.emit e).cur = s.cur := rfl

@[simp] theorem State.emit_schedule (s : State) (e : Event) : (s.emit e).schedule = s.schedule := rfl

@[simp] theorem State.emit_draws (s : State) (e : Event) : (s.emit e).draws = s.draws := rfl

/-! ## `State.raiseFault` -/

@[simp] theorem State.raiseFault_cfg (s : State) (c : FaultCause) (w : CmdWord) (n : Nat) : (s.raiseFault c w n).cfg = s.cfg := rfl

@[simp] theorem State.raiseFault_indCfg (s : State) (c : FaultCause) (w : CmdWord) (n : Nat) : (s.raiseFault c w n).indCfg = s.indCfg := rfl

@[simp] theorem State.raiseFault_serCfg (s : State) (c : FaultCause) (w : CmdWord) (n : Nat) : (s.raiseFault c w n).serCfg = s.serCfg := rfl

@[simp] theorem State.raiseFault_seq (s : State) (c : FaultCause) (w : CmdWord) (n : Nat) : (s.raiseFault c w n).seq = s.seq := rfl

@[simp] theorem State.raiseFault_inflight (s : State) (c : FaultCause) (w : CmdWord) (n : Nat) : (s.raiseFault c w n).inflight = s.inflight := rfl

@[simp] theorem State.raiseFault_fault (s : State) (c : FaultCause) (w : CmdWord) (n : Nat) : (s.raiseFault c w n).fault = some c := rfl

@[simp] theorem State.raiseFault_faultInfo (s : State) (c : FaultCause) (w : CmdWord) (n : Nat) : (s.raiseFault c w n).faultInfo = some { caller := s.cur, word := w, step := n } := rfl

@[simp] theorem State.raiseFault_trace (s : State) (c : FaultCause) (w : CmdWord) (n : Nat) : (s.raiseFault c w n).trace = s.trace := rfl

@[simp] theorem State.raiseFault_per (s : State) (c : FaultCause) (w : CmdWord) (n : Nat) : (s.raiseFault c w n).per = s.per := rfl

@[simp] theorem State.raiseFault_txShift (s : State) (c : FaultCause) (w : CmdWord) (n : Nat) : (s.raiseFault c w n).txShift = s.txShift := rfl

@[simp] theorem State.raiseFault_wireTx (s : State) (c : FaultCause) (w : CmdWord) (n : Nat) : (s.raiseFault c w n).wireTx = s.wireTx := rfl

@[simp] theorem State.raiseFault_wireRxIn (s : State) (c : FaultCause) (w : CmdWord) (n : Nat) : (s.raiseFault c w n).wireRxIn = s.wireRxIn := rfl

@[simp] theorem State.raiseFault_callers (s : State) (c : FaultCause) (w : CmdWord) (n : Nat) : (s.raiseFault c w n).callers = s.callers := rfl

@[simp] theorem State.raiseFault_cur (s : State) (c : FaultCause) (w : CmdWord) (n : Nat) : (s.raiseFault c w n).cur = s.cur := rfl

@[simp] theorem State.raiseFault_schedule (s : State) (c : FaultCause) (w : CmdWord) (n : Nat) : (s.raiseFault c w n).schedule = s.schedule := rfl

@[simp] theorem State.raiseFault_draws (s : State) (c : FaultCause) (w : CmdWord) (n : Nat) : (s.raiseFault c w n).draws = s.draws := rfl

/-! ## `State.respond` -/

@[simp] theorem State.respond_cfg (s : State) (r : Response) : (s.respond r).cfg = s.cfg := rfl

@[simp] theorem State.respond_indCfg (s : State) (r : Response) : (s.respond r).indCfg = s.indCfg := rfl

@[simp] theorem State.respond_serCfg (s : State) (r : Response) : (s.respond r).serCfg = s.serCfg := rfl

@[simp] theorem State.respond_seq (s : State) (r : Response) : (s.respond r).seq = s.seq := rfl

@[simp] theorem State.respond_inflight (s : State) (r : Response) : (s.respond r).inflight = s.inflight := rfl

@[simp] theorem State.respond_fault (s : State) (r : Response) : (s.respond r).fault = s.fault := rfl

@[simp] theorem State.respond_faultInfo (s : State) (r : Response) : (s.respond r).faultInfo = s.faultInfo := rfl

@[simp] theorem State.respond_trace (s : State) (r : Response) : (s.respond r).trace = s.trace := rfl

@[simp] theorem State.respond_per (s : State) (r : Response) : (s.respond r).per = s.per := rfl

@[simp] theorem State.respond_txShift (s : State) (r : Response) : (s.respond r).txShift = s.txShift := rfl

@[simp] theorem State.respond_wireTx (s : State) (r : Response) : (s.respond r).wireTx = s.wireTx := rfl

@[simp] theorem State.respond_wireRxIn (s : State) (r : Response) : (s.respond r).wireRxIn = s.wireRxIn := rfl

@[simp] theorem State.respond_callers (s : State) (r : Response) : (s.respond r).callers = s.callers.modify s.cur fun c => c.receive r := rfl

@[simp] theorem State.respond_cur (s : State) (r : Response) : (s.respond r).cur = s.cur := rfl

@[simp] theorem State.respond_schedule (s : State) (r : Response) : (s.respond r).schedule = s.schedule := rfl

@[simp] theorem State.respond_draws (s : State) (r : Response) : (s.respond r).draws = s.draws := rfl

/-! ## `State.enterFlight` -/

@[simp] theorem State.enterFlight_cfg (s : State) (i : Instr) (ph : Phase) : (s.enterFlight i ph).cfg = s.cfg := rfl

@[simp] theorem State.enterFlight_indCfg (s : State) (i : Instr) (ph : Phase) : (s.enterFlight i ph).indCfg = s.indCfg := rfl

@[simp] theorem State.enterFlight_serCfg (s : State) (i : Instr) (ph : Phase) : (s.enterFlight i ph).serCfg = s.serCfg := rfl

@[simp] theorem State.enterFlight_seq (s : State) (i : Instr) (ph : Phase) : (s.enterFlight i ph).seq = s.seq := rfl

@[simp] theorem State.enterFlight_inflight (s : State) (i : Instr) (ph : Phase) : (s.enterFlight i ph).inflight = insertFlight { caller := s.cur, cmd := i, phase := ph } s.inflight := rfl

@[simp] theorem State.enterFlight_fault (s : State) (i : Instr) (ph : Phase) : (s.enterFlight i ph).fault = s.fault := rfl

@[simp] theorem State.enterFlight_faultInfo (s : State) (i : Instr) (ph : Phase) : (s.enterFlight i ph).faultInfo = s.faultInfo := rfl

@[simp] theorem State.enterFlight_trace (s : State) (i : Instr) (ph : Phase) : (s.enterFlight i ph).trace = s.trace := rfl

@[simp] theorem State.enterFlight_per (s : State) (i : Instr) (ph : Phase) : (s.enterFlight i ph).per = s.per := rfl

@[simp] theorem State.enterFlight_txShift (s : State) (i : Instr) (ph : Phase) : (s.enterFlight i ph).txShift = s.txShift := rfl

@[simp] theorem State.enterFlight_wireTx (s : State) (i : Instr) (ph : Phase) : (s.enterFlight i ph).wireTx = s.wireTx := rfl

@[simp] theorem State.enterFlight_wireRxIn (s : State) (i : Instr) (ph : Phase) : (s.enterFlight i ph).wireRxIn = s.wireRxIn := rfl

@[simp] theorem State.enterFlight_callers (s : State) (i : Instr) (ph : Phase) : (s.enterFlight i ph).callers = s.callers := rfl

@[simp] theorem State.enterFlight_cur (s : State) (i : Instr) (ph : Phase) : (s.enterFlight i ph).cur = s.cur := rfl

@[simp] theorem State.enterFlight_schedule (s : State) (i : Instr) (ph : Phase) : (s.enterFlight i ph).schedule = s.schedule := rfl

@[simp] theorem State.enterFlight_draws (s : State) (i : Instr) (ph : Phase) : (s.enterFlight i ph).draws = s.draws := rfl

/-! ## `State.leaveFlight` -/

@[simp] theorem State.leaveFlight_cfg (s : State) : (s.leaveFlight).cfg = s.cfg := rfl

@[simp] theorem State.leaveFlight_indCfg (s : State) : (s.leaveFlight).indCfg = s.indCfg := rfl

@[simp] theorem State.leaveFlight_serCfg (s : State) : (s.leaveFlight).serCfg = s.serCfg := rfl

@[simp] theorem State.leaveFlight_seq (s : State) : (s.leaveFlight).seq = s.seq := rfl

@[simp] theorem State.leaveFlight_inflight (s : State) : (s.leaveFlight).inflight = s.inflight.filter fun f => f.caller != s.cur := rfl

@[simp] theorem State.leaveFlight_fault (s : State) : (s.leaveFlight).fault = s.fault := rfl

@[simp] theorem State.leaveFlight_faultInfo (s : State) : (s.leaveFlight).faultInfo = s.faultInfo := rfl

@[simp] theorem State.leaveFlight_trace (s : State) : (s.leaveFlight).trace = s.trace := rfl

@[simp] theorem State.leaveFlight_per (s : State) : (s.leaveFlight).per = s.per := rfl

@[simp] theorem State.leaveFlight_txShift (s : State) : (s.leaveFlight).txShift = s.txShift := rfl

@[simp] theorem State.leaveFlight_wireTx (s : State) : (s.leaveFlight).wireTx = s.wireTx := rfl

@[simp] theorem State.leaveFlight_wireRxIn (s : State) : (s.leaveFlight).wireRxIn = s.wireRxIn := rfl

@[simp] theorem State.leaveFlight_callers (s : State) : (s.leaveFlight).callers = s.callers := rfl

@[simp] theorem State.leaveFlight_cur (s : State) : (s.leaveFlight).cur = s.cur := rfl

@[simp] theorem State.leaveFlight_schedule (s : State) : (s.leaveFlight).schedule = s.schedule := rfl

@[simp] theorem State.leaveFlight_draws (s : State) : (s.leaveFlight).draws = s.draws := rfl

/-! ## The callers and the peripherals -/

@[simp] theorem Caller.receive_last (c : Caller) (r : Response) : (c.receive r).last = some r := rfl

@[simp] theorem Caller.receive_prog (c : Caller) (r : Response) : (c.receive r).prog = c.prog := rfl

@[simp] theorem Caller.receive_status (c : Caller) (r : Response) : (c.receive r).status = c.status := rfl

@[simp] theorem Caller.restart_prog (c : Caller) : c.restart.prog = c.prog := rfl

@[simp] theorem Periph.modifyGpio_rcc (per : Periph) (p : Port) (f : Gpio → Gpio) : (per.modifyGpio p f).rcc = per.rcc := rfl

@[simp] theorem Periph.modifyGpio_uart (per : Periph) (p : Port) (f : Gpio → Gpio) : (per.modifyGpio p f).uart = per.uart := rfl

@[simp] theorem Periph.modifyGpio_other (per : Periph) (p : Port) (f : Gpio → Gpio) : (per.modifyGpio p f).other = per.other := rfl

theorem Periph.modifyGpio_self (per : Periph) (p : Port) (f : Gpio → Gpio) :
    (per.modifyGpio p f).gpio[p] = f per.gpio[p] := by
  simp [Periph.modifyGpio]

theorem Periph.modifyGpio_ne (per : Periph) (p q : Port) (f : Gpio → Gpio) (h : p ≠ q) :
    (per.modifyGpio p f).gpio[q] = per.gpio[q] := by
  have : p.val ≠ q.val := fun e => h (Fin.ext e)
  simp [Periph.modifyGpio, this]

end Sys2Proof.Machine
end

