-- ==== Sys2Proof/Laws/Fields.lean ====
section
/-! SUPPORT. A field written is read back, and every other field keeps its value (rule R63). -/

namespace Sys2Proof.Machine

open Sys2Proof Sys2Proof.Config

@[simp] theorem Mode.ofCode_code (m : Mode) : Mode.ofCode m.code = m := by cases m <;> rfl

theorem Mode.code_ofCode (c : BitVec 2) : (Mode.ofCode c).code = c := by
  revert c; decide

theorem OType.code_ofCode (c : BitVec 1) : (OType.ofCode c).code = c := by
  revert c; decide

theorem bitWord_getElem (v : Word) : bitWord v[0] = (v.extractLsb' 0 1).setWidth 32 := by
  apply BitVec.eq_of_getLsbD_eq
  intro i hi
  by_cases h : i = 0 <;> simp [bitWord, h, hi, BitVec.getLsbD_extractLsb']

/-- `FieldWrite` sets the field to the low bits of the value (rule R63). -/
theorem Periph.get_set_self (per : Periph) (f : Field) (v : Word) (hf : f.writable = true) :
    (per.set f v).get f = (v.extractLsb' 0 f.width).setWidth 32 := by
  cases f <;> simp [Field.writable] at hf <;>
    simp [Periph.set, Periph.get, Field.width, bitWord_getElem, Periph.modifyGpio, Mode.code_ofCode, OType.code_ofCode]

/-- `FieldWrite` leaves every other field (rule R63). -/
theorem Periph.get_set_ne (per : Periph) (f g : Field) (v : Word) (h : g ≠ f) : (per.set f v).get g = per.get g := by
  have key : ∀ {a b : Fin 16}, a ≠ b → ¬ (b.val = a.val) := fun h e => h (Fin.ext e.symm)
  cases f with
  | rccGpioEn p =>
    cases g <;> simp [Periph.set, Periph.get]
    rename_i q
    have := key (fun e : q = p => h (by rw [e]))
    simp [this]
  | gpioMode p i =>
    cases g <;> try rfl
    all_goals
      rename_i q j
      by_cases hp : q = p
      · subst hp
        simp [Periph.set, Periph.get, Periph.modifyGpio] <;>
          simp [key (fun e : j = i => h (by rw [e]))]
      · simp [Periph.set, Periph.get, Periph.modifyGpio, key hp]
  | gpioOtype p i =>
    cases g <;> try rfl
    all_goals
      rename_i q j
      by_cases hp : q = p
      · subst hp
        simp [Periph.set, Periph.get, Periph.modifyGpio] <;>
          simp [key (fun e : j = i => h (by rw [e]))]
      · simp [Periph.set, Periph.get, Periph.modifyGpio, key hp]
  | gpioAf p i =>
    cases g <;> try rfl
    all_goals
      rename_i q j
      by_cases hp : q = p
      · subst hp
        simp [Periph.set, Periph.get, Periph.modifyGpio] <;>
          simp [key (fun e : j = i => h (by rw [e]))]
      · simp [Periph.set, Periph.get, Periph.modifyGpio, key hp]
  | _ => cases g <;> simp_all [Periph.set, Periph.get]

@[simp] theorem Periph.set_other (per : Periph) (f : Field) (v : Word) : (per.set f v).other = per.other := by
  cases f <;> rfl

theorem mem_idx16 (i : Fin 16) : i ∈ idx16 := by revert i; decide

/-- `Field.all` misses no field. -/
theorem Field.mem_all (f : Field) : f ∈ Field.all := by
  have pin (p i : Fin 16) (x : Field) (hx : x ∈ [Field.gpioMode p i, .gpioOtype p i, .gpioOdr p i, .gpioAf p i]) : x ∈ Field.all :=
    List.mem_append_right _ (List.mem_flatMap.2 ⟨p, mem_idx16 p, List.mem_flatMap.2 ⟨i, mem_idx16 i, hx⟩⟩)
  cases f with
  | rccGpioEn p => exact List.mem_append_left _ (List.mem_append_right _ (List.mem_map_of_mem (mem_idx16 p)))
  | gpioMode p i => exact pin p i _ (by simp)
  | gpioOtype p i => exact pin p i _ (by simp)
  | gpioOdr p i => exact pin p i _ (by simp)
  | gpioAf p i => exact pin p i _ (by simp)
  | _ => exact List.mem_append_left _ (List.mem_append_left _ (by simp))

/-- The fields of a register are those the layout puts at its address. -/
theorem Layout.mem_fieldsAt {L : Layout} {addr : Word} {f : Field} : f ∈ L.fieldsAt addr ↔ (L.slot f).addr = addr := by
  simp [Layout.fieldsAt, Field.mem_all]

end Sys2Proof.Machine
end

