-- ==== Sys2Proof/Laws/Ops.lean ====
section
/-! SUPPORT. What each shared operation does, once: the set in flight, admission, the bus transactions, the sequencer, and the meaning
of a command by where its caller stands. -/

namespace Sys2Proof.Machine

open Sys2Proof Sys2Proof.Config

@[simp] theorem andThen_next {α β : Type} (a : α) (k : α → Host.Outcome β Fault Refusal) : andThen (.next a) k = k a := rfl

/-- `andThen` answers a next state only through one of its first operation. -/
theorem andThen_eq_next {α β : Type} {o : Host.Outcome α Fault Refusal} {k : α → Host.Outcome β Fault Refusal} {b : β} :
    andThen o k = .next b ↔ ∃ a, o = .next a ∧ k a = .next b := by
  cases o <;> simp [andThen]

/-! ## Commands in flight -/

theorem flightOf_eq_none {s : State} {k : Nat} : s.flightOf k = none ↔ ∀ f ∈ s.inflight, f.caller ≠ k := by
  simp [State.flightOf]

theorem flightOf_mem {s : State} {k : Nat} {f : Flight} (h : s.flightOf k = some f) : f ∈ s.inflight ∧ f.caller = k := by
  have := List.find?_some h
  exact ⟨List.mem_of_find?_eq_some h, by simpa using this⟩

/-- A command put in flight and taken out again leaves the set as it was. -/
theorem filter_insertFlight (f : Flight) (l : List Flight) (h : ∀ g ∈ l, g.caller ≠ f.caller) :
    (insertFlight f l).filter (fun g => g.caller != f.caller) = l := by
  induction l with
  | nil => simp [insertFlight]
  | cons g rest ih =>
    have hg : g.caller ≠ f.caller := h g (by simp)
    have hr : ∀ x ∈ rest, x.caller ≠ f.caller := fun x hx => h x (by simp [hx])
    have hf : rest.filter (fun g => g.caller != f.caller) = rest := by
      rw [List.filter_eq_self]
      intro x hx
      simpa using hr x hx
    by_cases hlt : f.caller < g.caller
    · simp [insertFlight, hlt, hg, hf]
    · simp [insertFlight, hlt, hg, ih hr]

/-- A command put in flight is the one its caller has in flight. -/
theorem find_insertFlight (f : Flight) (l : List Flight) (h : ∀ g ∈ l, g.caller ≠ f.caller) :
    (insertFlight f l).find? (fun g => g.caller == f.caller) = some f := by
  induction l with
  | nil => simp [insertFlight]
  | cons g rest ih =>
    have hg : g.caller ≠ f.caller := h g (by simp)
    by_cases hlt : f.caller < g.caller
    · simp [insertFlight, hlt]
    · simp [insertFlight, hlt, hg, ih fun x hx => h x (by simp [hx])]

theorem mem_insertFlight {f g : Flight} {l : List Flight} : g ∈ insertFlight f l ↔ g = f ∨ g ∈ l := by
  induction l with
  | nil => simp [insertFlight]
  | cons x rest ih =>
    by_cases hlt : f.caller < x.caller
    · simp [insertFlight, hlt]
    · simp only [insertFlight, hlt, if_false, List.mem_cons, ih]
      tauto

/-! ## A command by where its caller stands -/

theorem perform_faulted {i : Instr} {check first later} {s : State} (h : s.fault ≠ none) : perform i check first later s = .next s := by
  simp [perform, Option.isSome_iff_ne_none, h]

/-- With nothing in the way the command's own check decides. -/
theorem perform_free {i : Instr} {check first later} {s : State} (h : s.Free i) :
    perform i check first later s =
      match check s with
      | some c => .next (s.raiseFault c (encode i) 0)
      | none => first s := by
  obtain ⟨hf, hn, hc⟩ := h
  cases hk : check s <;> simp [perform, hf, hn, admission, hc, hk]

theorem perform_flying {i : Instr} {check first later} {s : State} {ph : Phase} (h : s.Flying i ph) :
    perform i check first later s = later ph s := by
  simp [perform, h.1, h.2]

/-- What `perform` can do: nothing once faulted; a fault of admission; micro-step 1; a later micro-step. -/
theorem perform_cases {i : Instr} {check first later} {s t : State} (h : perform i check first later s = .next t) :
    (s.fault ≠ none ∧ t = s) ∨
    (s.fault = none ∧ s.flightOf s.cur = none ∧
      ((s.conflict s.cur i = true ∧ t = s.raiseFault .concurrentAccess (encode i) 0) ∨
        (s.conflict s.cur i = false ∧ ∃ c, check s = some c ∧ t = s.raiseFault c (encode i) 0) ∨
        (s.conflict s.cur i = false ∧ check s = none ∧ first s = .next t))) ∨
    (s.fault = none ∧ ∃ ph, s.flightOf s.cur = some ⟨s.cur, i, ph⟩ ∧ later ph s = .next t) := by
  unfold perform at h
  cases hf : s.fault with
  | some c =>
    left
    simp [hf] at h
    exact ⟨by simp, h.symm⟩
  | none =>
    right
    simp only [hf, Option.isSome_none, Bool.false_eq_true, if_false] at h
    cases hn : s.flightOf s.cur with
    | none =>
      left
      refine ⟨rfl, rfl, ?_⟩
      simp only [hn, admission] at h
      cases hc : s.conflict s.cur i with
      | true =>
        simp [hc] at h
        exact .inl ⟨rfl, h.symm⟩
      | false =>
        right
        simp only [hc, Bool.false_eq_true, if_false] at h
        cases hk : check s with
        | some c =>
          simp [hk] at h
          exact .inl ⟨rfl, c, rfl, h.symm⟩
        | none =>
          simp [hk] at h
          exact .inr ⟨rfl, rfl, h⟩
    | some f =>
      right
      refine ⟨rfl, ?_⟩
      simp only [hn] at h
      by_cases hi : f.cmd = i
      · simp only [hi, if_true] at h
        obtain ⟨-, hc⟩ := flightOf_mem hn
        obtain ⟨c, j, ph⟩ := f
        exact ⟨ph, by rw [← hi, ← hc], h⟩
      · simp [hi] at h

/-! ## Bus transactions -/

theorem fieldWrite_clocked {f : Field} {v : Word} {s : State} (h : s.per.clocked f = true) :
    fieldWrite f v s = .next { s with per := s.per.set f v, trace := s.trace ++ [.w f v] } := by
  simp [fieldWrite, h, State.emit]

theorem fieldWrite_eq_next {f : Field} {v : Word} {s t : State} (h : fieldWrite f v s = .next t) :
    s.per.clocked f = true ∧ t = { s with per := s.per.set f v, trace := s.trace ++ [.w f v] } := by
  unfold fieldWrite at h
  split at h
  · rename_i hc
    simp only [Host.Outcome.next.injEq] at h
    exact ⟨hc, h.symm⟩
  · simp at h

theorem readSr_eq_next {s : State} {r : Word × State} (h : readSr s = .next r) :
    s.per.rcc.uartEn = true ∧ r = (srWord s.cfg.layout s.per.uart (freeWord s.draws),
      { s with draws := s.draws + 1, trace := s.trace ++ [.rd .sr (srWord s.cfg.layout s.per.uart (freeWord s.draws))] }) := by
  unfold readSr at h
  split at h
  · rename_i hc
    simp only [Host.Outcome.next.injEq] at h
    exact ⟨hc, h.symm⟩
  · simp at h

theorem readDr_eq_next {s : State} {r : Word × State} (h : readDr s = .next r) :
    s.per.rcc.uartEn = true ∧ r = (drWord s.per.uart (freeWord s.draws),
      { s with
        per := { s.per with uart := s.per.uart.afterRead (s.draws + 1) }
        draws := s.draws + 4
        trace := s.trace ++ [.rd .dr (drWord s.per.uart (freeWord s.draws))] }) := by
  unfold readDr at h
  split at h
  · rename_i hc
    simp only [Host.Outcome.next.injEq] at h
    exact ⟨hc, h.symm⟩
  · simp at h

theorem writeDr_eq_next {w : Word} {s t : State} (h : writeDr w s = .next t) :
    s.per.rcc.uartEn = true ∧ t = { s with
      per := { s.per with uart := s.per.uart.afterWrite (wordByte w) }, trace := s.trace ++ [.wr .dr w] } := by
  unfold writeDr at h
  split at h
  · rename_i hc
    simp only [Host.Outcome.next.injEq] at h
    exact ⟨hc, h.symm⟩
  · simp at h

theorem writeBrr_eq_next {w : Word} {s t : State} (h : writeBrr w s = .next t) :
    s.per.rcc.uartEn = true ∧ t = { s with per := s.per.set .uartBrr w, trace := s.trace ++ [.wr .brr w] } := by
  unfold writeBrr at h
  split at h
  · rename_i hc
    simp only [Host.Outcome.next.injEq] at h
    exact ⟨hc, h.symm⟩
  · simp at h

theorem writeBsrr_eq_next {p : Port} {w : Word} {s t : State} (h : writeBsrr p w s = .next t) :
    s.per.rcc.gpioEn[p] = true ∧ t = { s with
      per := s.per.modifyGpio p fun g => { g with odr := bsrrEffect g.odr w }, trace := s.trace ++ [.wr (.bsrr p) w] } := by
  unfold writeBsrr at h
  split at h
  · rename_i hc
    simp only [Host.Outcome.next.injEq] at h
    exact ⟨hc, h.symm⟩
  · simp at h

@[simp] theorem wordByte_byteWord (b : Byte) : wordByte (byteWord b) = b := by
  simp only [wordByte, byteWord]
  apply BitVec.eq_of_toNat_eq
  simpa using b.isLt

theorem wordByte_drWord (u : Uart) (drawn : Word) : wordByte (drWord u drawn) = drByte u drawn := by
  simp only [wordByte, drWord]
  apply BitVec.eq_of_getLsbD_eq
  intro i hi
  have h := BitVec.getLsbD_append (x := drawn.extractLsb' 8 24) (y := drByte u drawn) (i := i)
  simp only [hi, if_true] at h
  simpa [hi] using h

/-- A whole-register write leaves the byte store, or writes one word of it. -/
theorem setWordAt_other (per : Periph) (L : Layout) (addr w : Word) :
    (per.setWordAt L addr w).other = Memory.write32 per.other addr.toNat (w &&& ~~~L.namedBits addr) := by
  have key : ∀ (l : List Field) (q : Periph), (l.foldl (fun q f => q.set f ((L.slot f).take w)) q).other = q.other := by
    intro l
    induction l with
    | nil => intro q; rfl
    | cons f rest ih => intro q; rw [List.foldl_cons, ih, Periph.set_other]
  simp only [Periph.setWordAt, key]

theorem readBrr_eq_next {s : State} {r : Word × State} (h : readBrr s = .next r) :
    s.per.rcc.uartEn = true ∧ r = (brrWord s.per.uart (freeWord s.draws),
      { s with draws := s.draws + 1, trace := s.trace ++ [.rd .brr (brrWord s.per.uart (freeWord s.draws))] }) := by
  unfold readBrr at h
  split at h
  · rename_i hc
    simp only [Host.Outcome.next.injEq] at h
    exact ⟨hc, h.symm⟩
  · simp at h

theorem readBsrr_eq_next {p : Port} {s : State} {r : Word × State} (h : readBsrr p s = .next r) :
    s.per.rcc.gpioEn[p] = true ∧ r = (0, { s with trace := s.trace ++ [.rd (.bsrr p) 0] }) := by
  unfold readBsrr at h
  split at h
  · rename_i hc
    simp only [Host.Outcome.next.injEq] at h
    exact ⟨hc, h.symm⟩
  · simp at h

theorem readWord_eq_next {addr : Word} {s : State} {r : Word × State} (h : readWord addr s = .next r) :
    (s.cfg.layout.fieldsAt addr).all s.per.clocked = true ∧ r = (s.per.wordAt s.cfg.layout addr,
      { s with trace := s.trace ++ [.rd (.word addr) (s.per.wordAt s.cfg.layout addr)] }) := by
  unfold readWord at h
  split at h
  · rename_i hc
    simp only [Host.Outcome.next.injEq] at h
    exact ⟨hc, h.symm⟩
  · simp at h

theorem writeWord_eq_next {addr w : Word} {s t : State} (h : writeWord addr w s = .next t) :
    (s.cfg.layout.fieldsAt addr).all s.per.clocked = true ∧ (s.cfg.layout.fieldsAt addr).all Field.writable = true ∧
      t = { s with per := s.per.setWordAt s.cfg.layout addr w, trace := s.trace ++ [.wr (.word addr) w] } := by
  unfold writeWord at h
  split at h
  · simp at h
  · rename_i hc
    split at h
    · simp at h
    · rename_i hw
      simp only [Host.Outcome.next.injEq] at h
      exact ⟨by simpa using hc, by simpa using hw, h.symm⟩

/-- `atRegister` goes on only at an aligned address of the layout (rules R60, R62). -/
theorem atRegister_eq_next {α : Type} {addr : Word} {s : State} {k : BusReg → Host.Outcome α Fault Refusal} {a : α}
    (h : atRegister addr s k = .next a) : addr.toNat % 4 = 0 ∧ ∃ r, s.cfg.layout.regAt addr = some r ∧ k r = .next a := by
  unfold atRegister at h
  split at h
  · simp at h
  · rename_i ha
    cases hr : s.cfg.layout.regAt addr with
    | none => simp [hr] at h
    | some r =>
      simp only [hr] at h
      exact ⟨by omega, r, rfl, h⟩

/-- A bus write is the write of one register of the layout: the one named, or the one at the address named. -/
theorem busWrite_cases {r : BusReg} {w : Word} {s t : State} (h : busWrite r w s = .next t) :
    ∃ q, regWrite q w s = .next t := by
  cases r with
  | word addr =>
    obtain ⟨-, q, -, h⟩ := atRegister_eq_next h
    exact ⟨q, h⟩
  | sr => exact ⟨.sr, h⟩
  | dr => exact ⟨.dr, h⟩
  | brr => exact ⟨.brr, h⟩
  | bsrr p => exact ⟨.bsrr p, h⟩

/-- What a register's write can do to the byte store. -/
theorem regWrite_other {r : BusReg} {w : Word} {s t : State} (h : regWrite r w s = .next t) :
    t.per.other = s.per.other ∨ ∃ a v, t.per.other = Memory.write32 s.per.other a v := by
  cases r with
  | sr => simp [regWrite] at h
  | dr =>
    obtain ⟨-, rfl⟩ := writeDr_eq_next h
    exact .inl rfl
  | brr =>
    obtain ⟨-, rfl⟩ := writeBrr_eq_next h
    exact .inl rfl
  | bsrr p =>
    obtain ⟨-, rfl⟩ := writeBsrr_eq_next h
    exact .inl rfl
  | word addr =>
    obtain ⟨-, -, rfl⟩ := writeWord_eq_next h
    exact .inr ⟨_, _, setWordAt_other _ _ _ _⟩

/-- What a memory write can do: the register's write, at an aligned address of the layout (rules R60, R62). -/
theorem memWrite_cases {addr w : Word} {s t : State} (h : memWrite addr w s = .next t) :
    addr.toNat % 4 = 0 ∧ ∃ r, s.cfg.layout.regAt addr = some r ∧ regWrite r w s = .next t := atRegister_eq_next h

/-- What a memory read can do: the register's read, at an aligned address of the layout (rules R60, R62). -/
theorem memRead_cases {addr : Word} {s : State} {a : Word × State} (h : memRead addr s = .next a) :
    addr.toNat % 4 = 0 ∧ ∃ r, s.cfg.layout.regAt addr = some r ∧ regRead r s = .next a := atRegister_eq_next h

/-! ## The sequencer -/

theorem exec_indInit_free {s : State} (h : s.Free .indInit) :
    exec .indInit s = seqStart .indInit .indInit (indInitOps s.cfg) indInitFinish s := by
  simp only [exec, execIndInit, perform_free h, noCheck]

theorem exec_indInit_flying {s : State} (h : s.Flying .indInit .configuring) :
    exec .indInit s = seqStep .indInit .indInit (indInitOps s.cfg) indInitFinish s := by
  simp only [exec, execIndInit, perform_flying h, seqLater]

theorem exec_serInit_free {s : State} {baud : BitVec 32} (h : s.Free (.serInit baud)) :
    exec (.serInit baud) s = seqStart (.serInit baud) .serInit (serInitOps s.cfg baud) serInitFinish s := by
  simp only [exec, execSerInit, perform_free h, noCheck]

theorem exec_serInit_flying {s : State} {baud : BitVec 32} (h : s.Flying (.serInit baud) .configuring) :
    exec (.serInit baud) s = seqStep (.serInit baud) .serInit (serInitOps s.cfg baud) serInitFinish s := by
  simp only [exec, execSerInit, perform_flying h, seqLater]

/-- The sequencer at a field write that is not the last micro-step. -/
theorem seqStep_field {i : Instr} {cmd : InitCmd} {ops : List MicroOp} {finish : State → State} {s : State} {n : Nat}
    {d : Option (BitVec 16)} {f : Field} {v : Word} (hq : s.seq = some ⟨s.cur, cmd, n, d⟩) (ho : ops[n]? = some (.field f v))
    (hn : n + 1 < ops.length) (hc : s.per.clocked f = true) :
    seqStep i cmd ops finish s = .next { s with
      seq := some ⟨s.cur, cmd, n + 1, d⟩, trace := s.trace ++ [.w f v], per := s.per.set f v } := by
  have : ¬ (n + 1 = ops.length) := by omega
  simp [seqStep, hq, ho, runOp, fieldWrite_clocked hc, State.advance, this]

/-- The sequencer at the last micro-step, a field write: the command ends. -/
theorem seqStep_last {i : Instr} {cmd : InitCmd} {ops : List MicroOp} {finish : State → State} {s : State} {n : Nat}
    {d : Option (BitVec 16)} {f : Field} {v : Word} (hq : s.seq = some ⟨s.cur, cmd, n, d⟩) (ho : ops[n]? = some (.field f v))
    (hn : n + 1 = ops.length) (hc : s.per.clocked f = true) :
    seqStep i cmd ops finish s = .next
      ((finish { s with seq := none, trace := s.trace ++ [.w f v], per := s.per.set f v }).leaveFlight.respond .ok) := by
  simp [seqStep, hq, ho, runOp, fieldWrite_clocked hc, State.advance, hn]

/-- The sequencer at the calculation, with an accepted divisor. -/
theorem seqStep_calc {i : Instr} {cmd : InitCmd} {ops : List MicroOp} {finish : State → State} {s : State} {n : Nat}
    {d : Option (BitVec 16)} {baud : BitVec 32} {D : BitVec 16} (hq : s.seq = some ⟨s.cur, cmd, n, d⟩)
    (ho : ops[n]? = some (.latchDivisor baud)) (hn : n + 1 < ops.length) (hd : brrCalc s.cfg.tieRule s.cfg.pclkHz baud = .ok D) :
    seqStep i cmd ops finish s = .next { s with seq := some ⟨s.cur, cmd, n + 1, some D⟩ } := by
  have : ¬ (n + 1 = ops.length) := by omega
  simp [seqStep, hq, ho, runOp, hd, State.advance, this]

/-- The sequencer at the calculation, with a refused divisor. -/
theorem seqStep_calc_err {i : Instr} {cmd : InitCmd} {ops : List MicroOp} {finish : State → State} {s : State} {n : Nat}
    {d : Option (BitVec 16)} {baud : BitVec 32} {c : FaultCause} (hq : s.seq = some ⟨s.cur, cmd, n, d⟩)
    (ho : ops[n]? = some (.latchDivisor baud)) (hd : brrCalc s.cfg.tieRule s.cfg.pclkHz baud = .err c) :
    seqStep i cmd ops finish s = .next (s.raiseFault c (encode i) (n + 1)) := by
  simp [seqStep, hq, ho, runOp, hd]

/-- The sequencer at the divisor's write. -/
theorem seqStep_store {i : Instr} {cmd : InitCmd} {ops : List MicroOp} {finish : State → State} {s : State} {n : Nat}
    {D : BitVec 16} (hq : s.seq = some ⟨s.cur, cmd, n, some D⟩) (ho : ops[n]? = some .storeDivisor)
    (hn : n + 1 < ops.length) (hc : s.per.rcc.uartEn = true) :
    seqStep i cmd ops finish s = .next { s with
      seq := some ⟨s.cur, cmd, n + 1, some D⟩
      trace := s.trace ++ [.wr .brr (D.setWidth 32)]
      per := { s.per with uart := { s.per.uart with brr := D } } } := by
  have : ¬ (n + 1 = ops.length) := by omega
  have hb : (D.setWidth 32).extractLsb' 0 16 = D := by
    apply BitVec.eq_of_toNat_eq
    simpa using D.isLt
  simp [seqStep, hq, ho, runOp, writeBrr, hc, State.advance, this, State.emit, Periph.set, hb]

end Sys2Proof.Machine
end

