-- ==== Sys2Proof/Laws/Exec.lean ====
section
/-! SUPPORT. What one `exec` of each command can do when it answers a next state, once per command: the inversion lemmas every frame
and invariant goes through. -/

namespace Sys2Proof.Machine

open Sys2Proof Sys2Proof.Config

/-- What one micro-step of an init can do. -/
theorem runOp_cases {i : Instr} {op : MicroOp} {q : Seq} {last : Bool} {finish : State → State} {s t : State}
    (h : runOp i op q last finish s = .next t) :
    (∃ f v, op = .field f v ∧ s.per.clocked f = true ∧
      t = State.advance { s with per := s.per.set f v, trace := s.trace ++ [.w f v] } q last finish) ∨
    (∃ baud d, op = .latchDivisor baud ∧ brrCalc s.cfg.tieRule s.cfg.pclkHz baud = .ok d ∧
      t = s.advance { q with d := some d } last finish) ∨
    (∃ baud c, op = .latchDivisor baud ∧ brrCalc s.cfg.tieRule s.cfg.pclkHz baud = .err c ∧
      t = s.raiseFault c (encode i) (q.step + 1)) ∨
    (∃ d, op = .storeDivisor ∧ q.d = some d ∧ s.per.rcc.uartEn = true ∧
      t = State.advance { s with
        per := s.per.set .uartBrr (d.setWidth 32), trace := s.trace ++ [.wr .brr (d.setWidth 32)] } q last finish) := by
  cases op with
  | field f v =>
    obtain ⟨a, ha, hb⟩ := andThen_eq_next.1 h
    obtain ⟨hc, rfl⟩ := fieldWrite_eq_next ha
    simp only [Host.Outcome.next.injEq] at hb
    exact .inl ⟨f, v, rfl, hc, hb.symm⟩
  | latchDivisor baud =>
    simp only [runOp] at h
    cases hd : brrCalc s.cfg.tieRule s.cfg.pclkHz baud with
    | ok d =>
      simp only [hd, Host.Outcome.next.injEq] at h
      exact .inr (.inl ⟨baud, d, rfl, hd, h.symm⟩)
    | err c =>
      simp only [hd, Host.Outcome.next.injEq] at h
      exact .inr (.inr (.inl ⟨baud, c, rfl, hd, h.symm⟩))
  | storeDivisor =>
    simp only [runOp] at h
    cases hd : q.d with
    | none => simp [hd] at h
    | some d =>
      simp only [hd] at h
      obtain ⟨a, ha, hb⟩ := andThen_eq_next.1 h
      obtain ⟨hc, rfl⟩ := writeBrr_eq_next ha
      simp only [Host.Outcome.next.injEq] at hb
      exact .inr (.inr (.inr ⟨d, rfl, rfl, hc, hb.symm⟩))

/-- The sequencer performs the micro-step it stands at, and only its own caller's. -/
theorem seqStep_cases {i : Instr} {cmd : InitCmd} {ops : List MicroOp} {finish : State → State} {s t : State}
    (h : seqStep i cmd ops finish s = .next t) :
    ∃ n d op, s.seq = some ⟨s.cur, cmd, n, d⟩ ∧ ops[n]? = some op ∧
      runOp i op ⟨s.cur, cmd, n, d⟩ (n + 1 == ops.length) finish s = .next t := by
  unfold seqStep at h
  cases hs : s.seq with
  | none => simp [hs] at h
  | some q =>
    simp only [hs] at h
    split at h
    · rename_i hq
      obtain ⟨k, c, n, d⟩ := q
      obtain ⟨rfl, rfl⟩ := hq
      cases ho : ops[n]? with
      | none => simp [ho] at h
      | some op =>
        simp only [ho] at h
        exact ⟨n, d, op, rfl, ho, h⟩
    · simp at h

theorem indInitOps_length (p : Params) : (indInitOps p).length = 9 := rfl

theorem serInitOps_length (p : Params) (baud : BitVec 32) : (serInitOps p baud).length = 18 := rfl

/-- The micro-steps of `IND_INIT` are the rows of its table. -/
theorem indInitOps_get {p : Params} {n : Nat} {op : MicroOp} (h : (indInitOps p)[n]? = some op) :
    ∃ f v, op = .field f v ∧ (n + 1, f, v) ∈ indInitTable p := by
  have hn : n < 9 := by
    have := (List.getElem?_eq_some_iff.1 h).1
    rwa [indInitOps_length] at this
  interval_cases n <;> simp [indInitOps] at h <;> subst h <;> exact ⟨_, _, rfl, by simp [indInitTable]; try rfl⟩

theorem indInitTable_get {p : Params} {n : Nat} {f : Field} {v : Word} (h : (n + 1, f, v) ∈ indInitTable p) :
    (indInitOps p)[n]? = some (.field f v) := by
  simp only [indInitTable, List.mem_cons, Prod.mk.injEq, List.not_mem_nil, or_false] at h
  rcases h with ⟨hn, rfl, rfl⟩ | ⟨hn, rfl, rfl⟩ | ⟨hn, rfl, rfl⟩ | ⟨hn, rfl, rfl⟩ | ⟨hn, rfl, rfl⟩ | ⟨hn, rfl, rfl⟩ |
    ⟨hn, rfl, rfl⟩ | ⟨hn, rfl, rfl⟩ | ⟨hn, rfl, rfl⟩ <;> obtain rfl := Nat.succ.inj hn <;> rfl

/-- The micro-steps of `SER_INIT` are the rows of its table, the calculation at 13 and the divisor's write at 14. -/
theorem serInitOps_get {p : Params} {baud : BitVec 32} {n : Nat} {op : MicroOp} (h : (serInitOps p baud)[n]? = some op) :
    (∃ f v, op = .field f v ∧ (n + 1, f, v) ∈ serInitTable p) ∨ (n = 12 ∧ op = .latchDivisor baud) ∨ (n = 13 ∧ op = .storeDivisor) := by
  have hn : n < 18 := by
    have := (List.getElem?_eq_some_iff.1 h).1
    rwa [serInitOps_length] at this
  interval_cases n <;> simp [serInitOps] at h <;> subst h <;>
    first
      | exact .inl ⟨_, _, rfl, by simp [serInitTable]; try rfl⟩
      | exact .inr (.inl ⟨rfl, rfl⟩)
      | exact .inr (.inr ⟨rfl, rfl⟩)

theorem serInitTable_get {p : Params} {baud : BitVec 32} {n : Nat} {f : Field} {v : Word}
    (h : (n + 1, f, v) ∈ serInitTable p) : (serInitOps p baud)[n]? = some (.field f v) := by
  simp only [serInitTable, List.mem_cons, Prod.mk.injEq, List.not_mem_nil, or_false] at h
  rcases h with ⟨hn, rfl, rfl⟩ | ⟨hn, rfl, rfl⟩ | ⟨hn, rfl, rfl⟩ | ⟨hn, rfl, rfl⟩ | ⟨hn, rfl, rfl⟩ | ⟨hn, rfl, rfl⟩ |
    ⟨hn, rfl, rfl⟩ | ⟨hn, rfl, rfl⟩ | ⟨hn, rfl, rfl⟩ | ⟨hn, rfl, rfl⟩ | ⟨hn, rfl, rfl⟩ | ⟨hn, rfl, rfl⟩ | ⟨hn, rfl, rfl⟩ |
    ⟨hn, rfl, rfl⟩ | ⟨hn, rfl, rfl⟩ | ⟨hn, rfl, rfl⟩ <;> obtain rfl := Nat.succ.inj hn <;> rfl

/-- What `IND_INIT` can do. -/
theorem exec_indInit_cases {s t : State} (h : exec .indInit s = .next t) :
    (s.fault ≠ none ∧ t = s) ∨
    (s.fault = none ∧ s.flightOf s.cur = none ∧ s.conflict s.cur .indInit = true ∧
      t = s.raiseFault .concurrentAccess (encode .indInit) 0) ∨
    (s.Free .indInit ∧ t = { s with
      inflight := insertFlight ⟨s.cur, .indInit, .configuring⟩ s.inflight
      seq := some ⟨s.cur, .indInit, 1, none⟩
      trace := s.trace ++ [.w (.rccGpioEn s.cfg.indPort) 1]
      per := s.per.set (.rccGpioEn s.cfg.indPort) 1 }) ∨
    (s.Flying .indInit .configuring ∧ ∃ n d f v, s.seq = some ⟨s.cur, .indInit, n, d⟩ ∧ (n + 1, f, v) ∈ indInitTable s.cfg ∧
      s.per.clocked f = true ∧
      ((n + 1 < 9 ∧ t = { s with
        seq := some ⟨s.cur, .indInit, n + 1, d⟩, trace := s.trace ++ [.w f v], per := s.per.set f v }) ∨
      (n + 1 = 9 ∧ t = { s with
        indCfg := true
        seq := none
        inflight := s.inflight.filter fun g => g.caller != s.cur
        trace := s.trace ++ [.w f v]
        per := s.per.set f v
        callers := s.callers.modify s.cur fun c => c.receive .ok }))) := by
  rcases perform_cases h with h | ⟨hf, hn, h⟩ | ⟨hf, ph, hn, h⟩
  · exact .inl h
  · rcases h with ⟨hc, ht⟩ | ⟨hc, c, hk, ht⟩ | ⟨hc, -, ht⟩
    · exact .inr (.inl ⟨hf, hn, hc, ht⟩)
    · simp [noCheck] at hk
    · refine .inr (.inr (.inl ⟨⟨hf, hn, hc⟩, ?_⟩))
      have : seqStep .indInit .indInit (indInitOps s.cfg) indInitFinish
          { s.enterFlight .indInit .configuring with seq := some ⟨s.cur, .indInit, 0, none⟩ } = .next _ :=
        seqStep_field (d := none) (n := 0) rfl rfl (by rw [indInitOps_length]; decide) rfl
      rw [seqStart, this] at ht
      exact (Host.Outcome.next.inj ht).symm
  · refine .inr (.inr (.inr ?_))
    cases ph with
    | statusSampled b => simp [seqLater] at h
    | configuring =>
      refine ⟨⟨hf, hn⟩, ?_⟩
      obtain ⟨n, d, op, hq, ho, hr⟩ := seqStep_cases h
      obtain ⟨f, v, rfl, hm⟩ := indInitOps_get ho
      have hlt := (List.getElem?_eq_some_iff.1 ho).1
      rw [indInitOps_length] at hlt
      obtain ⟨f', v', he, hc, rfl⟩ | ⟨_, _, he, _⟩ | ⟨_, _, he, _⟩ | ⟨_, he, _⟩ := runOp_cases hr <;> simp at he
      obtain ⟨rfl, rfl⟩ := he
      refine ⟨n, d, f, v, hq, hm, hc, ?_⟩
      by_cases h9 : n + 1 = 9
      · exact .inr ⟨h9, by simp [State.advance, indInitOps_length, h9, indInitFinish, State.leaveFlight, State.respond]⟩
      · exact .inl ⟨by omega, by simp [State.advance, indInitOps_length, show ¬ n = 8 by omega]⟩

/-- What `SER_INIT` can do. -/
theorem exec_serInit_cases {s t : State} {baud : BitVec 32} (h : exec (.serInit baud) s = .next t) :
    (s.fault ≠ none ∧ t = s) ∨
    (s.fault = none ∧ s.flightOf s.cur = none ∧ s.conflict s.cur (.serInit baud) = true ∧
      t = s.raiseFault .concurrentAccess (encode (.serInit baud)) 0) ∨
    (s.Free (.serInit baud) ∧ t = { s with
      inflight := insertFlight ⟨s.cur, .serInit baud, .configuring⟩ s.inflight
      seq := some ⟨s.cur, .serInit, 1, none⟩
      trace := s.trace ++ [.w .rccUartEn 1]
      per := s.per.set .rccUartEn 1 }) ∨
    (s.Flying (.serInit baud) .configuring ∧ ∃ n d, s.seq = some ⟨s.cur, .serInit, n, d⟩ ∧ n < 18 ∧
      ((∃ f v, (n + 1, f, v) ∈ serInitTable s.cfg ∧ s.per.clocked f = true ∧
        ((n + 1 < 18 ∧ t = { s with
          seq := some ⟨s.cur, .serInit, n + 1, d⟩, trace := s.trace ++ [.w f v], per := s.per.set f v }) ∨
        (n + 1 = 18 ∧ t = { s with
          serCfg := .configured
          seq := none
          inflight := s.inflight.filter fun g => g.caller != s.cur
          trace := s.trace ++ [.w f v]
          per := s.per.set f v
          callers := s.callers.modify s.cur fun c => c.receive .ok }))) ∨
      (n = 12 ∧ ∃ D, brrCalc s.cfg.tieRule s.cfg.pclkHz baud = .ok D ∧ t = { s with seq := some ⟨s.cur, .serInit, 13, some D⟩ }) ∨
      (n = 12 ∧ ∃ c, brrCalc s.cfg.tieRule s.cfg.pclkHz baud = .err c ∧ t = s.raiseFault c (encode (.serInit baud)) 13) ∨
      (n = 13 ∧ s.per.rcc.uartEn = true ∧ ∃ D, d = some D ∧ t = { s with
        seq := some ⟨s.cur, .serInit, 14, d⟩
        trace := s.trace ++ [.wr .brr (D.setWidth 32)]
        per := s.per.set .uartBrr (D.setWidth 32) }))) := by
  rcases perform_cases h with h | ⟨hf, hn, h⟩ | ⟨hf, ph, hn, h⟩
  · exact .inl h
  · rcases h with ⟨hc, ht⟩ | ⟨hc, c, hk, ht⟩ | ⟨hc, -, ht⟩
    · exact .inr (.inl ⟨hf, hn, hc, ht⟩)
    · simp [noCheck] at hk
    · refine .inr (.inr (.inl ⟨⟨hf, hn, hc⟩, ?_⟩))
      have : seqStep (.serInit baud) .serInit (serInitOps s.cfg baud) serInitFinish
          { s.enterFlight (.serInit baud) .configuring with seq := some ⟨s.cur, .serInit, 0, none⟩ } = .next _ :=
        seqStep_field (d := none) (n := 0) rfl rfl (by rw [serInitOps_length]; decide) rfl
      rw [seqStart, this] at ht
      exact (Host.Outcome.next.inj ht).symm
  · refine .inr (.inr (.inr ?_))
    cases ph with
    | statusSampled b => simp [seqLater] at h
    | configuring =>
      refine ⟨⟨hf, hn⟩, ?_⟩
      obtain ⟨n, d, op, hq, ho, hr⟩ := seqStep_cases h
      have hlt := (List.getElem?_eq_some_iff.1 ho).1
      rw [serInitOps_length] at hlt
      refine ⟨n, d, hq, hlt, ?_⟩
      rcases serInitOps_get ho with ⟨f, v, rfl, hm⟩ | ⟨rfl, rfl⟩ | ⟨rfl, rfl⟩
      · obtain ⟨f', v', he, hc, rfl⟩ | ⟨_, _, he, _⟩ | ⟨_, _, he, _⟩ | ⟨_, he, _⟩ := runOp_cases hr <;> simp at he
        obtain ⟨rfl, rfl⟩ := he
        refine .inl ⟨f, v, hm, hc, ?_⟩
        by_cases h18 : n + 1 = 18
        · exact .inr ⟨h18, by simp [State.advance, serInitOps_length, h18, serInitFinish, State.leaveFlight, State.respond]⟩
        · exact .inl ⟨by omega, by simp [State.advance, serInitOps_length, show ¬ n = 17 by omega]⟩
      · obtain ⟨_, _, he, _⟩ | ⟨b, D, he, hd, rfl⟩ | ⟨b, c, he, hd, rfl⟩ | ⟨_, he, _⟩ := runOp_cases hr <;> simp at he
        · obtain rfl := he
          exact .inr (.inl ⟨rfl, D, hd, by simp [State.advance, serInitOps_length]⟩)
        · obtain rfl := he
          exact .inr (.inr (.inl ⟨rfl, c, hd, rfl⟩))
      · obtain ⟨_, _, he, _⟩ | ⟨_, _, he, _⟩ | ⟨_, _, he, _⟩ | ⟨D, -, hd, hu, rfl⟩ := runOp_cases hr
        · simp at he
        · simp at he
        · simp at he
        · simp only at hd
          exact .inr (.inr (.inr ⟨rfl, hu, D, hd, by simp [State.advance, serInitOps_length]⟩))

/-- What `IND_ON` (word `setWord`) and `IND_OFF` (word `clearWord`) can do. -/
theorem lineWrite_cases {line : BitVec 32} {word : Pin → Word} {s t : State} (h : lineWrite line word s = .next t) :
    s.per.rcc.gpioEn[s.cfg.indPort] = true ∧ t = { s with
      trace := s.trace ++ [.wr (.bsrr s.cfg.indPort) (word (linePin s.cfg (lineIdx line)))]
      per := s.per.modifyGpio s.cfg.indPort fun g => { g with odr := bsrrEffect g.odr (word (linePin s.cfg (lineIdx line))) }
      callers := s.callers.modify s.cur fun c => c.receive .ok } := by
  obtain ⟨a, ha, hb⟩ := andThen_eq_next.1 h
  obtain ⟨hc, rfl⟩ := writeBsrr_eq_next ha
  exact ⟨hc, (Host.Outcome.next.inj hb).symm⟩

theorem indCheck_eq_none {line : BitVec 32} {s : State} : indCheck line s = none ↔ s.indCfg = true ∧ line.toNat ≤ 3 := by
  unfold indCheck
  cases s.indCfg <;> simp

theorem indCheck_eq_some {line : BitVec 32} {s : State} {c : FaultCause} : indCheck line s = some c ↔
    (c = .indNotConfigured ∧ s.indCfg = false) ∨ (c = .badLine ∧ s.indCfg = true ∧ line.toNat > 3) := by
  unfold indCheck
  cases s.indCfg <;> simp <;> tauto

theorem serCheck_eq_none {s : State} : serCheck s = none ↔ s.serCfg = .configured := by
  unfold serCheck
  split <;> simp_all

theorem serCheck_eq_some {s : State} {c : FaultCause} : serCheck s = some c ↔ c = .serNotConfigured ∧ s.serCfg ≠ .configured := by
  unfold serCheck
  split <;> simp_all [eq_comm]

/-- What `IND_ON` can do. -/
theorem exec_indOn_cases {s t : State} {line : BitVec 32} (h : exec (.indOn line) s = .next t) :
    (s.fault ≠ none ∧ t = s) ∨
    (s.fault = none ∧ s.flightOf s.cur = none ∧ s.conflict s.cur (.indOn line) = true ∧
      t = s.raiseFault .concurrentAccess (encode (.indOn line)) 0) ∨
    (s.Free (.indOn line) ∧ ∃ c, indCheck line s = some c ∧ t = s.raiseFault c (encode (.indOn line)) 0) ∨
    (s.Free (.indOn line) ∧ s.indCfg = true ∧ line.toNat ≤ 3 ∧ s.per.rcc.gpioEn[s.cfg.indPort] = true ∧ t = { s with
      trace := s.trace ++ [.wr (.bsrr s.cfg.indPort) (setWord (linePin s.cfg (lineIdx line)))]
      per := s.per.modifyGpio s.cfg.indPort fun g => { g with odr := bsrrEffect g.odr (setWord (linePin s.cfg (lineIdx line))) }
      callers := s.callers.modify s.cur fun c => c.receive .ok }) := by
  rcases perform_cases h with h | ⟨hf, hn, h⟩ | ⟨hf, ph, hn, h⟩
  · exact .inl h
  · rcases h with ⟨hc, ht⟩ | ⟨hc, c, hk, ht⟩ | ⟨hc, hk, ht⟩
    · exact .inr (.inl ⟨hf, hn, hc, ht⟩)
    · exact .inr (.inr (.inl ⟨⟨hf, hn, hc⟩, c, hk, ht⟩))
    · obtain ⟨h1, h2⟩ := indCheck_eq_none.1 hk
      obtain ⟨h3, h4⟩ := lineWrite_cases ht
      exact .inr (.inr (.inr ⟨⟨hf, hn, hc⟩, h1, h2, h3, h4⟩))
  · simp [neverLater] at h

/-- What `IND_OFF` can do. -/
theorem exec_indOff_cases {s t : State} {line : BitVec 32} (h : exec (.indOff line) s = .next t) :
    (s.fault ≠ none ∧ t = s) ∨
    (s.fault = none ∧ s.flightOf s.cur = none ∧ s.conflict s.cur (.indOff line) = true ∧
      t = s.raiseFault .concurrentAccess (encode (.indOff line)) 0) ∨
    (s.Free (.indOff line) ∧ ∃ c, indCheck line s = some c ∧ t = s.raiseFault c (encode (.indOff line)) 0) ∨
    (s.Free (.indOff line) ∧ s.indCfg = true ∧ line.toNat ≤ 3 ∧ s.per.rcc.gpioEn[s.cfg.indPort] = true ∧ t = { s with
      trace := s.trace ++ [.wr (.bsrr s.cfg.indPort) (clearWord (linePin s.cfg (lineIdx line)))]
      per := s.per.modifyGpio s.cfg.indPort fun g => { g with odr := bsrrEffect g.odr (clearWord (linePin s.cfg (lineIdx line))) }
      callers := s.callers.modify s.cur fun c => c.receive .ok }) := by
  rcases perform_cases h with h | ⟨hf, hn, h⟩ | ⟨hf, ph, hn, h⟩
  · exact .inl h
  · rcases h with ⟨hc, ht⟩ | ⟨hc, c, hk, ht⟩ | ⟨hc, hk, ht⟩
    · exact .inr (.inl ⟨hf, hn, hc, ht⟩)
    · exact .inr (.inr (.inl ⟨⟨hf, hn, hc⟩, c, hk, ht⟩))
    · obtain ⟨h1, h2⟩ := indCheck_eq_none.1 hk
      obtain ⟨h3, h4⟩ := lineWrite_cases ht
      exact .inr (.inr (.inr ⟨⟨hf, hn, hc⟩, h1, h2, h3, h4⟩))
  · simp [neverLater] at h

/-- What micro-step 1 of a serial transfer can do. -/
theorem sampleStatus_cases {i : Instr} {flag : Uart → Bool} {s t : State} (h : sampleStatus i flag s = .next t) :
    s.per.rcc.uartEn = true ∧ ∃ x,
      (flag s.per.uart = false ∧ t = { s with
        draws := s.draws + 1
        trace := s.trace ++ [.rd .sr x]
        callers := s.callers.modify s.cur fun c => c.receive .notReady }) ∨
      (flag s.per.uart = true ∧ t = { s with
        draws := s.draws + 1
        trace := s.trace ++ [.rd .sr x]
        inflight := insertFlight ⟨s.cur, i, .statusSampled true⟩ s.inflight }) := by
  obtain ⟨a, ha, hb⟩ := andThen_eq_next.1 h
  obtain ⟨hc, rfl⟩ := readSr_eq_next ha
  refine ⟨hc, srWord s.cfg.layout s.per.uart (freeWord s.draws), ?_⟩
  cases hf : flag s.per.uart
  · simp only [hf, Bool.false_eq_true, if_false, Host.Outcome.next.injEq] at hb
    exact .inl ⟨rfl, hb.symm⟩
  · simp only [hf, if_true, Host.Outcome.next.injEq] at hb
    exact .inr ⟨rfl, hb.symm⟩

/-- What `SER_READ` can do. -/
theorem exec_serRead_cases {s t : State} (h : exec .serRead s = .next t) :
    (s.fault ≠ none ∧ t = s) ∨
    (s.fault = none ∧ s.flightOf s.cur = none ∧ s.conflict s.cur .serRead = true ∧
      t = s.raiseFault .concurrentAccess (encode .serRead) 0) ∨
    (s.Free .serRead ∧ s.serCfg ≠ .configured ∧ t = s.raiseFault .serNotConfigured (encode .serRead) 0) ∨
    (s.Free .serRead ∧ s.serCfg = .configured ∧ s.per.rcc.uartEn = true ∧ ∃ x,
      (s.per.uart.rxne = false ∧ t = { s with
        draws := s.draws + 1
        trace := s.trace ++ [.rd .sr x]
        callers := s.callers.modify s.cur fun c => c.receive .notReady }) ∨
      (s.per.uart.rxne = true ∧ t = { s with
        draws := s.draws + 1
        trace := s.trace ++ [.rd .sr x]
        inflight := insertFlight ⟨s.cur, .serRead, .statusSampled true⟩ s.inflight })) ∨
    (s.Flying .serRead (.statusSampled true) ∧ s.per.rcc.uartEn = true ∧ t = { s with
      draws := s.draws + 4
      trace := s.trace ++ [.rd .dr (drWord s.per.uart (freeWord s.draws))]
      per := { s.per with uart := s.per.uart.afterRead (s.draws + 1) }
      inflight := s.inflight.filter fun g => g.caller != s.cur
      callers := s.callers.modify s.cur fun c => c.receive (.data (drByte s.per.uart (freeWord s.draws))) }) := by
  rcases perform_cases h with h | ⟨hf, hn, h⟩ | ⟨hf, ph, hn, h⟩
  · exact .inl h
  · rcases h with ⟨hc, ht⟩ | ⟨hc, c, hk, ht⟩ | ⟨hc, hk, ht⟩
    · exact .inr (.inl ⟨hf, hn, hc, ht⟩)
    · obtain ⟨rfl, hk'⟩ := serCheck_eq_some.1 hk
      exact .inr (.inr (.inl ⟨⟨hf, hn, hc⟩, hk', ht⟩))
    · obtain ⟨h1, h2⟩ := sampleStatus_cases ht
      exact .inr (.inr (.inr (.inl ⟨⟨hf, hn, hc⟩, serCheck_eq_none.1 hk, h1, h2⟩)))
  · refine .inr (.inr (.inr (.inr ?_)))
    cases ph with
    | configuring => simp [dataAccess] at h
    | statusSampled b =>
      cases b with
      | false => simp [dataAccess] at h
      | true =>
        obtain ⟨a, ha, hb⟩ := andThen_eq_next.1 h
        obtain ⟨hc, rfl⟩ := readDr_eq_next ha
        exact ⟨⟨hf, hn⟩, hc, (Host.Outcome.next.inj hb).symm⟩

/-- What `SER_WRITE` can do. -/
theorem exec_serWrite_cases {s t : State} {byte : Byte} (h : exec (.serWrite byte) s = .next t) :
    (s.fault ≠ none ∧ t = s) ∨
    (s.fault = none ∧ s.flightOf s.cur = none ∧ s.conflict s.cur (.serWrite byte) = true ∧
      t = s.raiseFault .concurrentAccess (encode (.serWrite byte)) 0) ∨
    (s.Free (.serWrite byte) ∧ s.serCfg ≠ .configured ∧ t = s.raiseFault .serNotConfigured (encode (.serWrite byte)) 0) ∨
    (s.Free (.serWrite byte) ∧ s.serCfg = .configured ∧ s.per.rcc.uartEn = true ∧ ∃ x,
      (s.per.uart.txe = false ∧ t = { s with
        draws := s.draws + 1
        trace := s.trace ++ [.rd .sr x]
        callers := s.callers.modify s.cur fun c => c.receive .notReady }) ∨
      (s.per.uart.txe = true ∧ t = { s with
        draws := s.draws + 1
        trace := s.trace ++ [.rd .sr x]
        inflight := insertFlight ⟨s.cur, .serWrite byte, .statusSampled true⟩ s.inflight })) ∨
    (s.Flying (.serWrite byte) (.statusSampled true) ∧ s.per.rcc.uartEn = true ∧ t = { s with
      trace := s.trace ++ [.wr .dr (byteWord byte)]
      per := { s.per with uart := s.per.uart.afterWrite byte }
      inflight := s.inflight.filter fun g => g.caller != s.cur
      callers := s.callers.modify s.cur fun c => c.receive .ok }) := by
  rcases perform_cases h with h | ⟨hf, hn, h⟩ | ⟨hf, ph, hn, h⟩
  · exact .inl h
  · rcases h with ⟨hc, ht⟩ | ⟨hc, c, hk, ht⟩ | ⟨hc, hk, ht⟩
    · exact .inr (.inl ⟨hf, hn, hc, ht⟩)
    · obtain ⟨rfl, hk'⟩ := serCheck_eq_some.1 hk
      exact .inr (.inr (.inl ⟨⟨hf, hn, hc⟩, hk', ht⟩))
    · obtain ⟨h1, h2⟩ := sampleStatus_cases ht
      exact .inr (.inr (.inr (.inl ⟨⟨hf, hn, hc⟩, serCheck_eq_none.1 hk, h1, h2⟩)))
  · refine .inr (.inr (.inr (.inr ?_)))
    cases ph with
    | configuring => simp [dataAccess] at h
    | statusSampled b =>
      cases b with
      | false => simp [dataAccess] at h
      | true =>
        obtain ⟨a, ha, hb⟩ := andThen_eq_next.1 h
        obtain ⟨hc, rfl⟩ := writeDr_eq_next ha
        rw [wordByte_byteWord] at hb
        exact ⟨⟨hf, hn⟩, hc, (Host.Outcome.next.inj hb).symm⟩

/-! ## Every command -/

/-- A caller who gets a response keeps its program. -/
theorem map_prog_receive (l : List Caller) (k : Nat) (r : Response) :
    (l.modify k fun c => c.receive r).map Caller.prog = l.map Caller.prog := by
  apply List.ext_getElem?
  intro n
  simp only [List.getElem?_map, List.getElem?_modify]
  cases l[n]? with
  | none => rfl
  | some c =>
    simp only [Option.map_some]
    split <;> rfl

/-- What no command touches: the parameters, the line side, the schedule, the other register bits, the callers' programs. -/
theorem exec_keeps {i : Instr} {s t : State} (h : exec i s = .next t) :
    t.cfg = s.cfg ∧ t.txShift = s.txShift ∧ t.wireTx = s.wireTx ∧ t.wireRxIn = s.wireRxIn ∧ t.cur = s.cur ∧
      t.schedule = s.schedule ∧ t.per.other = s.per.other ∧ t.callers.map Caller.prog = s.callers.map Caller.prog := by
  cases i with
  | indInit =>
    rcases exec_indInit_cases h with ⟨-, rfl⟩ | ⟨-, -, -, rfl⟩ | ⟨-, rfl⟩ | ⟨-, n, d, f, v, -, -, -, ⟨-, rfl⟩ | ⟨-, rfl⟩⟩ <;>
      simp [map_prog_receive]
  | indOn line =>
    rcases exec_indOn_cases h with ⟨-, rfl⟩ | ⟨-, -, -, rfl⟩ | ⟨-, c, -, rfl⟩ | ⟨-, -, -, -, rfl⟩ <;> simp [map_prog_receive]
  | indOff line =>
    rcases exec_indOff_cases h with ⟨-, rfl⟩ | ⟨-, -, -, rfl⟩ | ⟨-, c, -, rfl⟩ | ⟨-, -, -, -, rfl⟩ <;> simp [map_prog_receive]
  | serInit baud =>
    rcases exec_serInit_cases h with ⟨-, rfl⟩ | ⟨-, -, -, rfl⟩ | ⟨-, rfl⟩ | ⟨-, n, d, -, -, ⟨f, v, -, -, ⟨-, rfl⟩ | ⟨-, rfl⟩⟩ |
      ⟨-, D, -, rfl⟩ | ⟨-, c, -, rfl⟩ | ⟨-, -, D, -, rfl⟩⟩ <;> simp [map_prog_receive]
  | serRead =>
    rcases exec_serRead_cases h with ⟨-, rfl⟩ | ⟨-, -, -, rfl⟩ | ⟨-, -, rfl⟩ | ⟨-, -, -, x, ⟨-, rfl⟩ | ⟨-, rfl⟩⟩ | ⟨-, -, rfl⟩ <;>
      simp [map_prog_receive]
  | serWrite byte =>
    rcases exec_serWrite_cases h with ⟨-, rfl⟩ | ⟨-, -, -, rfl⟩ | ⟨-, -, rfl⟩ | ⟨-, -, -, x, ⟨-, rfl⟩ | ⟨-, rfl⟩⟩ | ⟨-, -, rfl⟩ <;>
      simp [map_prog_receive]

/-- One micro-step of a command run without interruption. -/
theorem runCommand_of_next {n : Nat} {i : Instr} {s t : State} (h : exec i s = .next t) :
    runCommand (n + 1) i s = runCommand n i t := by
  rw [runCommand, h, andThen_next]

end Sys2Proof.Machine
end

