-- ==== Sys2Proof/Laws/Agents.lean ====
section
/-! SUPPORT. What a step of each agent can do: a caller's word, the block, a harness line; and what the pick of the next agent changes. -/

namespace Sys2Proof.Machine

open Sys2Proof Sys2Proof.Config

/-! ## The pick -/

/-- Picking the next agent touches the schedule or the count of free values, nothing else. -/
theorem pick_eq (s : State) : s.pick.2 = { s with schedule := s.pick.2.schedule, draws := s.pick.2.draws } := by
  unfold State.pick
  split <;> rfl

@[simp] theorem pick_cfg (s : State) : s.pick.2.cfg = s.cfg := by rw [pick_eq]

@[simp] theorem pick_per (s : State) : s.pick.2.per = s.per := by rw [pick_eq]

@[simp] theorem pick_trace (s : State) : s.pick.2.trace = s.trace := by rw [pick_eq]

@[simp] theorem pick_inflight (s : State) : s.pick.2.inflight = s.inflight := by rw [pick_eq]

@[simp] theorem pick_fault (s : State) : s.pick.2.fault = s.fault := by rw [pick_eq]

@[simp] theorem pick_callers (s : State) : s.pick.2.callers = s.callers := by rw [pick_eq]

@[simp] theorem pick_flightOf (s : State) (k : Nat) : s.pick.2.flightOf k = s.flightOf k := by simp [State.flightOf]

/-! ## A command word -/

/-- The word of a legal command performs the command, faulted or not. -/
theorem issueWord_cmd {w : CmdWord} {i : Instr} {s : State} (h : decode w = .cmd i) : issueWord w s = exec i s := by
  unfold issueWord
  cases hf : s.fault with
  | none => simp [h]
  | some c => cases i <;> simp [exec, execIndInit, execIndOn, execIndOff, execSerInit, execSerRead, execSerWrite, perform, hf]

/-- What a command word can do: nothing once faulted, the fault of an illegal word, or its command's next micro-step. -/
theorem issueWord_cases {w : CmdWord} {s t : State} (h : issueWord w s = .next t) :
    (s.fault ≠ none ∧ t = s) ∨
    (s.fault = none ∧ (∃ why, decode w = .illegal why) ∧ t = s.raiseFault .illegalCommand w 0) ∨
    (s.fault = none ∧ ∃ i, decode w = .cmd i ∧ exec i s = .next t) := by
  unfold issueWord at h
  cases hf : s.fault with
  | some c =>
    simp [hf] at h
    exact .inl ⟨by simp, h.symm⟩
  | none =>
    simp only [hf, Option.isSome_none, Bool.false_eq_true, if_false] at h
    cases hd : decode w with
    | illegal why =>
      simp only [hd, Host.Outcome.next.injEq] at h
      exact .inr (.inl ⟨rfl, ⟨why, rfl⟩, h.symm⟩)
    | cmd i =>
      simp only [hd] at h
      exact .inr (.inr ⟨rfl, i, rfl, h⟩)

theorem issueStep_cases {k : Nat} {w : CmdWord} {s t : State} (h : issueStep k w s = .next t) :
    (s.mayIssue k = false ∧ t = s) ∨ (s.mayIssue k = true ∧ issueWord w { s with cur := k } = .next t) := by
  unfold issueStep at h
  cases hm : s.mayIssue k with
  | false =>
    simp [hm] at h
    exact .inl ⟨rfl, h.symm⟩
  | true =>
    simp [hm] at h
    exact .inr ⟨rfl, h⟩

theorem mayIssue_iff {s : State} {k : Nat} :
    s.mayIssue k = true ↔ k < s.cfg.nCallers ∧ s.flightOf k = none ∧ s.progOf k = none := by
  simp [State.mayIssue, and_assoc]

theorem blockStep_cases {k : Nat} {s t : State} (h : blockStep k s = .next t) :
    (s.flightOf k = none ∧ t = s) ∨ ∃ f, s.flightOf k = some f ∧ exec f.cmd { s with cur := k } = .next t := by
  unfold blockStep at h
  cases hf : s.flightOf k with
  | none =>
    simp [hf] at h
    exact .inl ⟨rfl, h.symm⟩
  | some f =>
    simp only [hf] at h
    exact .inr ⟨f, rfl, h⟩

/-! ## A harness line -/

/-- The line a caller reaches over labels is where skipping labels stops (rule R102). -/
theorem skipLabels_of_reaches {prog : List HarnessLine} {c : Caller} {n : Nat} (h : c.Reaches prog n)
    (hn : ∀ l, prog[n]? ≠ some (.label l)) : skipLabels prog c.lc = n := by
  obtain ⟨hle, hl⟩ := h
  obtain ⟨d, rfl⟩ := Nat.exists_eq_add_of_le hle
  unfold skipLabels
  congr 1
  generalize c.lc = k at *
  clear hle
  revert hl hn
  induction d generalizing k with
  | zero =>
    intro hn _
    cases hp : prog.drop k with
    | nil => rfl
    | cons x rest =>
      have hx : prog[k]? = some x := by
        have := List.getElem?_drop (xs := prog) (i := k) (j := 0)
        rw [hp] at this
        simpa using this.symm
      cases x with
      | label l => exact absurd hx (hn l)
      | _ => rfl
  | succ d ih =>
    intro hn hl
    obtain ⟨l, hx⟩ := hl k (le_refl _) (by omega)
    have hlt : k < prog.length := by
      by_contra h
      rw [List.getElem?_eq_none (by omega)] at hx
      cases hx
    rw [List.drop_eq_getElem_cons hlt]
    have : prog[k] = .label l := by
      rw [List.getElem?_eq_getElem hlt] at hx
      simpa using hx
    rw [this]
    have := ih (k + 1) (fun l => by
        rw [show k + 1 + d = k + (d + 1) by omega]
        exact hn l)
      (fun m h1 h2 => hl m (by omega) (by omega))
    rw [List.takeWhile_cons_of_pos (by rfl), List.length_cons, this]

/-- A branch moves the label counter; it fails only where its label is not defined. -/
theorem jumpTo_cases (prog : List HarnessLine) (l : Nat) (c : Caller) :
    (∃ n, labelTarget prog l = some n ∧ jumpTo prog l c = .goOn { c with lc := n }) ∨
      (labelTarget prog l = none ∧ jumpTo prog l c = .noLabel) := by
  unfold jumpTo
  cases labelTarget prog l <;> simp

/-- A line moves the label counter or ends the program, or writes a command's word; it fails only at an undefined label. -/
theorem nextLine_cases (prog : List HarnessLine) (c : Caller) :
    (∃ n st, nextLine prog c = .goOn { c with lc := n, status := st }) ∨
    (∃ n i, nextLine prog c = .issue (encode i) { c with lc := n } ∧
      (prog[n]? = some (.cmd i) ∨ (prog[n]? = some .serWriteB ∧ ∃ b, c.latch = some b ∧ i = .serWrite b))) ∨
    (programOk prog = false ∧ nextLine prog c = .noLabel) := by
  have jump : ∀ l n, (prog[skipLabels prog c.lc]? = some (.bnr l) ∨ prog[skipLabels prog c.lc]? = some (.br l)) →
      (∃ m st, jumpTo prog l { c with lc := n } = .goOn { c with lc := m, status := st }) ∨
      (programOk prog = false ∧ jumpTo prog l { c with lc := n } = .noLabel) := by
    intro l n hl
    rcases jumpTo_cases prog l { c with lc := n } with ⟨m, -, h⟩ | ⟨hm, h⟩
    · exact .inl ⟨m, c.status, h⟩
    · refine .inr ⟨?_, h⟩
      unfold programOk
      rw [List.all_eq_false]
      rcases hl with hl | hl <;> exact ⟨_, List.mem_of_getElem? hl, by simp [hm]⟩
  unfold nextLine
  simp only
  cases hl : prog[skipLabels prog c.lc]? with
  | none => exact .inl ⟨_, _, rfl⟩
  | some x =>
    cases x with
    | label l => exact .inl ⟨skipLabels prog c.lc + 1, c.status, rfl⟩
    | cmd i => exact .inr (.inl ⟨_, i, rfl, .inl hl⟩)
    | serWriteB =>
      simp only
      cases hb : c.latch with
      | none => exact .inl ⟨_, _, rfl⟩
      | some b => exact .inr (.inl ⟨skipLabels prog c.lc, .serWrite b, by simp, .inr ⟨hl, b, rfl, rfl⟩⟩)
    | bnr l =>
      simp only
      split
      · rcases jump l _ (.inl hl) with h | h
        · exact .inl h
        · exact .inr (.inr h)
      · exact .inl ⟨skipLabels prog c.lc + 1, c.status, rfl⟩
    | br l =>
      rcases jump l _ (.inr hl) with h | h
      · exact .inl h
      · exact .inr (.inr h)
    | halt => exact .inl ⟨_, _, rfl⟩

/-- What a harness line can do: nothing; move its caller on; or write its command's word, for its own caller. -/
theorem harnessStep_cases {k : Nat} {s t : State} (h : harnessStep k s = .next t) :
    t = s ∨ ∃ c prog n st, s.callers[k]? = some c ∧ c.prog = some prog ∧ c.status = .running ∧ s.flightOf k = none ∧
      (t = { s with callers := s.callers.set k { c with lc := n, status := st } } ∨
        ∃ i, (prog[n]? = some (.cmd i) ∨ (prog[n]? = some .serWriteB ∧ ∃ b, c.latch = some b ∧ i = .serWrite b)) ∧
          issueWord (encode i) { s with callers := s.callers.set k { c with lc := n }, cur := k } = .next t) := by
  unfold harnessStep at h
  cases hc : s.callers[k]? with
  | none =>
    simp [hc] at h
    exact .inl h.symm
  | some c =>
    simp only [hc] at h
    cases hp : c.prog with
    | none =>
      simp [hp] at h
      exact .inl h.symm
    | some prog =>
      simp only [hp] at h
      split at h
      · rename_i hr
        rcases nextLine_cases prog c with ⟨n, st, hl⟩ | ⟨n, i, hl, ho⟩ | ⟨-, hl⟩
        · simp only [hl, Host.Outcome.next.injEq] at h
          exact .inr ⟨c, prog, n, st, rfl, hp, hr.1, hr.2, .inl h.symm⟩
        · simp only [hl] at h
          exact .inr ⟨c, prog, n, c.status, rfl, hp, hr.1, hr.2, .inr ⟨i, ho, h⟩⟩
        · simp [hl] at h
      · simp at h
        exact .inl h.symm

end Sys2Proof.Machine
end

