-- ==== Sys2Proof/Laws/LineSide.lean ====
section
/-! SUPPORT. What a step of the line side or of the wire can change (rules R221 to R225). -/

namespace Sys2Proof.Machine

open Sys2Proof Sys2Proof.Config

/-- An arrival changes the receive register and three flags of the UART, nothing else. -/
theorem arrive_eq (s : State) (v : Byte) (ferr : Bool) :
    ∃ (d : Nat) (r : Byte) (n o f p : Bool), s.arrive v ferr = { s with
      draws := d
      per := { s.per with uart := { s.per.uart with rdr := r, rxne := n, ore := o, fe := f, rdrOpen := p } } } := by
  unfold State.arrive
  split
  · exact ⟨_, _, _, _, _, _, rfl⟩
  · split <;> exact ⟨_, _, _, _, _, _, rfl⟩

/-- An arrival never clears `rxne`. -/
theorem arrive_rxne (s : State) (v : Byte) (ferr : Bool) (h : s.per.uart.rxne = true) :
    (s.arrive v ferr).per.uart.rxne = true := by
  unfold State.arrive
  split
  · exact h
  · simp [h, Uart.overrun]

/-- `RX_ARRIVE` changes the receive register, three flags of the UART and the input stream, nothing else. -/
theorem rxArrive_eq (s : State) :
    ∃ (w : List Arrival) (d : Nat) (r : Byte) (n o f p : Bool), rxArrive s = { s with
      wireRxIn := w
      draws := d
      per := { s.per with uart := { s.per.uart with rdr := r, rxne := n, ore := o, fe := f, rdrOpen := p } } } := by
  unfold rxArrive State.nextArrival
  split
  · rename_i a rest _
    obtain ⟨d, r, n, o, f, p, h⟩ := arrive_eq { s with wireRxIn := rest } a.byte a.ferr
    exact ⟨rest, d, r, n, o, f, p, h⟩
  · obtain ⟨d, r, n, o, f, p, h⟩ := arrive_eq { s with draws := s.draws + 1 } (freeArrival s.draws).byte (freeArrival s.draws).ferr
    exact ⟨s.wireRxIn, d, r, n, o, f, p, h⟩

/-- `RX_ARRIVE` never clears `rxne`. -/
theorem rxArrive_rxne (s : State) (h : s.per.uart.rxne = true) : (rxArrive s).per.uart.rxne = true := by
  unfold rxArrive State.nextArrival
  split
  · rename_i a rest _
    exact arrive_rxne { s with wireRxIn := rest } a.byte a.ferr h
  · exact arrive_rxne { s with draws := s.draws + 1 } _ _ h

/-- `TX_LOAD` changes the shift register and sets `txe`, nothing else. -/
theorem txLoad_eq (s : State) :
    ∃ (x : Option Byte) (d : Nat), txLoad s = { s with
      txShift := x
      draws := d
      per := { s.per with uart := { s.per.uart with txe := s.per.uart.txe || s.txLoadEnabled } } } := by
  unfold txLoad
  cases s.txLoadEnabled with
  | false => exact ⟨s.txShift, s.draws, by simp⟩
  | true => exact ⟨some s.txByte, s.draws + 1, by simp⟩

/-- `TX_DONE` moves the shift register's byte onto the wire, nothing else. -/
theorem txDone_eq (s : State) : ∃ (x : Option Byte) (w : List Byte), txDone s = { s with txShift := x, wireTx := w } := by
  unfold txDone
  split <;> exact ⟨_, _, rfl⟩

end Sys2Proof.Machine
end

