-- ==== Sys2Proof/Laws/Memory.lean ====
section
/-! SUPPORT. The byte store keeps its canonical form, and a read after a write gives the byte written and leaves every other
byte alone (rules R41, R63). -/

namespace Sys2Proof.Machine.Memory

open Sys2Proof

theorem wfFrom_mono {lo lo' : Nat} (h : lo' ≤ lo) {m : List Host.Cell} (hm : wfFrom lo m = true) : wfFrom lo' m = true := by
  cases m with
  | nil => rfl
  | cons c rest =>
    simp only [wfFrom, Bool.and_eq_true, decide_eq_true_eq] at hm ⊢
    exact ⟨⟨le_trans h hm.1.1, hm.1.2⟩, hm.2⟩

/-- Below the first address of a well-formed store every byte is unlisted. -/
theorem read_below {lo a : Nat} {m : List Host.Cell} (hm : wfFrom lo m = true) (h : a < lo) : read m a = unlisted := by
  induction m generalizing lo with
  | nil => rfl
  | cons c rest ih =>
    simp only [wfFrom, Bool.and_eq_true, decide_eq_true_eq] at hm
    rw [read, if_neg (by omega)]
    exact ih hm.2 (by omega)

theorem write_wfFrom {lo a : Nat} (v : Byte) {m : List Host.Cell} (hm : wfFrom lo m = true) (h : lo ≤ a) :
    wfFrom lo (write m a v) = true := by
  induction m generalizing lo with
  | nil =>
    by_cases hv : v = unlisted <;> simp [write, wfFrom, hv, h]
  | cons c rest ih =>
    obtain ⟨b, u⟩ := c
    simp only [wfFrom, Bool.and_eq_true, decide_eq_true_eq, bne_iff_ne] at hm
    obtain ⟨⟨hlo, hne⟩, hrest⟩ := hm
    by_cases h1 : a < b
    · rw [write, if_pos h1]
      by_cases hv : v = unlisted
      · simpa [hv, wfFrom] using ⟨⟨hlo, hne⟩, hrest⟩
      · simpa [hv, wfFrom] using ⟨h, ⟨by omega, hne⟩, hrest⟩
    · by_cases h2 : a = b
      · rw [write, if_neg h1, if_pos h2]
        by_cases hv : v = unlisted
        · rw [if_pos hv]
          exact wfFrom_mono (by omega) hrest
        · simpa [hv, wfFrom] using ⟨h, h2 ▸ hrest⟩
      · rw [write, if_neg h1, if_neg h2]
        simpa [wfFrom] using ⟨⟨hlo, hne⟩, ih hrest (by omega)⟩

/-- Writing a byte keeps the canonical form. -/
theorem write_wf {a : Nat} {v : Byte} {m : List Host.Cell} (hm : wf m = true) : wf (write m a v) = true :=
  write_wfFrom v hm (Nat.zero_le _)

/-- A byte written is read back, and every other byte is as before. -/
theorem read_write {lo a b : Nat} {v : Byte} {m : List Host.Cell} (hm : wfFrom lo m = true) :
    read (write m a v) b = if b = a then v else read m b := by
  induction m generalizing lo with
  | nil => by_cases hv : v = unlisted <;> by_cases hb : b = a <;> simp [write, read, hv, hb]
  | cons c rest ih =>
    obtain ⟨x, u⟩ := c
    simp only [wfFrom, Bool.and_eq_true, decide_eq_true_eq] at hm
    by_cases h1 : a < x
    · rw [write, if_pos h1]
      by_cases hv : v = unlisted
      · rw [if_pos hv]
        by_cases hb : b = a
        · rw [if_pos hb, hb, read, if_neg (by omega), hv]
          exact read_below hm.2 (by omega)
        · rw [if_neg hb]
      · rw [if_neg hv]
        by_cases hb : b = a <;> simp [read, hb]
    · by_cases h2 : a = x
      · rw [write, if_neg h1, if_pos h2]
        by_cases hv : v = unlisted
        · rw [if_pos hv]
          by_cases hb : b = a
          · rw [if_pos hb, hb, hv]
            exact read_below hm.2 (by omega)
          · rw [if_neg hb, read, if_neg (by omega)]
        · rw [if_neg hv]
          by_cases hb : b = a
          · simp [read, hb]
          · rw [if_neg hb, read, read, if_neg hb, if_neg (by omega)]
      · rw [write, if_neg h1, if_neg h2, read, read]
        by_cases hb : b = x
        · rw [if_pos hb, if_pos hb, if_neg (by omega)]
        · rw [if_neg hb, if_neg hb, ih hm.2]

/-- Writing a word keeps the canonical form. -/
theorem write32_wf {a : Nat} {w : Word} {m : List Host.Cell} (hm : wf m = true) : wf (write32 m a w) = true :=
  write_wf (write_wf (write_wf (write_wf hm)))

end Sys2Proof.Machine.Memory
end

