-- ==== Sys2Proof/Laws/PerInstr.lean ====
section
/-! SUPPORT. Per command: what the three fields of its word hold (rules R91 to R93). -/

namespace Sys2Proof.Laws.OperandField

open Sys2Proof

/-- The command's word holds its operation number, zero reserved bits and its operand. -/
def Statement (i : Instr) : Prop :=
  opOf (encode i) = opNumber i ∧ rsvOf (encode i) = 0 ∧ argOf (encode i) = operandArg i

theorem indInit : Statement .indInit := by simp [Statement, encode]

theorem indOn (line : BitVec 32) : Statement (.indOn line) := by simp [Statement, encode]

theorem indOff (line : BitVec 32) : Statement (.indOff line) := by simp [Statement, encode]

theorem serInit (baud : BitVec 32) : Statement (.serInit baud) := by simp [Statement, encode]

theorem serRead : Statement .serRead := by simp [Statement, encode]

theorem serWrite (byte : BitVec 8) : Statement (.serWrite byte) := by simp [Statement, encode]

end Sys2Proof.Laws.OperandField
end

