-- ==== Sys2Proof/Laws/Registers.lean ====
section
/-! SUPPORT. The registers of a layout bit by bit: what a slot puts and takes, what a register's word holds, what a whole-word write does to
the fields (rules R10, R41, R61); and which register stands at an address (rule R60). -/

namespace Sys2Proof.Machine

open Sys2Proof Sys2Proof.Config

/-! ## Slots -/

/-- The bits of a slot. -/
theorem Slot.getLsbD_mask {x : Slot} (hx : x.hi < 32) (b : Nat) : x.mask.getLsbD b = decide (x.lo ≤ b ∧ b ≤ x.hi) := by
  rw [Bool.eq_iff_iff]
  simp only [Slot.mask, BitVec.getLsbD_ofNat, Nat.testBit_mul_two_pow, Nat.testBit_two_pow_sub_one, Bool.and_eq_true,
    decide_eq_true_eq]
  omega

/-- A value put into a slot: its bits inside, the old ones outside. -/
theorem Slot.getLsbD_put {x : Slot} (hx : x.hi < 32) (w v : Word) (b : Nat) :
    (x.put w v).getLsbD b = if x.lo ≤ b ∧ b ≤ x.hi then v.getLsbD (b - x.lo) else w.getLsbD b := by
  simp only [Slot.put, BitVec.getLsbD_or, BitVec.getLsbD_and, BitVec.getLsbD_not, Slot.getLsbD_mask hx, BitVec.getLsbD_shiftLeft]
  by_cases h : x.lo ≤ b ∧ b ≤ x.hi
  · have h1 : b < 32 := by omega
    have h2 : ¬ b < x.lo := by omega
    simp [h, h1]
  · by_cases hb : b < 32
    · simp [h, hb]
    · have := BitVec.getLsbD_of_ge w b (by omega)
      simp [h, hb, this]

/-- The bits a slot of a word holds. -/
theorem Slot.getLsbD_take {x : Slot} (hx : x.hi < 32) (w : Word) (b : Nat) :
    (x.take w).getLsbD b = (decide (x.lo + b ≤ x.hi) && w.getLsbD (x.lo + b)) := by
  simp only [Slot.take, BitVec.getLsbD_ushiftRight, BitVec.getLsbD_and, Slot.getLsbD_mask hx]
  by_cases h : x.lo + b ≤ x.hi <;> simp [h]

/-- The low bits a field of width `n` takes from its slot are the slot's bits of the word. -/
theorem Slot.take_extractLsb' {x : Slot} {n : Nat} (hx : x.hi < 32) (hn : x.hi + 1 = x.lo + n) (w : Word) :
    (x.take w).extractLsb' 0 n = w.extractLsb' x.lo n := by
  apply BitVec.eq_of_getLsbD_eq
  intro i hi
  simp only [BitVec.getLsbD_extractLsb', Slot.getLsbD_take hx, Nat.zero_add, show x.lo + i ≤ x.hi by omega, decide_true, Bool.true_and]

/-! ## The word of a register -/

/-- A layout that fits gives each field a range of its own width within the word. -/
theorem Layout.slotsFit_slot {L : Layout} (h : L.slotsFit = true) (f : Field) :
    (L.slot f).hi < 32 ∧ (L.slot f).hi + 1 = (L.slot f).lo + f.width := by
  simp only [Layout.slotsFit, Bool.and_eq_true, List.all_eq_true, decide_eq_true_eq, beq_iff_eq] at h
  exact h.1 f (Field.mem_all f)

/-- Putting the fields of a list into a word leaves a bit outside all of them. -/
theorem foldl_put_outside {L : Layout} (hL : L.slotsFit = true) (per : Periph) (b : Nat) (l : List Field) (w : Word)
    (h : ∀ f ∈ l, ¬ ((L.slot f).lo ≤ b ∧ b ≤ (L.slot f).hi)) :
    (l.foldl (fun w f => (L.slot f).put w (per.get f)) w).getLsbD b = w.getLsbD b := by
  induction l generalizing w with
  | nil => rfl
  | cons f rest ih =>
    rw [List.foldl_cons, ih _ fun g hg => h g (by simp [hg]), Slot.getLsbD_put (Layout.slotsFit_slot hL f).1,
      if_neg (h f (by simp))]

/-- Slots that share no bit share none. -/
theorem Slot.apart_of_mask {x y : Slot} (hx : x.hi < 32) (hy : y.hi < 32) (h : x.mask &&& y.mask = 0) {b : Nat}
    (hb : x.lo ≤ b ∧ b ≤ x.hi) : ¬ (y.lo ≤ b ∧ b ≤ y.hi) := by
  intro hc
  have := congrArg (fun v => v.getLsbD b) h
  simp [Slot.getLsbD_mask hx, Slot.getLsbD_mask hy, hb, hc] at this

/-- Putting the fields of a list into a word gives a bit of one of them its field's bit. -/
theorem foldl_put_inside {L : Layout} (hL : L.slotsFit = true) (per : Periph) (b : Nat) (l : List Field) (w : Word)
    (hd : l.Pairwise fun f g => (L.slot f).mask &&& (L.slot g).mask = 0) {f : Field} (hf : f ∈ l)
    (hb : (L.slot f).lo ≤ b ∧ b ≤ (L.slot f).hi) :
    (l.foldl (fun w f => (L.slot f).put w (per.get f)) w).getLsbD b = (per.get f).getLsbD (b - (L.slot f).lo) := by
  induction l generalizing w with
  | nil => cases hf
  | cons g rest ih =>
    rw [List.pairwise_cons] at hd
    rw [List.foldl_cons]
    by_cases hr : f ∈ rest
    · exact ih _ hd.2 hr
    · have : f = g := by simpa [hr] using hf
      subst this
      rw [foldl_put_outside hL, Slot.getLsbD_put (Layout.slotsFit_slot hL f).1, if_pos hb]
      intro x hx
      exact Slot.apart_of_mask (Layout.slotsFit_slot hL f).1 (Layout.slotsFit_slot hL x).1 (hd.1 x hx) hb

/-- A bit of a register's word inside a field is the field's. -/
theorem wordAt_inside {L : Layout} (hL : L.slotsFit = true) (per : Periph) {addr : Word} (hd : L.disjointAt addr) {f : Field}
    (hf : (L.slot f).addr = addr) {b : Nat} (hb : (L.slot f).lo ≤ b ∧ b ≤ (L.slot f).hi) :
    (per.wordAt L addr).getLsbD b = (per.get f).getLsbD (b - (L.slot f).lo) :=
  foldl_put_inside hL per b _ _ hd (Layout.mem_fieldsAt.2 hf) hb

/-- A bit of a register's word outside every field is the byte store's. -/
theorem wordAt_outside {L : Layout} (hL : L.slotsFit = true) (per : Periph) {addr : Word} {b : Nat}
    (h : ∀ f, (L.slot f).addr = addr → ¬ ((L.slot f).lo ≤ b ∧ b ≤ (L.slot f).hi)) :
    (per.wordAt L addr).getLsbD b = (Memory.read32 per.other addr.toNat).getLsbD b :=
  foldl_put_outside hL per b _ _ fun f hf => h f (Layout.mem_fieldsAt.1 hf)

/-- The named bits of a register are those of its fields. -/
theorem namedBits_getLsbD {L : Layout} (hL : L.slotsFit = true) (addr : Word) (b : Nat) :
    (L.namedBits addr).getLsbD b = true ↔ ∃ f, (L.slot f).addr = addr ∧ (L.slot f).lo ≤ b ∧ b ≤ (L.slot f).hi := by
  have key : ∀ (l : List Field) (m : Word), (l.foldl (fun m f => m ||| (L.slot f).mask) m).getLsbD b = true ↔
      m.getLsbD b = true ∨ ∃ f ∈ l, (L.slot f).lo ≤ b ∧ b ≤ (L.slot f).hi := by
    intro l
    induction l with
    | nil => simp
    | cons f rest ih =>
      intro m
      rw [List.foldl_cons, ih, BitVec.getLsbD_or, Slot.getLsbD_mask (Layout.slotsFit_slot hL f).1]
      simp [or_assoc]
  unfold Layout.namedBits
  rw [key]
  simp [Layout.mem_fieldsAt]

/-! ## A whole-word write -/

/-- A whole-word write leaves a field of another register. -/
theorem foldl_set_get {L : Layout} (w : Word) (l : List Field) (per : Periph) (g : Field) (hg : g ∉ l) :
    (l.foldl (fun q f => q.set f ((L.slot f).take w)) per).get g = per.get g := by
  induction l generalizing per with
  | nil => rfl
  | cons f rest ih =>
    simp only [List.mem_cons, not_or] at hg
    rw [List.foldl_cons, ih _ hg.2, Periph.get_set_ne _ _ _ _ hg.1]

/-- A whole-word write gives a field of the register its bits of the word. -/
theorem foldl_set_get_mem {L : Layout} (hL : L.slotsFit = true) (w : Word) (l : List Field) (per : Periph) (g : Field) (hg : g ∈ l) (hw : g.writable = true) :
    (l.foldl (fun q f => q.set f ((L.slot f).take w)) per).get g = (w.extractLsb' (L.slot g).lo g.width).setWidth 32 := by
  induction l generalizing per with
  | nil => cases hg
  | cons f rest ih =>
    rw [List.foldl_cons]
    by_cases hr : g ∈ rest
    · exact ih _ hr
    · have : g = f := by simpa [hr] using hg
      subst this
      rw [foldl_set_get _ _ _ _ hr, Periph.get_set_self _ _ _ hw, Slot.take_extractLsb' (Layout.slotsFit_slot hL g).1 (Layout.slotsFit_slot hL g).2]

/-- The fields do not stand in the byte store. -/
theorem get_other (per : Periph) (o : List Host.Cell) (f : Field) : ({ per with other := o } : Periph).get f = per.get f := by
  cases f <;> rfl

/-- No field write reaches the holding registers. -/
theorem set_hidden (per : Periph) (f : Field) (v : Word) :
    (per.set f v).uart.rdr = per.uart.rdr ∧ (per.set f v).uart.tdr = per.uart.tdr ∧ (per.set f v).uart.rdrOpen = per.uart.rdrOpen ∧
      (per.set f v).uart.tdrOpen = per.uart.tdrOpen := by
  cases f <;> exact ⟨rfl, rfl, rfl, rfl⟩

/-- No whole-word write of a register without rules of its own reaches the holding registers. -/
theorem setWordAt_hidden (per : Periph) (L : Layout) (addr w : Word) :
    (per.setWordAt L addr w).uart.rdr = per.uart.rdr ∧ (per.setWordAt L addr w).uart.tdr = per.uart.tdr ∧
      (per.setWordAt L addr w).uart.rdrOpen = per.uart.rdrOpen ∧ (per.setWordAt L addr w).uart.tdrOpen = per.uart.tdrOpen := by
  unfold Periph.setWordAt
  generalize L.fieldsAt addr = l
  show (List.foldl _ per l).uart.rdr = _ ∧ (List.foldl _ per l).uart.tdr = _ ∧ (List.foldl _ per l).uart.rdrOpen = _ ∧ (List.foldl _ per l).uart.tdrOpen = _
  induction l generalizing per with
  | nil => exact ⟨rfl, rfl, rfl, rfl⟩
  | cons f rest ih =>
    rw [List.foldl_cons]
    obtain ⟨a, b, c, d⟩ := set_hidden per f ((L.slot f).take w)
    obtain ⟨a', b', c', d'⟩ := ih (per.set f ((L.slot f).take w))
    exact ⟨a'.trans a, b'.trans b, c'.trans c, d'.trans d⟩

/-! ## Which register stands at an address -/

/-- The registers with rules of their own stand at different addresses. -/
theorem Layout.own_apart {L : Layout} (h : L.registersApart = true) :
    L.dr ≠ L.rxne.addr ∧ L.dr ≠ L.brr.addr ∧ L.rxne.addr ≠ L.brr.addr ∧
    (∀ p : Port, L.bsrr[p] ≠ L.dr ∧ L.bsrr[p] ≠ L.rxne.addr ∧ L.bsrr[p] ≠ L.brr.addr) ∧
    ∀ p q : Port, L.bsrr[p] = L.bsrr[q] → p = q := by
  unfold Layout.registersApart at h
  rw [Bool.and_eq_true] at h
  have h := of_decide_eq_true h.1
  unfold Layout.ownAddrs at h
  simp only [List.nodup_cons, List.mem_cons, not_or] at h
  have mem : ∀ p : Port, L.bsrr[p] ∈ L.bsrr.toList := fun p => by simp
  refine ⟨h.1.1, h.1.2.1, h.2.1.1, fun p => ⟨fun e => ?_, fun e => ?_, fun e => ?_⟩, fun p q e => ?_⟩
  · exact h.1.2.2 (e ▸ mem p)
  · exact h.2.1.2 (e ▸ mem p)
  · exact h.2.2.1 (e ▸ mem p)
  · exact Fin.ext ((List.Nodup.getElem_inj_iff h.2.2.2 (i := p.val) (j := q.val) (hi := by simp) (hj := by simp)).1 (by simpa using e))

theorem Layout.regAt_dr (L : Layout) : L.regAt L.dr = some .dr := by simp [Layout.regAt]

theorem Layout.regAt_sr {L : Layout} (h : L.registersApart = true) : L.regAt L.rxne.addr = some .sr := by
  simp [Layout.regAt, (Layout.own_apart h).1.symm]

theorem Layout.regAt_brr {L : Layout} (h : L.registersApart = true) : L.regAt L.brr.addr = some .brr := by
  simp [Layout.regAt, (Layout.own_apart h).2.1.symm, (Layout.own_apart h).2.2.1.symm]

theorem Layout.regAt_bsrr {L : Layout} (h : L.registersApart = true) (p : Port) : L.regAt L.bsrr[p] = some (.bsrr p) := by
  obtain ⟨-, -, -, hb, hi⟩ := Layout.own_apart h
  have : idx16.find? (fun q => L.bsrr[q] == L.bsrr[p]) = some p := by
    cases hf : idx16.find? (fun q => L.bsrr[q] == L.bsrr[p]) with
    | none => simpa using List.find?_eq_none.1 hf p (mem_idx16 p)
    | some q => rw [hi q p (by simpa using List.find?_some hf)]
  unfold Layout.regAt
  rw [if_neg (hb p).1, if_neg (hb p).2.1, if_neg (hb p).2.2, this]

/-- The register of a field at an address that is none of those with rules of their own. -/
theorem Layout.regAt_word {L : Layout} {f : Field} (h : (L.slot f).addr ∉ L.ownAddrs) :
    L.regAt (L.slot f).addr = some (.word (L.slot f).addr) := by
  simp only [Layout.ownAddrs, List.mem_cons, not_or] at h
  obtain ⟨h1, h2, h3, h4⟩ := h
  have hb : idx16.find? (fun q => L.bsrr[q] == (L.slot f).addr) = none := by
    rw [List.find?_eq_none]
    intro q _ e
    exact h4 (by rw [← (by simpa using e : L.bsrr[q] = (L.slot f).addr)]; simp)
  have hf : (L.fieldsAt (L.slot f).addr).isEmpty = false := by
    cases he : L.fieldsAt (L.slot f).addr with
    | nil => exact absurd (Layout.mem_fieldsAt.2 rfl) (he ▸ List.not_mem_nil : f ∉ L.fieldsAt (L.slot f).addr)
    | cons => rfl
  unfold Layout.regAt
  rw [if_neg h1, if_neg h2, if_neg h3, hb]
  simp [hf]

/-- At an aligned address of the layout an access is that of the register there. -/
theorem atRegister_eq {α : Type} {addr : Word} {s : State} {r : BusReg} (k : BusReg → Host.Outcome α Fault Refusal)
    (ha : addr.toNat % 4 = 0) (hr : s.cfg.layout.regAt addr = some r) : atRegister addr s k = k r := by
  simp [atRegister, ha, hr]

end Sys2Proof.Machine
end

