-- ==== Sys2Proof/Tests/Slice0.lean ====
section
/-! SUPPORT. Small tests: words written out from the encoding, ill-formed terms, one step each of the commands, the line side and the
harness. Expected values are the vectors of spec/95_test_vectors.md. -/

namespace Sys2Proof.Tests

open Sys2Proof Sys2Proof.Machine Sys2Proof.Config

/-! ## Well-formedness refuses what each check is for -/

set_option maxRecDepth 40000 in
theorem test_defaults_well_formed : defaultParams.wellFormed = true := by decide

theorem test_pclk_zero_refused : ({ defaultParams with pclkHz := 0 } : Params).pclkOk = false := by decide

theorem test_no_callers_refused : ({ defaultParams with nCallers := 0 } : Params).callersOk = false := by decide

theorem test_equal_lines_refused :
    ({ defaultParams with indPin := #v[12, 13, 14, 12] } : Params).linesDistinct = false := by decide

theorem test_equal_serial_pins_refused : ({ defaultParams with rxPin := 2 } : Params).serialDistinct = false := by decide

theorem test_meeting_pins_refused :
    ({ defaultParams with serPort := 3, txPin := 14 } : Params).pinsApart = false := by decide

theorem test_reserved_pin_refused : ({ defaultParams with reservedPins := [(0, 2)] } : Params).pinsFree = false := by decide

set_option maxRecDepth 40000 in
theorem test_misaligned_register_refused :
    ({ Layout.stm32f4 with dr := 0x40004406 } : Layout).aligned = false := by decide

set_option maxRecDepth 40000 in
theorem test_wrong_width_refused :
    ({ Layout.stm32f4 with stop := bitSlot 0x40004410 12 } : Layout).slotsFit = false := by decide

theorem test_shared_flag_refused : ({ Layout.stm32f4 with ore := bitSlot 0x40004400 5 } : Layout).statusOk = false := by decide

theorem test_shared_register_refused : ({ Layout.stm32f4 with dr := 0x40004400 } : Layout).registersApart = false := by decide

theorem test_every_instr_well_formed (i : Instr) : i.wellFormed = true := by cases i <;> rfl

theorem test_undefined_label_refused : programOk [.label 1, .br 2] = false := by decide

theorem test_long_byte_refused : assemble [.serWrite (.num 0x100)] = none := by decide

theorem test_no_ascii_refused : assemble [.serWrite (.chr (Char.ofNat 0x80))] = none := by decide

/-! ## Decoding, bit by bit from rules R91 and R92 -/

/-- OP = 0001, the rest zero. -/
theorem test_decode_ind_init :
    decode 0b0001000000000000000000000000000000000000000000000000000000000000 = .cmd .indInit := by decide

/-- OP = 0010, line 3. -/
theorem test_decode_ind_on :
    decode 0b0010000000000000000000000000000000000000000000000000000000000011 = .cmd (.indOn 3) := by decide

/-- OP = 0011, all 32 operand bits. -/
theorem test_decode_ind_off :
    decode 0b0011000000000000000000000000000011111111111111111111111111111111 = .cmd (.indOff 4294967295) := by decide

/-- OP = 0100, baud 9600 = 0x2580. -/
theorem test_decode_ser_init :
    decode 0b0100000000000000000000000000000000000000000000000010010110000000 = .cmd (.serInit 9600) := by decide

/-- OP = 0101. -/
theorem test_decode_ser_read :
    decode 0b0101000000000000000000000000000000000000000000000000000000000000 = .cmd .serRead := by decide

/-- OP = 0110, byte 0x41. -/
theorem test_decode_ser_write :
    decode 0b0110000000000000000000000000000000000000000000000000000001000001 = .cmd (.serWrite 0x41) := by decide

/-- ENC-1: each illegal word by its reason. -/
theorem test_decode_illegal :
    decode 0x0000000000000000 = .illegal .reservedOp ∧ decode 0x7000000000000000 = .illegal .reservedOp ∧
    decode 0x1000000000000001 = .illegal .argNotZero ∧ decode 0x5000000000000080 = .illegal .argNotZero ∧
    decode 0x6000000000000100 = .illegal .argHighNotZero ∧ decode 0x2800000000000000 = .illegal .reservedBits ∧
    decode 0x2000000100000000 = .illegal .reservedBits ∧ decode 0xFFFFFFFFFFFFFFFF = .illegal .reservedBits := by decide

/-- R100: the encoder's words. -/
theorem test_encode :
    encode (.serInit 115200) = 0x400000000001C200 ∧ encode (.serWrite 0x41) = 0x6000000000000041 ∧
    encode (.indOff 3) = 0x3000000000000003 := by decide

/-- ENC-2: response words. -/
theorem test_responses :
    Response.ok.word = 0x0000 ∧ (Response.data 0x41).word = 0x0141 ∧ Response.notReady.word = 0x0200 := by decide

/-! ## The divisor calculator (DIV-1, DIV-2, DIV-3) -/

theorem test_divisor_up :
    brrCalc .up 42000000 9600 = .ok 0x1117 ∧ brrCalc .up 42000000 641 = .ok 0xFFF3 ∧
    brrCalc .up 42000000 640 = .err .baudOverflow ∧ brrCalc .up 42000000 0 = .err .baudZero ∧
    brrCalc .up 42000000 115200 = .ok 365 ∧ brrCalc .up 42000000 14400 = .ok 2917 ∧
    brrCalc .up 42000000 84000001 = .ok 0 := by decide

theorem test_divisor_ties :
    brrCalc .up 42000000 1280 = .ok 32813 ∧ brrCalc .down 42000000 1280 = .ok 32812 ∧
    brrCalc .even 42000000 1280 = .ok 32812 ∧ brrCalc .even 42000000 1792 = .ok 23438 ∧
    brrCalc .down 131071 2 = .ok 0xFFFF ∧ brrCalc .even 131071 2 = .err .baudOverflow := by decide

theorem test_divisor_wide :
    brrCalc .up 4294967295 2147483648 = .ok 2 ∧ brrCalc .up 4294967295 4294967295 = .ok 1 ∧
    brrCalc .up 4294967295 65536 = .err .baudOverflow := by decide

/-! ## One step of the machine -/

/-- What a test reads of an outcome: a field of the next state. -/
def see {α : Type} (o : Out) (f : State → α) : Option α :=
  match o with
  | .next t => some (f t)
  | .fault _ => none
  | .refused _ => none

/-- A block whose indicator lines are configured. -/
def lit : State :=
  { State.reset with
    indCfg := true
    per := { Periph.resetValue with rcc := { Rcc.resetValue with gpioEn := (Vector.replicate 16 false).set 3 true } } }

/-- A block whose serial channel is configured. -/
def serial : State :=
  { State.reset with
    serCfg := .configured
    per := { Periph.resetValue with
      rcc := { gpioEn := (Vector.replicate 16 false).set 0 true, uartEn := true }
      uart := { Uart.resetValue with ue := true, te := true, re := true, rxneie := true, brr := 0x1117 } } }

/-- Change the UART of a state. -/
def withUart (s : State) (f : Uart → Uart) : State := { s with per := { s.per with uart := f s.per.uart } }

/-- A state in which caller 0's command is in flight. -/
def flying (s : State) (i : Instr) (ph : Phase) : State := { s with inflight := [{ caller := 0, cmd := i, phase := ph }] }

/-- IND-1, entry 1. -/
theorem test_ind_init_first_step :
    see (step (State.reset.withFetchWord 64 0x1000000000000000))
      (fun t => (t.trace, t.per.rcc.gpioEn[3], t.seq.map Seq.step, t.indCfg)) =
      some ([.w (.rccGpioEn 3) 1], true, some 1, false) := by decide

/-- IND-1, entry 9, the end of the command. -/
theorem test_ind_init_last_step :
    see (exec .indInit { flying lit .indInit .configuring with seq := some ⟨0, .indInit, 8, none⟩, indCfg := false })
      (fun t => (t.trace, t.indCfg, t.seq, t.inflight)) =
      some ([.w (.gpioOtype 3 15) 0], true, none, []) := by decide

/-- IND-2: `ind.on 2` writes 0x0000_4000. -/
theorem test_ind_on :
    see (step (lit.withFetchWord 64 0x2000000000000002))
      (fun t => (t.trace, t.per.gpio[3].odr, t.callers.head?.map Caller.last)) =
      some ([.wr (.bsrr 3) 0x00004000], 0x4000, some (some .ok)) := by decide

/-- IND-3: before `IND_INIT`, and a line above 3 after it. -/
theorem test_ind_on_faults :
    see (step (State.reset.withFetchWord 64 0x2000000000000000)) (fun t => (t.fault, t.faultInfo, t.trace)) =
      some (some .indNotConfigured, some ⟨0, 0x2000000000000000, 0⟩, []) ∧
    see (step (lit.withFetchWord 64 0x2000000000000004)) (fun t => (t.fault, t.faultInfo, t.trace)) =
      some (some .badLine, some ⟨0, 0x2000000000000004, 0⟩, []) := by decide

/-- IND-2: `ind.off 2` writes 0x4000_0000. -/
theorem test_ind_off :
    see (exec (.indOff 2) { lit with per := lit.per.modifyGpio 3 fun g => { g with odr := 0xFFFF } })
      (fun t => (t.trace, t.per.gpio[3].odr)) = some ([.wr (.bsrr 3) 0x40000000], 0xBFFF) := by decide

/-- CFG-1, micro-step 14: the divisor's write. -/
theorem test_ser_init_divisor_write :
    see (exec (.serInit 9600)
        { flying serial (.serInit 9600) .configuring with seq := some ⟨0, .serInit, 13, some 0x1117⟩ })
      (fun t => (t.trace, t.per.uart.brr, t.seq.map Seq.step)) =
      some ([.wr .brr 0x00001117], 0x1117, some 14) := by decide

/-- CFG-3: `ser.init 640` at micro-step 13. -/
theorem test_ser_init_overflow :
    see (exec (.serInit 640) { flying serial (.serInit 640) .configuring with seq := some ⟨0, .serInit, 12, none⟩ })
      (fun t => (t.fault, t.faultInfo, t.faultOut, t.trace)) =
      some (some .baudOverflow, some ⟨0, 0x4000000000000280, 13⟩, 1, []) := by decide

/-- IO-R: not ready, and the data load. -/
theorem test_ser_read_not_ready :
    see (step (serial.withFetchWord 64 0x5000000000000000))
      (fun t => (t.callers.head?.map Caller.last, t.inflight, t.trace.length)) =
      some (some (some .notReady), [], 1) := by decide

theorem test_ser_read_data :
    see (exec .serRead
        (flying (withUart serial fun u => { u with rxne := true, rdr := 0x41, rdrOpen := false }) .serRead
          (.statusSampled true)))
      (fun t => (t.callers.head?.map Caller.last, t.per.uart.rxne, t.callers.head?.map Caller.latch)) =
      some (some (some (.data 0x41)), false, some (some 0x41)) := by decide

/-- IO-W: the data store, and not ready. -/
theorem test_ser_write_store :
    see (exec (.serWrite 0x48) (flying serial (.serWrite 0x48) (.statusSampled true)))
      (fun t => (t.trace, t.per.uart.tdr, t.per.uart.txe, t.callers.head?.map Caller.last)) =
      some ([.wr .dr 0x00000048], 0x48, false, some (some .ok)) := by decide

theorem test_ser_write_not_ready :
    see (exec (.serWrite 0x69) (withUart serial fun u => { u with txe := false, tdr := 0x48, tdrOpen := false }))
      (fun t => (t.callers.head?.map Caller.last, t.per.uart.tdr, t.trace.length)) =
      some (some (some .notReady), 0x48, 1) := by decide

/-- FLT-1: another caller's command in flight. -/
theorem test_concurrent_access :
    see (issueStep 1 0x5000000000000000
        { flying serial (.serInit 9600) .configuring with seq := some ⟨0, .serInit, 5, none⟩ })
      (fun t => (t.fault, t.faultInfo)) =
      some (some .concurrentAccess, some ⟨1, 0x5000000000000000, 0⟩) := by decide

/-- FLT-1: an illegal word is checked before the conflict. -/
theorem test_illegal_before_conflict :
    see (issueStep 1 0x0000000000000000 (flying serial (.serInit 9600) .configuring)) (fun t => (t.fault, t.faultInfo)) =
      some (some .illegalCommand, some ⟨1, 0x0000000000000000, 0⟩) := by decide

/-- LS-1: a byte arrives. -/
theorem test_arrival :
    (let t := rxArrive { serial with wireRxIn := [⟨0x41, true, false⟩] }
     (t.per.uart.rdr, t.per.uart.rxne, t.per.uart.fe, t.irqRx)) = (0x41, true, true, true) := by decide

/-- LS-1: before any init the byte is lost. -/
theorem test_arrival_lost :
    (let t := rxArrive { State.reset with wireRxIn := [⟨0x55, false, false⟩] }
     (t.per.uart.rxne, t.wireRxIn)) = (false, []) := by decide

/-- LS-1: TX_LOAD and TX_DONE. -/
theorem test_tx_load :
    (let t := txLoad (withUart serial fun u => { u with txe := false, tdr := 0x48, tdrOpen := false })
     (t.txShift, t.per.uart.txe)) = (some 0x48, true) := by decide

theorem test_tx_done :
    (let t := txDone { serial with txShift := some 0x48 }
     (t.txShift, t.wireTx)) = (none, [0x48]) := by decide

/-! ## The harness -/

/-- R103: `bnr` back to its label after `NOT_READY`. -/
theorem test_bnr :
    nextLine [.label 1, .cmd .serRead, .bnr 1, .halt] { Caller.reset with lc := 2, last := some .notReady } =
      .goOn { Caller.reset with lc := 1, last := some .notReady } := by decide

/-- R104, R107: `ser.write b` with the latch written, and unwritten. -/
theorem test_ser_write_b :
    nextLine [.serWriteB] { Caller.reset with latch := some 0x41 } =
      .issue 0x6000000000000041 { Caller.reset with latch := some 0x41 } ∧
    nextLine [.serWriteB] Caller.reset = .goOn { Caller.reset with status := .unwrittenLatch } ∧
    nextLine [] Caller.reset = .goOn { Caller.reset with status := .noHalt } := by decide

/-- R105, R101: `ser.getc` expands; a character is its ASCII code. -/
theorem test_assemble :
    assemble [.getc, .putc (.chr 'A'), .halt] =
      some [.label 1, .cmd .serRead, .bnr 1, .label 2, .cmd (.serWrite 0x41), .bnr 2, .halt] := by decide

/-! ## The layout -/

/-- What a test reads of a read by address: the word. -/
def word? (o : Host.Outcome (Word × State) Fault Refusal) : Option Word :=
  match o with
  | .next a => some a.1
  | .fault _ => none
  | .refused _ => none

set_option maxRecDepth 20000 in
/-- CFG-1: USART2_CR1 of the configured channel in the informative layout (R44), read by its address. -/
theorem test_register_word : word? (memRead 0x4000440C serial) = some 0x0000202C := by decide

/-- R13: the data register by its address is the data register, its read side effect with it. -/
theorem test_data_register_by_address :
    (match busRead (.word 0x40004404) (withUart serial fun u => { u with rxne := true }) with
      | .next a => a.2.per.uart.rxne
      | .fault _ | .refused _ => true) = false := by decide

set_option maxRecDepth 20000 in
/-- R60, R62: an address no row of the layout names, and one that is no multiple of 4, have no access. -/
theorem test_no_register :
    (match busWrite (.word 0x50000000) 0 serial with
      | .fault .unmappedAddress => true
      | .next _ | .fault _ | .refused _ => false) = true ∧
    (match busRead (.word 0x4000440D) serial with
      | .refused .misalignedAccess => true
      | .next _ | .fault _ | .refused _ => false) = true := by decide

/-! ## Witnesses: for each statement with hypotheses, states and operands that meet all of them together -/

/-- A `SER_READ` in flight, its byte received. -/
def reading : State :=
  flying (withUart serial fun u => { u with rxne := true, rdr := 0x41, rdrOpen := false }) .serRead (.statusSampled true)

/-- A `SER_WRITE` in flight. -/
def writing : State := flying serial (.serWrite 0x48) (.statusSampled true)

/-- `IND_INIT` in flight with `n` micro-steps done. -/
def indIniting (n : Nat) : State :=
  { flying { lit with indCfg := false } .indInit .configuring with seq := some ⟨0, .indInit, n, none⟩ }

/-- `SER_INIT` in flight with `n` micro-steps done. -/
def serIniting (baud : BitVec 32) (n : Nat) (d : Option (BitVec 16)) : State :=
  { flying { serial with serCfg := .unconfigured } (.serInit baud) .configuring with seq := some ⟨0, .serInit, n, d⟩ }

/-- A faulted block. -/
def faulted : State := { lit with fault := some .badLine, faultInfo := some ⟨0, 0x2000000000000004, 0⟩ }

/-- A state whose next step is agent `a`'s. -/
def doing (s : State) (a : AgentStep) : State := { s with schedule := [a] }

/-- A state whose caller 0 runs a harness program. -/
def harnessed (s : State) (prog : List HarnessLine) (last : Option Response) (latch : Option Byte) (lc : Nat) : State :=
  { s with callers := [{ Caller.reset with prog := some prog, last := last, latch := latch, lc := lc }, Caller.reset] }

/-- DecodeInvertsEncode, EncodeInvertsDecode. -/
theorem witness_words :
    (Instr.serWrite 0xFF).wellFormed = true ∧ (Instr.indOff 0xFFFFFFFF).wellFormed = true ∧
    decode 0x60000000000000FF = .cmd (.serWrite 0xFF) := by decide

/-- IllegalWordsFault: an illegal word at a block without a fault. -/
theorem witness_illegal : decode 0x60000000000001FF = .illegal .argHighNotZero ∧ State.reset.fault = none := by decide

/-- StepRunsDecodedInstruction, its four clauses. -/
theorem witness_step_runs :
    ((doing lit (.issue 1 0x2000000000000003)).mayIssue 1 = true ∧ decode 0x2000000000000003 = .cmd (.indOn 3)) ∧
    (doing reading (.block 0)).flightOf 0 = some ⟨0, .serRead, .statusSampled true⟩ ∧
    (let s := doing (harnessed lit [.label 1, .cmd (.indOn 2), .halt] none none 0) (.harness 0)
     s.flightOf 0 = none ∧ s.fault = none ∧
      (s.callers[0]?.map fun c => (c.status, c.lc, c.prog.map fun p => (p[0]?, p[1]?))) =
        some (.running, 0, some (some (.label 1), some (.cmd (.indOn 2))))) ∧
    (0 < State.reset.cfg.nCallers ∧ decodeTableWord 64 0x1000000000000000 = some .indInit) := by decide

/-- StepRunsDecodedInstruction, HarnessLines: a line reached over a label, and the line the label counter stands on. -/
theorem witness_reaches :
    Caller.reset.Reaches [.label 1, .cmd (.indOn 2), .halt] 1 ∧ Caller.reset.Reaches [.cmd (.indOn 2), .halt] 0 := by
  refine ⟨⟨by decide, fun m _ hm => ⟨1, ?_⟩⟩, by decide, fun m _ hm => absurd hm (Nat.not_lt_zero m)⟩
  obtain rfl : m = 0 := by omega
  rfl

/-- ParametersNeverChange, OtherRegisterBitsKept, TraceExplainsEveryStep, ClocksStayOn: a step of a caller, of the block, and reset. -/
theorem witness_steps :
    (∃ t, step (doing lit (.issue 0 0x2000000000000000)) = .next t) ∧ (∃ t, step (doing reading (.block 0)) = .next t) ∧
    (∃ t, step (doing (harnessed lit [.halt] none none 0) (.harness 0)) = .next t) ∧ (∃ t, step (doing lit .reset) = .next t) ∧
    (doing reading (.block 0)).pick.1 = .block 0 ∧ (doing lit .reset).pick.1 = .reset :=
  ⟨⟨_, rfl⟩, ⟨_, rfl⟩, ⟨_, rfl⟩, ⟨_, rfl⟩, rfl, rfl⟩

/-- ByteStoreWordWrite: a canonical store, and a whole-register write that happens. -/
theorem witness_byte_store :
    Memory.wf [(0x4000440C, 0x02), (0x4000440F, 0x80)] = true ∧ serial.per.other = [] ∧
    see (memWrite 0x40004408 0xABCD serial) (fun t => (t.per.uart.brr, t.per.other)) = some (0xABCD, []) := by decide

/-- StepKeepsInvariant, StepNeverStops, CommandsEndWithinBound: the invariant holds of an idle block that is configured. -/
theorem witness_inv_idle : lit.Inv ∧ lit.cur < lit.cfg.nCallers ∧ lit.Free (.indOn 0) ∧ lit.Free (.serInit 9600) := by
  refine ⟨⟨rfl, ⟨fun _ => rfl, fun h => SerCfg.noConfusion h, fun h => absurd rfl h⟩, ?_, ?_, trivial, rfl, ?_⟩, by decide,
    ⟨rfl, rfl, rfl⟩, rfl, rfl, rfl⟩
  · exact ⟨fun h => Bool.noConfusion h, fun h => Bool.noConfusion h, rfl⟩
  · exact ⟨fun h => Bool.noConfusion h, fun h => Bool.noConfusion h, rfl⟩
  · intro c hc prog hp
    simp only [lit, State.reset, State.resetWith, defaultParams, List.mem_replicate] at hc
    rw [hc.2] at hp
    cases hp

/-- The same, and StepKeepsEnableOrder: with a `SER_INIT` in flight after its micro-step 16. -/
theorem witness_inv_flying : (serIniting 9600 16 (some 0x1117)).Inv ∧ (serIniting 9600 16 (some 0x1117)).EnableOk ∧
    (∃ t, step (doing (serIniting 9600 16 (some 0x1117)) (.block 0)) = .next t) := by
  refine ⟨⟨?_, ⟨fun h => Bool.noConfusion h, fun h => SerCfg.noConfusion h, fun h => absurd rfl h⟩, ?_, ?_, trivial, rfl, ?_⟩,
    ⟨?_, ?_, ?_⟩, _, rfl⟩
  · exact ⟨by decide, rfl, rfl, 16, some 0x1117, by decide, by decide, rfl, fun _ => rfl, fun h => absurd h (by decide),
      fun _ => ⟨0x1117, rfl, by decide⟩, fun _ => rfl, fun _ => rfl, fun h => absurd h (by decide)⟩
  · exact ⟨fun h => Bool.noConfusion h, fun h => Bool.noConfusion h, rfl⟩
  · exact ⟨fun h => Bool.noConfusion h, fun h => Bool.noConfusion h, rfl⟩
  · intro c hc prog hp
    simp only [serIniting, flying, serial, State.reset, State.resetWith, defaultParams, List.mem_replicate] at hc
    rw [hc.2] at hp
    cases hp
  · exact ⟨fun _ => ⟨rfl, rfl, rfl, rfl, rfl, rfl⟩, fun _ => rfl, fun _ => rfl, fun _ => rfl⟩
  · exact ⟨fun h => Bool.noConfusion h, fun h => Bool.noConfusion h, fun h => Bool.noConfusion h, fun h => Bool.noConfusion h⟩
  · intro q hq _
    cases hq
    exact ⟨fun _ => rfl, fun _ => rfl, fun _ => rfl, fun _ => rfl, fun _ => rfl, fun _ => rfl, fun _ => rfl⟩

/-- FlagsClearedOnlyByDataAccess, NotificationOutput: a step that clears `rxne`, and one that clears `txe`. -/
theorem witness_flags_cleared :
    (reading.per.uart.rxne = true ∧ reading.irqRx = true ∧
      see (step (doing reading (.block 0))) (fun t => (t.per.uart.rxne, t.irqRx)) = some (false, false)) ∧
    (writing.per.uart.txe = true ∧ see (step (doing writing (.block 0))) (fun t => t.per.uart.txe) = some false) := by decide

/-- AssemblerWords: the largest immediates that fit. -/
theorem witness_assembler :
    (Source.indOn (.num 0xFFFFFFFF)).word = some 0x20000000FFFFFFFF ∧ (Source.indOn (.num 0x100000000)).word = none ∧
    (Source.serWrite (.num 0xFF)).word = some 0x60000000000000FF ∧ (Source.serWrite (.num 0x100)).word = none ∧
    'A'.toNat < 128 ∧ (Char.ofNat 0x7F).toNat < 128 ∧ 128 ≤ (Char.ofNat 0x80).toNat := by decide

/-- AssemblerWords: a pseudo-instruction between other lines, and one with an immediate that does not fit. -/
theorem witness_pseudo :
    assemble ([.label 4, .br 4] ++ .putc (.chr 'A') :: [.getc, .putcB]) =
      some [.label 4, .br 4, .label 7, .cmd (.serWrite 0x41), .bnr 7, .label 8, .cmd .serRead, .bnr 8, .label 9, .serWriteB, .bnr 9] ∧
    (Imm.chr 'A').byte = some 0x41 ∧ (Imm.num 0x100).byte = none := by decide

/-- ResetGivesTable: a state that has run, its `RESET_PERIPH` the table's, and reset next. -/
theorem witness_reset : (doing faulted .reset).cfg.resetPeriph = Periph.resetValue ∧
    (doing faulted .reset).schedule = .reset :: [] := ⟨rfl, rfl⟩

/-- AdmissionChecksInOrder, ConflictRule: each check in turn, the first that applies; and the fault of micro-step 13. -/
theorem witness_admission :
    (faulted.flightOf faulted.cur = none ∧ faulted.fault ≠ none) ∧
    (lit.fault = none ∧ decode 0x7000000000000000 = .illegal .reservedOp) ∧
    (let s := { writing with cur := 1 }
     s.fault = none ∧ s.flightOf s.cur = none ∧ s.conflict s.cur .serRead = true ∧ s.conflict s.cur (.serInit 9600) = true ∧
      s.conflict s.cur (.indOn 0) = false ∧ { serIniting 9600 1 none with cur := 1 }.conflict 1 (.indOn 0) = true) ∧
    (State.reset.conflict 0 (.indOn 0) = false ∧ State.reset.indCfg = false) ∧
    (lit.indCfg = true ∧ (4 : BitVec 32).toNat > 3 ∧ (3 : BitVec 32).toNat ≤ 3) ∧ lit.serCfg ≠ .configured ∧
    (serial.serCfg = .configured ∧ see (issueWord 0x5000000000000000 serial) (fun t => t.trace.length) = some 1) ∧
    see (exec (.serInit 0) (serIniting 0 12 none)) (fun t => (t.fault, t.faultInfo)) =
      some (some .baudZero, some ⟨0, 0x4000000000000000, 13⟩) := by decide

/-- FaultTable: each cause once, with its code. -/
theorem witness_fault_table :
    see (exec (.serInit 640) (serIniting 640 12 none)) (fun t => (t.fault, t.faultOut)) = some (some .baudOverflow, 1) ∧
    see (exec (.serInit 0) (serIniting 0 12 none)) (fun t => (t.fault, t.faultOut)) = some (some .baudZero, 2) ∧
    see (exec .serRead State.reset) (fun t => (t.fault, t.faultOut)) = some (some .serNotConfigured, 3) ∧
    see (exec (.indOff 0) State.reset) (fun t => (t.fault, t.faultOut)) = some (some .indNotConfigured, 4) ∧
    see (exec (.indOn 4) lit) (fun t => (t.fault, t.faultOut)) = some (some .badLine, 5) ∧
    see (exec .indInit { writing with cur := 1 }) (fun t => (t.fault, t.faultOut)) = some (some .concurrentAccess, 7) ∧
    see (issueWord 0x2800000000000000 lit) (fun t => (t.fault, t.faultOut)) = some (some .illegalCommand, 6) := by decide

/-- FaultIsSticky: a faulted block, and steps of it that are no reset. -/
theorem witness_sticky : faulted.fault ≠ none ∧ (doing faulted .rxArrive).pick.1 ≠ .reset ∧
    ∃ t, step (doing faulted .rxArrive) = .next t := ⟨by decide, by decide, _, rfl⟩

/-- FieldWriteChangesOneField: fields of every unit. -/
theorem witness_field_write :
    (Field.uartStop.writable = true ∧ serial.per.clocked .uartStop = true) ∧
    ((Field.gpioAf 0 15).writable = true ∧ serial.per.clocked (.gpioAf 0 15) = true) ∧
    ((Field.rccGpioEn 15).writable = true ∧ State.reset.per.clocked (.rccGpioEn 15) = true) := by decide

/-- SetResetRegisterWrite, StatusReadCarriesFlags, DataReadEffect: clocked peripherals, and a layout whose flags stand apart; a
receive register that has and one that has not received a byte. -/
theorem witness_bus :
    lit.per.rcc.gpioEn[(3 : Port)] = true ∧ serial.per.rcc.uartEn = true ∧ serial.cfg.layout.statusOk = true ∧
    reading.per.uart.rdrOpen = false ∧ serial.per.uart.rdrOpen = true := by decide

/-- IndInitCompletes, IndInitCornerCases, IndInitMicroSteps: the first micro-step, a middle one and the last. -/
theorem witness_ind_init :
    State.reset.Free .indInit ∧
    ((indIniting 1).Flying .indInit .configuring ∧ (1 + 1, .gpioMode 3 12, 1) ∈ indInitTable (indIniting 1).cfg ∧
      (indIniting 1).per.clocked (.gpioMode 3 12) = true) ∧
    ((indIniting 8).Flying .indInit .configuring ∧ (8 + 1, .gpioOtype 3 15, 0) ∈ indInitTable (indIniting 8).cfg ∧
      (indIniting 8).per.clocked (.gpioOtype 3 15) = true) :=
  ⟨⟨rfl, rfl, rfl⟩, ⟨⟨rfl, rfl⟩, by decide, rfl⟩, ⟨rfl, rfl⟩, by decide, rfl⟩

/-- IndInitCornerCases, IndicatorFrame, SerialConfigFrame: a pin that is no line's, a port that is no parameter, a caller that is not the
current one. -/
theorem witness_other_pins :
    defaultParams.pinsApart = true ∧ (∀ k : LineIdx, defaultParams.indPin[k] ≠ (11 : Pin)) ∧ (1 : Port) ≠ defaultParams.indPort ∧
    (1 : Port) ≠ defaultParams.serPort ∧ (0 : Pin) ≠ defaultParams.txPin ∧ (0 : Pin) ≠ defaultParams.rxPin ∧ 1 ≠ lit.cur := by
  decide

/-- IndicatorFrame, SerialConfigFrame, TransferFrame, ResponsesOfCommands: each command gives a next state. -/
theorem witness_commands_run :
    (∃ t, exec .indInit State.reset = .next t) ∧ (∃ t, exec (.indOn 3) lit = .next t) ∧ (∃ t, exec (.indOff 0) lit = .next t) ∧
    (∃ t, exec (.serInit 9600) State.reset = .next t) ∧ (∃ t, exec .serRead reading = .next t) ∧
    (∃ t, exec (.serWrite 0x48) writing = .next t) :=
  ⟨⟨_, rfl⟩, ⟨_, rfl⟩, ⟨_, rfl⟩, ⟨_, rfl⟩, ⟨_, rfl⟩, _, rfl⟩

/-- IndOnWritesSetBit, IndOffWritesClearBit, LinesAreIndependent: the lowest and the highest line. -/
theorem witness_lines :
    (lit.Free (.indOn 0) ∧ lit.Free (.indOff 0) ∧ (0 : BitVec 32).toNat = (0 : LineIdx).val) ∧
    (lit.Free (.indOn 3) ∧ lit.Free (.indOff 3) ∧ (3 : BitVec 32).toNat = (3 : LineIdx).val) ∧ lit.indCfg = true ∧
    lit.per.rcc.gpioEn[lit.cfg.indPort] = true ∧ lit.cfg.linesDistinct = true ∧ (0 : LineIdx) ≠ 3 :=
  ⟨⟨⟨rfl, rfl, rfl⟩, ⟨rfl, rfl, rfl⟩, rfl⟩, ⟨⟨rfl, rfl, rfl⟩, ⟨rfl, rfl, rfl⟩, rfl⟩, rfl, rfl, by decide, by decide⟩

/-- IndicatorChecks: not configured; configured with the first line that is none. -/
theorem witness_indicator_checks :
    (State.reset.Free (.indOn 4) ∧ State.reset.indCfg = false) ∧ (lit.Free (.indOff 4) ∧ lit.indCfg = true ∧ (4 : BitVec 32).toNat > 3) :=
  ⟨⟨⟨rfl, rfl, rfl⟩, rfl⟩, ⟨rfl, rfl, rfl⟩, rfl, by decide⟩

/-- DivisorRoundsToNearest, DivisorRangeAndSplit, DivisorOverflowBoundary, SmallDivisorsAccepted: a tie; the last divisor that fits and the
first that does not; the largest small one. -/
theorem witness_divisors :
    0 < 2 ∧ 2 * 3 = (2 * 1 + 1) * 2 ∧ (2 : BitVec 32) ≠ 0 ∧ roundDiv .down 131071 2 = 0xFFFF ∧ roundDiv .up 131071 2 = 0x10000 ∧
    roundDiv .up 31 2 = 16 ∧ roundDiv .down 31 2 = 15 ∧ (∃ D, brrCalc .up 42000000 641 = .ok D) := by
  refine ⟨by decide, by decide, by decide, by decide, by decide, by decide, by decide, 0xFFF3, by decide⟩

/-- SerInitCompletes, SerInitRepeat, SerInitDivisorFault, SerInitMicroSteps: an accepted divisor, the two refusals, and the rows of the table that differ. -/
theorem witness_ser_init :
    (State.reset.Free (.serInit 9600) ∧ brrCalc State.reset.cfg.tieRule State.reset.cfg.pclkHz 9600 = .ok 0x1117) ∧
    (State.reset.Free (.serInit 0) ∧ brrCalc State.reset.cfg.tieRule State.reset.cfg.pclkHz 0 = .err .baudZero) ∧
    (State.reset.Free (.serInit 640) ∧ brrCalc State.reset.cfg.tieRule State.reset.cfg.pclkHz 640 = .err .baudOverflow) ∧
    ((serIniting 9600 11 none).Flying (.serInit 9600) .configuring ∧
      (11 + 1, .uartCtse, 0) ∈ serInitTable (serIniting 9600 11 none).cfg ∧
      (serIniting 9600 11 none).per.clocked .uartCtse = true) ∧
    (serIniting 9600 12 none).Flying (.serInit 9600) .configuring ∧
    ((serIniting 9600 13 (some 0x1117)).Flying (.serInit 9600) .configuring ∧
      (serIniting 9600 13 (some 0x1117)).per.rcc.uartEn = true) ∧
    (serIniting 9600 17 (some 0x1117)).Flying (.serInit 9600) .configuring :=
  ⟨⟨⟨rfl, rfl, rfl⟩, by decide⟩, ⟨⟨rfl, rfl, rfl⟩, by decide⟩, ⟨⟨rfl, rfl, rfl⟩, by decide⟩, ⟨⟨rfl, rfl⟩, by decide, rfl⟩, ⟨rfl, rfl⟩,
    ⟨⟨rfl, rfl⟩, rfl⟩, rfl, rfl⟩

/-- The statements on `SER_READ`: a sample of each value of the flag, the data load, a byte received. -/
theorem witness_ser_read :
    (serial.Free .serRead ∧ serial.serCfg = .configured ∧ serial.per.rcc.uartEn = true ∧ serial.per.uart.rxne = false) ∧
    (let s := withUart serial fun u => { u with rxne := true, rdr := 0x41, rdrOpen := false }
     s.Free .serRead ∧ s.serCfg = .configured ∧ s.per.rcc.uartEn = true ∧ s.per.uart.rxne = true ∧ s.per.uart.rdrOpen = false) ∧
    (let s := withUart serial fun u => { u with rdr := 0x41, rdrOpen := false }
     s.Free .serRead ∧ s.per.uart.rxne = false ∧ s.per.uart.rdrOpen = false) ∧
    (reading.Flying .serRead (.statusSampled true) ∧ reading.per.rcc.uartEn = true ∧ reading.per.uart.rdrOpen = false ∧
      reading.per.rxActive = true ∧ reading.per.uart.rxne = true) :=
  ⟨⟨⟨rfl, rfl, rfl⟩, rfl, rfl, rfl⟩, ⟨⟨rfl, rfl, rfl⟩, rfl, rfl, rfl, rfl⟩, ⟨⟨rfl, rfl, rfl⟩, rfl, rfl⟩, ⟨rfl, rfl⟩, rfl, rfl, rfl, rfl⟩

/-- The statements on `SER_WRITE`: a sample of each value of the flag, the data store, an accepted byte, the shift register empty and
not. -/
theorem witness_ser_write :
    (serial.Free (.serWrite 0x48) ∧ serial.serCfg = .configured ∧ serial.per.rcc.uartEn = true ∧ serial.per.uart.txe = true) ∧
    (let s := withUart serial fun u => { u with txe := false }
     s.Free (.serWrite 0x48) ∧ s.serCfg = .configured ∧ s.per.rcc.uartEn = true ∧ s.per.uart.txe = false) ∧
    (writing.Flying (.serWrite 0x48) (.statusSampled true) ∧ writing.per.rcc.uartEn = true ∧ writing.per.uart.txe = true ∧
      writing.per.txActive = true ∧ writing.txShift = none) ∧
    (let s := { writing with txShift := some 0x41 }
     s.Flying (.serWrite 0x48) (.statusSampled true) ∧ s.per.txActive = true ∧ s.txShift = some 0x41) :=
  ⟨⟨⟨rfl, rfl, rfl⟩, rfl, rfl, rfl⟩, ⟨⟨rfl, rfl, rfl⟩, rfl, rfl, rfl⟩, ⟨⟨rfl, rfl⟩, rfl, rfl, rfl, rfl⟩, ⟨rfl, rfl⟩, rfl, rfl⟩

/-- TransfersNeedConfiguration. -/
theorem witness_not_configured :
    State.reset.Free .serRead ∧ State.reset.Free (.serWrite 0) ∧ State.reset.serCfg ≠ .configured :=
  ⟨⟨rfl, rfl, rfl⟩, ⟨rfl, rfl, rfl⟩, by decide⟩

/-- ArrivalEffect, NotificationOutput: an arrival at an empty, at a full and at an inactive receiver. -/
theorem witness_arrivals :
    (let s := { serial with wireRxIn := [⟨0x41, false, false⟩] }
     s.per.rxActive = true ∧ s.per.uart.rxne = false ∧ s.per.uart.rxneie = true) ∧
    (let s := { reading with wireRxIn := [⟨0x42, true, false⟩] }
     s.per.rxActive = true ∧ s.per.uart.rxne = true) ∧
    { State.reset with wireRxIn := [⟨0x43, false, true⟩] }.per.rxActive = false ∧
    (serial.wireRxIn = [] ∧ serial.per.rxActive = true ∧ serial.per.uart.rxne = false) ∧
    (reading.wireRxIn = [] ∧ reading.per.rxActive = true ∧ reading.per.uart.rxne = true) := by decide

/-- TxLoadStep, TxDoneStep: a byte waiting, a byte shifting, and each reason why neither step is enabled. -/
theorem witness_transmit :
    (let s := withUart serial fun u => { u with txe := false, tdrOpen := false }
     s.per.rcc.uartEn = true ∧ s.per.uart.ue = true ∧ s.per.uart.te = true ∧ s.per.uart.txe = false ∧ s.txShift = none ∧
      s.per.uart.tdrOpen = false) ∧
    (let s := { serial with txShift := some 0x48 }
     s.per.txActive = true ∧ s.txShift = some 0x48) ∧
    (State.reset.per.txActive = false ∧ State.reset.per.uart.ue = false) ∧ (serial.per.uart.txe = true ∧ serial.txShift = none) := by decide

/-- HarnessLines: a caller before each kind of line, and a program that assembles. -/
theorem witness_harness :
    (let s := harnessed lit [.label 1, .bnr 1, .br 1, .serWriteB, .halt] (some .notReady) none 1
     s.flightOf 0 = none ∧ labelTarget [.label 1, .bnr 1, .br 1, .serWriteB, .halt] 1 = some 1 ∧
      s.callers[0]?.map (fun c => (c.status, c.lc, c.last, c.latch)) = some (.running, 1, some .notReady, none)) ∧
    (let s := harnessed lit [.label 1, .bnr 1, .br 1, .serWriteB, .halt] (some .ok) (some 0x41) 3
     s.fault = none ∧ s.callers[0]?.map (fun c => (c.status, c.lc, c.latch)) = some (.running, 3, some 0x41)) ∧
    (HarnessLine.bnr 1) ∈ [HarnessLine.label 1, .cmd .serRead, .bnr 1] ∧
    assemble [.getc] = some [.label 1, .cmd .serRead, .bnr 1] := by decide

set_option maxRecDepth 40000 in
/-- AddressedAccess: a misaligned address, registers apart, a field whose register has no rules of its own, with its clock off and on, and a
read-only one. -/
theorem witness_addressed :
    (0x4000440D : Word).toNat % 4 ≠ 0 ∧ Layout.stm32f4.aligned = true ∧ Layout.stm32f4.registersApart = true ∧
    (Layout.stm32f4.slot .uartUe).addr ∉ Layout.stm32f4.ownAddrs ∧ State.reset.per.clocked .uartUe = false ∧
    (Layout.stm32f4.slot (.gpioOdr 3 12)).addr ∉ Layout.stm32f4.ownAddrs ∧ (Field.gpioOdr 3 12).writable = false ∧
    serial.per.rcc.uartEn = true ∧ State.reset.per.rcc.uartEn = false ∧ State.reset.per.rcc.gpioEn[(0 : Port)] = false := by
  decide

set_option maxRecDepth 40000 in
/-- AddressedAccess: every field of a read-only register clocked, and an address the layout does not name. -/
theorem witness_addressed_fields :
    (∀ g : Field, (Layout.stm32f4.slot g).addr = (Layout.stm32f4.slot (.gpioOdr 3 12)).addr → lit.per.clocked g = true) ∧
    (∀ f : Field, (Layout.stm32f4.slot f).addr ≠ 0x50000000) ∧ ∀ p : Port, Layout.stm32f4.bsrr[p] ≠ 0x50000000 := by
  refine ⟨fun g hg => ?_, fun f hf => ?_, by decide⟩
  · exact (List.all_eq_true.1 (by decide : (Layout.stm32f4.fieldsAt 0x40020C14).all lit.per.clocked = true)) g
      (Layout.mem_fieldsAt.2 hg)
  · exact absurd (Layout.mem_fieldsAt.2 hf) ((by decide : Layout.stm32f4.fieldsAt 0x50000000 = []) ▸ List.not_mem_nil)

set_option maxRecDepth 40000 in
/-- WholeWordAccess: USART2_CR3 of a configured channel, whose two fields share no bit, written and still clocked. -/
theorem witness_whole_word :
    Layout.stm32f4.slotsFit = true ∧ Layout.stm32f4.disjointAt 0x40004414 ∧ (0x40004414 : Word).toNat % 4 = 0 ∧
    (0x40004414 : Word) ∉ Layout.stm32f4.ownAddrs ∧ (Layout.stm32f4.slot .uartRtse).addr = 0x40004414 ∧
    (∀ f : Field, (Layout.stm32f4.slot f).addr = 0x40004414 → serial.per.clocked f = true ∧ f.writable = true) ∧
    Memory.wf serial.per.other = true := by
  have hf : Layout.stm32f4.fieldsAt 0x40004414 = [.uartRtse, .uartCtse] := by decide
  refine ⟨by decide, ?_, by decide, by decide, by decide, fun f h => ?_, by decide⟩
  · unfold Layout.disjointAt
    rw [hf]
    decide
  · have := Layout.mem_fieldsAt.2 h
    rw [hf] at this
    simp only [List.mem_cons, List.not_mem_nil, or_false] at this
    rcases this with rfl | rfl <;> exact ⟨rfl, rfl⟩

set_option maxRecDepth 40000 in
/-- A layout in which two fields of one register share a bit is no such layout. -/
theorem test_shared_bit_refused : ¬ ({ Layout.stm32f4 with ctse := bitSlot 0x40004414 8 } : Layout).disjointAt 0x40004414 := by
  unfold Layout.disjointAt
  rw [show ({ Layout.stm32f4 with ctse := bitSlot 0x40004414 8 } : Layout).fieldsAt 0x40004414 = [.uartRtse, .uartCtse] by decide]
  decide

end Sys2Proof.Tests
end

section
/-! Proofs of the statements of the scope: what a step is (rules R7, R18, R90, R102), what no step changes (rules R8 to R11), that the trace
explains every change of the peripherals (rules R28, R45), and the accesses by address (rules R13, R60, R62, R72). -/

namespace Sys2Proof.Machine

open Sys2Proof Sys2Proof.Config

/-- A step is a pick of the next agent, then that agent's step (rule R75). -/
theorem step_eq (s : State) : step s = agentStep s.pick.1 s.pick.2 := rfl

/-! ## The trace explains a change -/

/-- At most one transaction from `s` to `t`, and the entry it leaves in the trace explains the change of the peripheral fields (rules R28, R45). -/
def State.Traced (s t : State) : Prop :=
  (t.trace = s.trace ∧ t.per = s.per) ∨ ∃ e, t.trace = s.trace ++ [e] ∧ e.Explains s.per t.per

theorem State.traced_self (s : State) : s.Traced s := .inl ⟨rfl, rfl⟩

theorem State.traced_raiseFault (s : State) (c : FaultCause) (w : CmdWord) (n : Nat) : s.Traced (s.raiseFault c w n) := .inl ⟨rfl, rfl⟩

theorem State.Traced.of_event {s t : State} (e : Event) (ht : t.trace = s.trace ++ [e]) (he : e.Explains s.per t.per) : s.Traced t :=
  .inr ⟨e, ht, he⟩

/-- A flag drawn after a data read is never newly set (rule R67). -/
theorem drawnFlag_imp {flag keep : Bool} (h : drawnFlag flag keep = true) : flag = true :=
  ((Bool.and_eq_true _ _).mp h).1

/-- A data read explains what it does to the UART: `rxne` and error flags cleared only, the byte received returned (rules R64, R65, R67). -/
theorem explains_readDr (per : Periph) (drawn : Word) (n : Nat) :
    (Event.rd .dr (drWord per.uart drawn)).Explains per { per with uart := per.uart.afterRead n } :=
  ⟨rfl, drawnFlag_imp, drawnFlag_imp, drawnFlag_imp, fun h => by simp [wordByte_drWord, drByte, h]⟩

/-- Every command, whatever state it meets, makes at most one transaction, and its entry explains it (rules R7, R28). -/
theorem exec_traced {i : Instr} {s t : State} (h : exec i s = .next t) : s.Traced t := by
  cases i with
  | indInit =>
    rcases exec_indInit_cases h with ⟨-, rfl⟩ | ⟨-, -, -, rfl⟩ | ⟨-, rfl⟩ | ⟨-, n, d, f, v, -, -, -, ⟨-, rfl⟩ | ⟨-, rfl⟩⟩
    · exact t.traced_self
    · exact s.traced_raiseFault _ _ _
    · exact .of_event (.w (.rccGpioEn s.cfg.indPort) 1) rfl rfl
    · exact .of_event (.w f v) rfl rfl
    · exact .of_event (.w f v) rfl rfl
  | indOn line =>
    rcases exec_indOn_cases h with ⟨-, rfl⟩ | ⟨-, -, -, rfl⟩ | ⟨-, c, -, rfl⟩ | ⟨-, -, -, -, rfl⟩
    · exact t.traced_self
    · exact s.traced_raiseFault _ _ _
    · exact s.traced_raiseFault _ _ _
    · exact .of_event (.wr (.bsrr s.cfg.indPort) (setWord (linePin s.cfg (lineIdx line)))) rfl rfl
  | indOff line =>
    rcases exec_indOff_cases h with ⟨-, rfl⟩ | ⟨-, -, -, rfl⟩ | ⟨-, c, -, rfl⟩ | ⟨-, -, -, -, rfl⟩
    · exact t.traced_self
    · exact s.traced_raiseFault _ _ _
    · exact s.traced_raiseFault _ _ _
    · exact .of_event (.wr (.bsrr s.cfg.indPort) (clearWord (linePin s.cfg (lineIdx line)))) rfl rfl
  | serInit baud =>
    rcases exec_serInit_cases h with ⟨-, rfl⟩ | ⟨-, -, -, rfl⟩ | ⟨-, rfl⟩ | ⟨-, n, d, -, -, ⟨f, v, -, -, ⟨-, rfl⟩ | ⟨-, rfl⟩⟩ |
      ⟨-, D, -, rfl⟩ | ⟨-, c, -, rfl⟩ | ⟨-, -, D, -, rfl⟩⟩
    · exact t.traced_self
    · exact s.traced_raiseFault _ _ _
    · exact .of_event (.w .rccUartEn 1) rfl rfl
    · exact .of_event (.w f v) rfl rfl
    · exact .of_event (.w f v) rfl rfl
    · exact .inl ⟨rfl, rfl⟩
    · exact s.traced_raiseFault _ _ _
    · exact .of_event (.wr .brr (D.setWidth 32)) rfl rfl
  | serRead =>
    rcases exec_serRead_cases h with ⟨-, rfl⟩ | ⟨-, -, -, rfl⟩ | ⟨-, -, rfl⟩ | ⟨-, -, -, x, ⟨-, rfl⟩ | ⟨-, rfl⟩⟩ | ⟨-, -, rfl⟩
    · exact t.traced_self
    · exact s.traced_raiseFault _ _ _
    · exact s.traced_raiseFault _ _ _
    · exact .of_event (.rd .sr x) rfl rfl
    · exact .of_event (.rd .sr x) rfl rfl
    · exact .of_event _ rfl (explains_readDr s.per (freeWord s.draws) (s.draws + 1))
  | serWrite byte =>
    rcases exec_serWrite_cases h with ⟨-, rfl⟩ | ⟨-, -, -, rfl⟩ | ⟨-, -, rfl⟩ | ⟨-, -, -, x, ⟨-, rfl⟩ | ⟨-, rfl⟩⟩ | ⟨-, -, rfl⟩
    · exact t.traced_self
    · exact s.traced_raiseFault _ _ _
    · exact s.traced_raiseFault _ _ _
    · exact .of_event (.rd .sr x) rfl rfl
    · exact .of_event (.rd .sr x) rfl rfl
    · exact .of_event (.wr .dr (byteWord byte)) rfl (by simp [Event.Explains, Uart.afterWrite])

theorem issueWord_traced {w : CmdWord} {s t : State} (h : issueWord w s = .next t) : s.Traced t := by
  rcases issueWord_cases h with ⟨-, rfl⟩ | ⟨-, -, rfl⟩ | ⟨-, i, -, he⟩
  · exact t.traced_self
  · exact s.traced_raiseFault _ _ _
  · exact (exec_traced he :)

theorem issueStep_traced {k : Nat} {w : CmdWord} {s t : State} (h : issueStep k w s = .next t) : s.Traced t := by
  rcases issueStep_cases h with ⟨-, rfl⟩ | ⟨-, hw⟩
  · exact t.traced_self
  · exact (issueWord_traced hw :)

theorem blockStep_traced {k : Nat} {s t : State} (h : blockStep k s = .next t) : s.Traced t := by
  rcases blockStep_cases h with ⟨-, rfl⟩ | ⟨f, -, he⟩
  · exact t.traced_self
  · exact (exec_traced he :)

theorem harnessStep_traced {k : Nat} {s t : State} (h : harnessStep k s = .next t) : s.Traced t := by
  rcases harnessStep_cases h with rfl | ⟨c, prog, n, st, -, -, -, -, rfl | ⟨i, -, hw⟩⟩
  · exact t.traced_self
  · exact .inl ⟨rfl, rfl⟩
  · exact (issueWord_traced hw :)

/-- Picking the next agent makes no transaction. -/
theorem traced_of_pick {s t : State} (h : s.pick.2.Traced t) : s.Traced t := by
  simpa only [State.Traced, pick_trace, pick_per] using h

/-- Settles O15: each of the three agents performs at most one micro-step of one command, and `exec_traced` holds for every command. -/
theorem traceExplainsEveryStep : Obligations.TraceExplainsEveryStep := by
  rintro s t h ⟨k, hk⟩
  rw [step_eq] at h
  refine traced_of_pick ?_
  rcases hk with ⟨w, hp⟩ | hp | hp <;> rw [hp] at h
  · exact issueStep_traced h
  · exact blockStep_traced h
  · exact harnessStep_traced h

/-! ## What no step changes -/

/-- The machine's fixed inputs are the same in both states: the parameters and the callers' programs (rules R8 to R11, R102). -/
def State.SameSetup (s t : State) : Prop := t.cfg = s.cfg ∧ t.callers.map Caller.prog = s.callers.map Caller.prog

/-- A caller put back with its own program leaves the programs. -/
theorem map_prog_set {l : List Caller} {k : Nat} {c d : Caller} (hc : l[k]? = some c) (hd : d.prog = c.prog) :
    (l.set k d).map Caller.prog = l.map Caller.prog := by
  obtain ⟨hk, rfl⟩ := List.getElem?_eq_some_iff.1 hc
  rw [List.map_set, hd, ← List.getElem_map Caller.prog (h := by simpa using hk), List.set_getElem_self]

theorem exec_sameSetup {i : Instr} {s t : State} (h : exec i s = .next t) : s.SameSetup t := by
  obtain ⟨hcfg, -, -, -, -, -, -, hprog⟩ := exec_keeps h
  exact ⟨hcfg, hprog⟩

theorem issueWord_sameSetup {w : CmdWord} {s t : State} (h : issueWord w s = .next t) : s.SameSetup t := by
  rcases issueWord_cases h with ⟨-, rfl⟩ | ⟨-, -, rfl⟩ | ⟨-, i, -, he⟩
  · exact ⟨rfl, rfl⟩
  · exact ⟨rfl, rfl⟩
  · exact (exec_sameSetup he :)

theorem harnessStep_sameSetup {k : Nat} {s t : State} (h : harnessStep k s = .next t) : s.SameSetup t := by
  rcases harnessStep_cases h with rfl | ⟨c, prog, n, st, hc, -, -, -, rfl | ⟨i, -, hw⟩⟩
  · exact ⟨rfl, rfl⟩
  · exact ⟨rfl, map_prog_set hc rfl⟩
  · obtain ⟨hcfg, hprog⟩ := issueWord_sameSetup hw
    exact ⟨hcfg, hprog.trans (map_prog_set hc rfl)⟩

theorem resetEvent_sameSetup (s : State) : s.SameSetup s.resetEvent :=
  ⟨rfl, by simp [State.resetEvent, Function.comp_def]⟩

/-- No step of any agent changes the parameters or a caller's program. -/
theorem agentStep_sameSetup {a : AgentStep} {s t : State} (h : agentStep a s = .next t) : s.SameSetup t := by
  cases a with
  | issue k w =>
    rcases issueStep_cases h with ⟨-, rfl⟩ | ⟨-, hw⟩
    · exact ⟨rfl, rfl⟩
    · exact (issueWord_sameSetup hw :)
  | block k =>
    rcases blockStep_cases h with ⟨-, rfl⟩ | ⟨f, -, he⟩
    · exact ⟨rfl, rfl⟩
    · exact (exec_sameSetup he :)
  | harness k => exact harnessStep_sameSetup h
  | rxArrive =>
    obtain ⟨_, _, _, _, _, _, _, hs⟩ := rxArrive_eq s
    obtain rfl := Host.Outcome.next.inj h
    rw [hs]
    exact ⟨rfl, rfl⟩
  | txLoad =>
    obtain ⟨_, _, hs⟩ := txLoad_eq s
    obtain rfl := Host.Outcome.next.inj h
    rw [hs]
    exact ⟨rfl, rfl⟩
  | txDone =>
    obtain ⟨_, _, hs⟩ := txDone_eq s
    obtain rfl := Host.Outcome.next.inj h
    rw [hs]
    exact ⟨rfl, rfl⟩
  | reset =>
    obtain rfl := Host.Outcome.next.inj h
    exact resetEvent_sameSetup s

/-- Settles O7, agent by agent: a step is a pick, which leaves the setup, and then a step of the agent picked. -/
theorem parametersNeverChange : Obligations.ParametersNeverChange := by
  intro s t h
  rw [step_eq] at h
  obtain ⟨hcfg, hprog⟩ := agentStep_sameSetup h
  exact ⟨by rw [hcfg, pick_cfg], by rw [hprog, pick_callers]⟩

/-! ## Accesses by address -/

/-- Every register address of an aligned layout is a multiple of 4 (rule R62). -/
theorem Layout.aligned_addr {L : Layout} (h : L.aligned = true) :
    (∀ f : Field, (L.slot f).addr.toNat % 4 = 0) ∧ (∀ p : Port, L.bsrr[p].toNat % 4 = 0) ∧ L.dr.toNat % 4 = 0 := by
  simp only [Layout.aligned, Bool.and_eq_true, List.all_eq_true, beq_iff_eq] at h
  obtain ⟨⟨hslot, hbsrr⟩, hdr⟩ := h
  exact ⟨fun f => hslot f f.mem_all, fun p => hbsrr _ (by simp), hdr⟩

theorem atRegister_misaligned {α : Type} {addr : Word} {s : State} (k : BusReg → Host.Outcome α Fault Refusal)
    (h : addr.toNat % 4 ≠ 0) : atRegister addr s k = .refused .misalignedAccess := by
  simp [atRegister, h]

theorem atRegister_unmapped {α : Type} {addr : Word} {s : State} (k : BusReg → Host.Outcome α Fault Refusal)
    (ha : addr.toNat % 4 = 0) (hr : s.cfg.layout.regAt addr = none) : atRegister addr s k = .fault .unmappedAddress := by
  simp [atRegister, ha, hr]

/-- The layout names nothing at an address that is no data register's, no set/reset register's and no field's (rule R60). -/
theorem Layout.regAt_eq_none {L : Layout} {addr : Word} (hd : addr ≠ L.dr) (hb : ∀ p : Port, L.bsrr[p] ≠ addr)
    (hf : ∀ f : Field, (L.slot f).addr ≠ addr) : L.regAt addr = none := by
  have hsr : addr ≠ L.rxne.addr := (hf .uartRxne).symm
  have hbrr : addr ≠ L.brr.addr := (hf .uartBrr).symm
  have hport : idx16.find? (fun p => L.bsrr[p] == addr) = none := List.find?_eq_none.2 fun p _ => by simpa using hb p
  have hfields : L.fieldsAt addr = [] := List.eq_nil_iff_forall_not_mem.2 fun f h => hf f (Layout.mem_fieldsAt.1 h)
  unfold Layout.regAt
  rw [if_neg hd, if_neg hsr, if_neg hbrr, hport]
  simp [hfields]

/-- At an aligned address of the layout the memory accesses are those of the register there (rules R13, R60). -/
theorem memAccess_eq {addr : Word} {s : State} {r : BusReg} (ha : addr.toNat % 4 = 0) (hr : s.cfg.layout.regAt addr = some r)
    (w : Word) : memRead addr s = regRead r s ∧ memWrite addr w s = regWrite r w s :=
  ⟨atRegister_eq _ ha hr, atRegister_eq _ ha hr⟩

/-- A field whose clock is off keeps the fields of its register from being all clocked. -/
theorem all_clocked_eq_false {L : Layout} {per : Periph} {f : Field} (h : per.clocked f = false) :
    (L.fieldsAt (L.slot f).addr).all per.clocked = false :=
  List.all_eq_false.2 ⟨f, Layout.mem_fieldsAt.2 rfl, by simp [h]⟩

/-- With the clock of a field off, a whole-word access of its register is refused (rule R72, item I7). -/
theorem wordAccess_unclocked {f : Field} {s : State} (h : s.per.clocked f = false) (w : Word) :
    regRead (.word (s.cfg.layout.slot f).addr) s = .refused .unclockedPeripheral ∧
      regWrite (.word (s.cfg.layout.slot f).addr) w s = .refused .unclockedPeripheral := by
  simp [regRead, regWrite, readWord, writeWord, all_clocked_eq_false h]

/-- A whole-word write of a clocked register with a read-only field is refused (rule R32). -/
theorem writeWord_readOnly {f : Field} {s : State} (hw : f.writable = false)
    (hc : ∀ g : Field, (s.cfg.layout.slot g).addr = (s.cfg.layout.slot f).addr → s.per.clocked g = true) (w : Word) :
    writeWord (s.cfg.layout.slot f).addr w s = .refused .readOnlyRegister := by
  have hall : (s.cfg.layout.fieldsAt (s.cfg.layout.slot f).addr).all s.per.clocked = true :=
    List.all_eq_true.2 fun g hg => hc g (Layout.mem_fieldsAt.1 hg)
  have hro : (s.cfg.layout.fieldsAt (s.cfg.layout.slot f).addr).all Field.writable = false :=
    List.all_eq_false.2 ⟨f, Layout.mem_fieldsAt.2 rfl, by simp [hw]⟩
  simp [writeWord, hall, hro]

/-- The divisor register's word holds the divisor in bits [15:0] and the drawn bits above (rule R37, log 26). -/
theorem brrWord_bits (u : Uart) (drawn : Word) :
    (brrWord u drawn).extractLsb' 0 16 = u.brr ∧ (brrWord u drawn).extractLsb' 16 16 = drawn.extractLsb' 16 16 :=
  ⟨BitVec.extractLsb'_append_eq_right, BitVec.extractLsb'_append_eq_left⟩

/-- Settles O59: each address by the register the layout has there, each stop by the check that raises it. -/
theorem addressedAccess : Obligations.AddressedAccess := by
  intro s addr w L
  refine ⟨⟨rfl, rfl⟩, ?misaligned, ?unmapped, ?registers, ?uartOff, ?portOff, ?fieldOff, ?divisor⟩
  case misaligned =>
    intro ha
    exact ⟨atRegister_misaligned _ ha, atRegister_misaligned _ ha⟩
  case unmapped =>
    intro ha hd hb hf
    have hr : L.regAt addr = none := Layout.regAt_eq_none hd hb hf
    exact ⟨atRegister_unmapped _ ha hr, atRegister_unmapped _ ha hr⟩
  case registers =>
    intro hal hap
    obtain ⟨hslot, hbsrr, hdr⟩ := Layout.aligned_addr hal
    refine ⟨memAccess_eq hdr L.regAt_dr w, memAccess_eq (hslot .uartRxne) (Layout.regAt_sr hap) w,
      memAccess_eq (hslot .uartBrr) (Layout.regAt_brr hap) w, fun p => memAccess_eq (hbsrr p) (Layout.regAt_bsrr hap p) w,
      fun f hf => ?_⟩
    obtain ⟨hread, hwrite⟩ := memAccess_eq (s := s) (hslot f) (Layout.regAt_word hf) w
    rw [hread, hwrite]
    exact ⟨fun hc => wordAccess_unclocked hc w, fun hc hro => writeWord_readOnly hro hc w⟩
  case uartOff =>
    intro hu
    simp [busRead, busWrite, regRead, regWrite, readSr, readDr, readBrr, writeDr, writeBrr, hu]
  case portOff =>
    intro p hp
    exact ⟨if_neg (by rw [hp]; decide), if_neg (by rw [hp]; decide)⟩
  case fieldOff =>
    intro f hf
    simp [fieldWrite, hf]
  case divisor =>
    intro hu
    refine ⟨⟨brrWord s.per.uart (freeWord s.draws), ?_, brrWord_bits _ _⟩, ?_⟩
    · simp [busRead, regRead, readBrr, hu, State.emit]
    · simp [busWrite, regWrite, writeBrr, hu, State.emit, Periph.set]

/-! ## What a step is -/

/-- The agent at the head of the schedule steps, and the schedule loses its head (rule R75). -/
theorem step_of_schedule {s : State} {a : AgentStep} {rest : List AgentStep} (h : s.schedule = a :: rest) :
    step s = agentStep a { s with schedule := rest } := by
  simp [step_eq, State.pick, h]

/-- A caller free to write performs the command its word decodes to (rule R90). -/
theorem issueStep_cmd {k : Nat} {w : CmdWord} {i : Instr} {s : State} (hm : s.mayIssue k = true) (hd : decode w = .cmd i) :
    issueStep k w s = exec i { s with cur := k } := by
  simp [issueStep, hm, issueWord_cmd hd]

theorem blockStep_flight {k : Nat} {f : Flight} {s : State} (h : s.flightOf k = some f) :
    blockStep k s = exec f.cmd { s with cur := k } := by
  simp [blockStep, h]

/-- The word of a command decodes to it (rules R91 to R93, R96). -/
theorem decode_encode (i : Instr) : decode (encode i) = .cmd i := by
  have hop : decode (encode i) = decodeOp (opNumber i) (operandArg i) := by simp [decode, encode]
  rw [hop]
  cases i with
  | serWrite byte =>
    simp only [decodeOp, opNumber, operandArg, byteArg_hi, byteArg_lo, if_true]
    rfl
  | _ => rfl

/-- At a command line reached over labels the next line writes the command's word (rule R102). -/
theorem nextLine_cmd {prog : List HarnessLine} {c : Caller} {n : Nat} {i : Instr} (hr : c.Reaches prog n)
    (hl : prog[n]? = some (.cmd i)) : nextLine prog c = .issue (encode i) { c with lc := n } := by
  have hn : skipLabels prog c.lc = n := skipLabels_of_reaches hr (by simp [hl])
  simp [nextLine, hn, hl]

/-- A running caller with nothing in flight performs the command of its next line (rule R102). -/
theorem harnessStep_cmd {k n : Nat} {i : Instr} {s : State} {c : Caller} {prog : List HarnessLine} (hc : s.callers[k]? = some c)
    (hp : c.prog = some prog) (hs : c.status = .running) (hf : s.flightOf k = none) (hr : c.Reaches prog n)
    (hl : prog[n]? = some (.cmd i)) :
    harnessStep k s = exec i { s with cur := k, callers := s.callers.set k { c with lc := n } } := by
  simp [harnessStep, hc, hp, hs, hf, nextLine_cmd hr hl, issueWord_cmd (decode_encode i)]

theorem decode_of_decodeTableWord {nbits w : Nat} {i : Instr} (h : decodeTableWord nbits w = some i) :
    decode (BitVec.ofNat 64 (w % 2 ^ nbits)) = .cmd i := by
  unfold decodeTableWord at h
  cases hd : decode (BitVec.ofNat 64 (w % 2 ^ nbits)) with
  | cmd j => simpa [hd] using h
  | illegal why => simp [hd] at h

/-- Placing a word makes caller 0 free to write it (log 3). -/
theorem mayIssue_withWord {s : State} (h : 0 < s.cfg.nCallers) (w : CmdWord) : (s.withWord w).mayIssue 0 = true := by
  refine mayIssue_iff.2 ⟨h, flightOf_eq_none.2 ?_, ?_⟩
  · simp [State.withWord]
  · cases hc : s.callers <;> simp [State.progOf, State.withWord, hc]

/-- Settles O6: the agent picked is the head of the schedule, and its step is `exec` of the command it has to perform. -/
theorem stepRunsDecodedInstruction : Obligations.StepRunsDecodedInstruction := by
  refine ⟨?issue, ?block, ?harness, ?word⟩
  case issue =>
    intro s k w i rest hs hm _ hd
    rw [step_of_schedule hs]
    exact issueStep_cmd (s := { s with schedule := rest }) hm hd
  case block =>
    intro s k f rest hs hf
    rw [step_of_schedule hs]
    exact blockStep_flight (s := { s with schedule := rest }) hf
  case harness =>
    intro s k i rest c prog hs hc hp hrun hf _ n hr hl
    rw [step_of_schedule hs]
    exact harnessStep_cmd (s := { s with schedule := rest }) hc hp hrun hf hr hl
  case word =>
    intro s nbits w i hcallers _ hd
    have hs : (s.withFetchWord nbits w).schedule = .issue 0 (BitVec.ofNat 64 (w % 2 ^ nbits)) :: s.schedule := rfl
    rw [step_of_schedule hs]
    exact issueStep_cmd (s := { s.withFetchWord nbits w with schedule := s.schedule }) (mayIssue_withWord hcallers (BitVec.ofNat 64 (w % 2 ^ nbits)))
      (decode_of_decodeTableWord hd)

end Sys2Proof.Machine
end

section
/-! Proofs of the statements of the state: the machine's invariant at reset and under every step (rules R24, R25, R47, R72, R152, R210, R220,
R243, R245), what clears a clock enable or a status flag (rules R29, R38, R42, R257), the reset event (rules R46, R270, R271), the micro-steps
of `IND_INIT` (rule R122) and the whole-word accesses (rules R41, R61). -/

namespace Sys2Proof.Machine

open Sys2Proof Sys2Proof.Config

/-! ## What a step of an agent can do -/

/-- Caller `k` is one of the machine's: within `N_CALLERS`, in the list of callers, or with a command in flight. -/
def State.HasCaller (s : State) (k : Nat) : Prop := k < s.cfg.nCallers ∨ k < s.callers.length ∨ s.flightOf k ≠ none

/-- What a command word can do for a caller with nothing in flight: leave the state, fault as an illegal word, or be performed. -/
theorem issueWord_exec_cases {w : CmdWord} {s t : State} (h : issueWord w s = .next t) :
    t = s ∨ (∃ v, t = s.raiseFault .illegalCommand v 0) ∨ ∃ i, exec i s = .next t := by
  rcases issueWord_cases h with ⟨-, rfl⟩ | ⟨-, -, rfl⟩ | ⟨-, i, -, he⟩
  · exact .inl rfl
  · exact .inr (.inl ⟨w, rfl⟩)
  · exact .inr (.inr ⟨i, he⟩)

/-- What a step of an agent can do: move a caller on; fault for an illegal word; one micro-step of a command, of a caller with nothing in
flight or of the block's command in flight; a step of the line side; reset. -/
theorem agentStep_cases {a : AgentStep} {s t : State} (h : agentStep a s = .next t) :
    (∃ k cs, t = { s with callers := cs, cur := k }) ∨
    (∃ k cs w, s.HasCaller k ∧ t = State.raiseFault { s with callers := cs, cur := k } .illegalCommand w 0) ∨
    (∃ k cs i, s.HasCaller k ∧ cs.map Caller.prog = s.callers.map Caller.prog ∧ exec i { s with callers := cs, cur := k } = .next t ∧
      (s.flightOf k = none ∨ (a = .block k ∧ ∃ f, s.flightOf k = some f ∧ f.cmd = i))) ∨
    (a = .rxArrive ∧ t = rxArrive s) ∨ (a = .txLoad ∧ t = txLoad s) ∨ (a = .txDone ∧ t = txDone s) ∨
    (a = .reset ∧ t = s.resetEvent) := by
  cases a with
  | issue k w =>
    rcases issueStep_cases h with ⟨-, rfl⟩ | ⟨hm, hw⟩
    · exact .inl ⟨_, _, rfl⟩
    · obtain ⟨hk, hf, -⟩ := mayIssue_iff.1 hm
      rcases issueWord_exec_cases hw with rfl | ⟨v, rfl⟩ | ⟨i, he⟩
      · exact .inl ⟨k, _, rfl⟩
      · exact .inr (.inl ⟨k, _, v, .inl hk, rfl⟩)
      · exact .inr (.inr (.inl ⟨k, s.callers, i, .inl hk, rfl, he, .inl hf⟩))
  | block k =>
    rcases blockStep_cases h with ⟨-, rfl⟩ | ⟨f, hf, he⟩
    · exact .inl ⟨_, _, rfl⟩
    · exact .inr (.inr (.inl ⟨k, s.callers, f.cmd, .inr (.inr (by simp [hf])), rfl, he, .inr ⟨rfl, f, hf, rfl⟩⟩))
  | harness k =>
    rcases harnessStep_cases h with rfl | ⟨c, prog, n, st, hc, -, -, hf, rfl | ⟨j, -, hw⟩⟩
    · exact .inl ⟨_, _, rfl⟩
    · exact .inl ⟨_, _, rfl⟩
    · have hk : s.HasCaller k := .inr (.inl (List.getElem?_eq_some_iff.1 hc).1)
      rcases issueWord_exec_cases hw with rfl | ⟨v, rfl⟩ | ⟨i, he⟩
      · exact .inl ⟨k, _, rfl⟩
      · exact .inr (.inl ⟨k, _, v, hk, rfl⟩)
      · exact .inr (.inr (.inl ⟨k, s.callers.set k { c with lc := n }, i, hk, map_prog_set hc rfl, he, .inl hf⟩))
  | rxArrive => exact .inr (.inr (.inr (.inl ⟨rfl, (Host.Outcome.next.inj h).symm⟩)))
  | txLoad => exact .inr (.inr (.inr (.inr (.inl ⟨rfl, (Host.Outcome.next.inj h).symm⟩))))
  | txDone => exact .inr (.inr (.inr (.inr (.inr (.inl ⟨rfl, (Host.Outcome.next.inj h).symm⟩)))))
  | reset => exact .inr (.inr (.inr (.inr (.inr (.inr ⟨rfl, (Host.Outcome.next.inj h).symm⟩)))))

/-! ## What a command can do to the peripherals -/

/-- The field is a clock enable or an enable of the UART (rules R29, R35). -/
def Field.isEnable : Field → Bool
  | .rccGpioEn _ | .rccUartEn | .uartUe | .uartTe | .uartRe | .uartRxneie => true
  | .gpioMode _ _ | .gpioOtype _ _ | .gpioOdr _ _ | .gpioAf _ _ | .uartM | .uartStop | .uartPce | .uartOver8 | .uartRtse | .uartCtse
  | .uartBrr | .uartRxne | .uartTxe | .uartOre | .uartFe | .uartPe => false

/-- `IND_INIT` only sets enables (rule R122). -/
theorem indInitTable_enable {p : Params} {n : Nat} {f : Field} {v : Word} (h : (n, f, v) ∈ indInitTable p) : f.isEnable = true → v = 1 := by
  simp only [indInitTable, List.mem_cons, Prod.mk.injEq, List.not_mem_nil, or_false] at h
  rcases h with ⟨-, rfl, rfl⟩ | ⟨-, rfl, -⟩ | ⟨-, rfl, -⟩ | ⟨-, rfl, -⟩ | ⟨-, rfl, -⟩ | ⟨-, rfl, -⟩ | ⟨-, rfl, -⟩ | ⟨-, rfl, -⟩ |
    ⟨-, rfl, -⟩ <;> simp [Field.isEnable]

/-- `SER_INIT` only sets enables (rule R162). -/
theorem serInitTable_enable {p : Params} {n : Nat} {f : Field} {v : Word} (h : (n, f, v) ∈ serInitTable p) : f.isEnable = true → v = 1 := by
  simp only [serInitTable, List.mem_cons, Prod.mk.injEq, List.not_mem_nil, or_false] at h
  rcases h with ⟨-, rfl, rfl⟩ | ⟨-, rfl, rfl⟩ | ⟨-, rfl, -⟩ | ⟨-, rfl, -⟩ | ⟨-, rfl, -⟩ | ⟨-, rfl, -⟩ | ⟨-, rfl, -⟩ | ⟨-, rfl, -⟩ |
    ⟨-, rfl, -⟩ | ⟨-, rfl, -⟩ | ⟨-, rfl, -⟩ | ⟨-, rfl, -⟩ | ⟨-, rfl, rfl⟩ | ⟨-, rfl, rfl⟩ | ⟨-, rfl, rfl⟩ | ⟨-, rfl, rfl⟩ <;>
    simp [Field.isEnable]

/-- What a command can do to the peripheral fields: nothing; a field write, of 1 where the field is an enable; a port's output levels; the
data access of the transfer in flight. -/
theorem exec_per_cases {i : Instr} {s t : State} (h : exec i s = .next t) :
    t.per = s.per ∨
    (∃ f v, (f.isEnable = true → v = 1) ∧ t.per = s.per.set f v) ∨
    (∃ p w, t.per = s.per.modifyGpio p fun g => { g with odr := bsrrEffect g.odr w }) ∨
    (∃ n, i = .serRead ∧ s.Flying i (.statusSampled true) ∧ t.per = { s.per with uart := s.per.uart.afterRead n }) ∨
    (∃ b, i = .serWrite b ∧ s.Flying i (.statusSampled true) ∧ t.per = { s.per with uart := s.per.uart.afterWrite b }) := by
  cases i with
  | indInit =>
    rcases exec_indInit_cases h with ⟨-, rfl⟩ | ⟨-, -, -, rfl⟩ | ⟨-, rfl⟩ | ⟨-, n, d, f, v, -, hm, -, ⟨-, rfl⟩ | ⟨-, rfl⟩⟩
    · exact .inl rfl
    · exact .inl rfl
    · exact .inr (.inl ⟨.rccGpioEn s.cfg.indPort, 1, fun _ => rfl, rfl⟩)
    · exact .inr (.inl ⟨f, v, indInitTable_enable hm, rfl⟩)
    · exact .inr (.inl ⟨f, v, indInitTable_enable hm, rfl⟩)
  | indOn line =>
    rcases exec_indOn_cases h with ⟨-, rfl⟩ | ⟨-, -, -, rfl⟩ | ⟨-, c, -, rfl⟩ | ⟨-, -, -, -, rfl⟩
    · exact .inl rfl
    · exact .inl rfl
    · exact .inl rfl
    · exact .inr (.inr (.inl ⟨_, _, rfl⟩))
  | indOff line =>
    rcases exec_indOff_cases h with ⟨-, rfl⟩ | ⟨-, -, -, rfl⟩ | ⟨-, c, -, rfl⟩ | ⟨-, -, -, -, rfl⟩
    · exact .inl rfl
    · exact .inl rfl
    · exact .inl rfl
    · exact .inr (.inr (.inl ⟨_, _, rfl⟩))
  | serInit baud =>
    rcases exec_serInit_cases h with ⟨-, rfl⟩ | ⟨-, -, -, rfl⟩ | ⟨-, rfl⟩ | ⟨-, n, d, -, -, ⟨f, v, hm, -, ⟨-, rfl⟩ | ⟨-, rfl⟩⟩ |
      ⟨-, D, -, rfl⟩ | ⟨-, c, -, rfl⟩ | ⟨-, -, D, -, rfl⟩⟩
    · exact .inl rfl
    · exact .inl rfl
    · exact .inr (.inl ⟨.rccUartEn, 1, fun _ => rfl, rfl⟩)
    · exact .inr (.inl ⟨f, v, serInitTable_enable hm, rfl⟩)
    · exact .inr (.inl ⟨f, v, serInitTable_enable hm, rfl⟩)
    · exact .inl rfl
    · exact .inl rfl
    · exact .inr (.inl ⟨.uartBrr, _, fun hf => Bool.noConfusion hf, rfl⟩)
  | serRead =>
    rcases exec_serRead_cases h with ⟨-, rfl⟩ | ⟨-, -, -, rfl⟩ | ⟨-, -, rfl⟩ | ⟨-, -, -, x, ⟨-, rfl⟩ | ⟨-, rfl⟩⟩ | ⟨hf, -, rfl⟩
    · exact .inl rfl
    · exact .inl rfl
    · exact .inl rfl
    · exact .inl rfl
    · exact .inl rfl
    · exact .inr (.inr (.inr (.inl ⟨_, rfl, hf, rfl⟩)))
  | serWrite byte =>
    rcases exec_serWrite_cases h with ⟨-, rfl⟩ | ⟨-, -, -, rfl⟩ | ⟨-, -, rfl⟩ | ⟨-, -, -, x, ⟨-, rfl⟩ | ⟨-, rfl⟩⟩ | ⟨hf, -, rfl⟩
    · exact .inl rfl
    · exact .inl rfl
    · exact .inl rfl
    · exact .inl rfl
    · exact .inl rfl
    · exact .inr (.inr (.inr (.inr ⟨byte, rfl, hf, rfl⟩)))

/-! ## Enables stay set -/

/-- Every clock enable and every enable of the UART set in `a` is set in `b` (rules R29, R35). -/
structure Periph.Grows (a b : Periph) : Prop where
  gpioEn : ∀ p : Port, a.rcc.gpioEn[p] = true → b.rcc.gpioEn[p] = true
  uartEn : a.rcc.uartEn = true → b.rcc.uartEn = true
  ue     : a.uart.ue = true → b.uart.ue = true
  te     : a.uart.te = true → b.uart.te = true
  re     : a.uart.re = true → b.uart.re = true
  rxneie : a.uart.rxneie = true → b.uart.rxneie = true

theorem Periph.Grows.refl (a : Periph) : a.Grows a := ⟨fun _ => id, id, id, id, id, id⟩

/-- A port's clock enable written 1 is set, and every other one stays (rule R63). -/
theorem Periph.set_gpioEn (per : Periph) (p q : Port) :
    (per.set (.rccGpioEn p) 1).rcc.gpioEn[q] = (decide (p = q) || per.rcc.gpioEn[q]) := by
  by_cases h : p = q
  · simp [Periph.set, h]
  · simp [Periph.set, h, show p.val ≠ q.val from fun e => h (Fin.ext e)]

/-- A field write that writes 1 where the field is an enable keeps every enable. -/
theorem Periph.grows_set {per : Periph} {f : Field} {v : Word} (h : f.isEnable = true → v = 1) : per.Grows (per.set f v) := by
  cases f with
  | rccGpioEn p =>
    obtain rfl := h rfl
    exact ⟨fun q hq => by rw [Periph.set_gpioEn, hq, Bool.or_true], id, id, id, id, id⟩
  | rccUartEn | uartUe | uartTe | uartRe | uartRxneie =>
    obtain rfl := h rfl
    constructor <;> simp [Periph.set]
  | _ => exact ⟨fun _ => id, id, id, id, id, id⟩

theorem Periph.Grows.txActive {a b : Periph} (h : a.Grows b) (ha : a.txActive = true) : b.txActive = true := by
  simp only [Periph.txActive, Bool.and_eq_true] at ha ⊢
  exact ⟨⟨h.uartEn ha.1.1, h.ue ha.1.2⟩, h.te ha.2⟩

/-- No command clears an enable (rules R29, R257). -/
theorem exec_grows {i : Instr} {s t : State} (h : exec i s = .next t) : s.per.Grows t.per := by
  rcases exec_per_cases h with hp | ⟨f, v, hv, hp⟩ | ⟨p, w, hp⟩ | ⟨n, -, -, hp⟩ | ⟨b, -, -, hp⟩ <;> rw [hp]
  · exact .refl _
  · exact Periph.grows_set hv
  · exact ⟨fun _ => id, id, id, id, id, id⟩
  · exact ⟨fun _ => id, id, id, id, id, id⟩
  · exact ⟨fun _ => id, id, id, id, id, id⟩

theorem rxArrive_grows (s : State) : s.per.Grows (rxArrive s).per := by
  obtain ⟨_, _, _, _, _, _, _, hs⟩ := rxArrive_eq s
  rw [hs]
  exact ⟨fun _ => id, id, id, id, id, id⟩

theorem txLoad_grows (s : State) : s.per.Grows (txLoad s).per := by
  obtain ⟨_, _, hs⟩ := txLoad_eq s
  rw [hs]
  exact ⟨fun _ => id, id, id, id, id, id⟩

theorem txDone_per (s : State) : (txDone s).per = s.per := by
  obtain ⟨_, _, hs⟩ := txDone_eq s
  rw [hs]

/-- No step of an agent but reset clears an enable (rules R29, R257). -/
theorem agentStep_grows {a : AgentStep} {s t : State} (h : agentStep a s = .next t) (ha : a ≠ .reset) : s.per.Grows t.per := by
  rcases agentStep_cases h with ⟨k, cs, rfl⟩ | ⟨k, cs, w, -, rfl⟩ | ⟨k, cs, i, -, -, he, -⟩ | ⟨-, rfl⟩ | ⟨-, rfl⟩ | ⟨-, rfl⟩ | ⟨hr, -⟩
  · exact .refl _
  · exact .refl _
  · exact (exec_grows he :)
  · exact rxArrive_grows s
  · exact txLoad_grows s
  · exact txDone_per s ▸ .refl _
  · exact absurd hr ha

/-! ## What clears a status flag -/

/-- No field write changes `rxne` or `txe` (rule R38). -/
theorem Periph.set_flags (per : Periph) (f : Field) (v : Word) :
    (per.set f v).uart.rxne = per.uart.rxne ∧ (per.set f v).uart.txe = per.uart.txe := by
  cases f <;> exact ⟨rfl, rfl⟩

/-- Of the commands only a `SER_READ` in flight clears `rxne` (rules R38, R65). -/
theorem exec_clears_rxne {i : Instr} {s t : State} (h : exec i s = .next t) (hs : s.per.uart.rxne = true) (ht : t.per.uart.rxne = false) :
    i = .serRead ∧ s.Flying i (.statusSampled true) := by
  rcases exec_per_cases h with hp | ⟨f, v, -, hp⟩ | ⟨p, w, hp⟩ | ⟨n, hi, hf, -⟩ | ⟨b, -, -, hp⟩
  · simp [hp, hs] at ht
  · simp [hp, Periph.set_flags, hs] at ht
  · simp [hp, hs] at ht
  · exact ⟨hi, hf⟩
  · simp [hp, Uart.afterWrite, hs] at ht

/-- Of the commands only a `SER_WRITE` in flight clears `txe` (rules R38, R66). -/
theorem exec_clears_txe {i : Instr} {s t : State} (h : exec i s = .next t) (hs : s.per.uart.txe = true) (ht : t.per.uart.txe = false) :
    ∃ b, i = .serWrite b ∧ s.Flying i (.statusSampled true) := by
  rcases exec_per_cases h with hp | ⟨f, v, -, hp⟩ | ⟨p, w, hp⟩ | ⟨n, -, -, hp⟩ | ⟨b, hi, hf, -⟩
  · simp [hp, hs] at ht
  · simp [hp, Periph.set_flags, hs] at ht
  · simp [hp, hs] at ht
  · simp [hp, Uart.afterRead, hs] at ht
  · exact ⟨b, hi, hf⟩

theorem rxArrive_txe (s : State) : (rxArrive s).per.uart.txe = s.per.uart.txe := by
  obtain ⟨_, _, _, _, _, _, _, hs⟩ := rxArrive_eq s
  rw [hs]

theorem txLoad_rxne (s : State) : (txLoad s).per.uart.rxne = s.per.uart.rxne := by
  obtain ⟨_, _, hs⟩ := txLoad_eq s
  rw [hs]

/-- `TX_LOAD` never clears `txe` (rule R224). -/
theorem txLoad_txe (s : State) (h : s.per.uart.txe = true) : (txLoad s).per.uart.txe = true := by
  obtain ⟨_, _, hs⟩ := txLoad_eq s
  simp [hs, h]

/-- The agent of a micro-step of a command in flight is the block (rule R76). -/
theorem block_of_flying {a : AgentStep} {s : State} {k : Nat} {cs : List Caller} {i : Instr} {ph : Phase}
    (hf : s.flightOf k = none ∨ (a = .block k ∧ ∃ f, s.flightOf k = some f ∧ f.cmd = i))
    (hfly : State.Flying { s with callers := cs, cur := k } i ph) : ∃ k f, s.flightOf k = some f ∧ f.cmd = i ∧ a = .block k := by
  rcases hf with hn | ⟨hb, f, hf, hi⟩
  · exact nomatch hn.symm.trans hfly.2
  · exact ⟨k, f, hf, hi, hb⟩

/-- A step that clears a status flag is the block's, for the transfer in flight whose data access clears it, or reset (rules R38, R210). -/
theorem agentStep_clears_flags {a : AgentStep} {s t : State} (h : agentStep a s = .next t) (ha : a ≠ .reset) :
    (s.per.uart.rxne = true → t.per.uart.rxne = false → ∃ k f, s.flightOf k = some f ∧ f.cmd = .serRead ∧ a = .block k) ∧
    (s.per.uart.txe = true → t.per.uart.txe = false → ∃ k f b, s.flightOf k = some f ∧ f.cmd = .serWrite b ∧ a = .block k) := by
  have kept {p q : Prop} (hr : s.per.uart.rxne = true → t.per.uart.rxne = true) (ht : s.per.uart.txe = true → t.per.uart.txe = true) :
      (s.per.uart.rxne = true → t.per.uart.rxne = false → p) ∧ (s.per.uart.txe = true → t.per.uart.txe = false → q) :=
    ⟨fun hs hc => absurd (hr hs) (by simp [hc]), fun hs hc => absurd (ht hs) (by simp [hc])⟩
  rcases agentStep_cases h with ⟨k, cs, rfl⟩ | ⟨k, cs, w, -, rfl⟩ | ⟨k, cs, i, -, -, he, hf⟩ | ⟨-, rfl⟩ | ⟨-, rfl⟩ | ⟨-, rfl⟩ | ⟨hr, -⟩
  · exact kept id id
  · exact kept id id
  · refine ⟨fun hs hc => ?_, fun hs hc => ?_⟩
    · obtain ⟨rfl, hfly⟩ := exec_clears_rxne he hs hc
      exact block_of_flying hf hfly
    · obtain ⟨b, rfl, hfly⟩ := exec_clears_txe he hs hc
      obtain ⟨k, f, hk, hi, hb⟩ := block_of_flying hf hfly
      exact ⟨k, f, b, hk, hi, hb⟩
  · exact kept (rxArrive_rxne s) (by rw [rxArrive_txe]; exact id)
  · exact kept (by rw [txLoad_rxne]; exact id) (txLoad_txe s)
  · exact kept (by rw [txDone_per]; exact id) (by rw [txDone_per]; exact id)
  · exact absurd hr ha

/-- Settles O17: the pick of the agent leaves the flags and the commands in flight, and `agentStep_clears_flags` holds for the agent picked. -/
theorem flagsClearedOnlyByDataAccess : Obligations.FlagsClearedOnlyByDataAccess := by
  intro s t h ha
  rw [step_eq] at h
  simpa only [pick_per, pick_flightOf] using agentStep_clears_flags h ha

/-- Settles O16: the pick of the agent leaves the clocks, and no agent's step but reset clears an enable. -/
theorem clocksStayOn : Obligations.ClocksStayOn := by
  intro s t h ha
  rw [step_eq] at h
  have hg := agentStep_grows h ha
  rw [pick_per] at hg
  exact ⟨hg.gpioEn, hg.uartEn⟩

/-! ## The command in flight, from the invariant -/

theorem activityOk_nil {s : State} (h : s.inflight = []) : s.activityOk ↔ s.seq = none := by
  unfold State.activityOk
  rw [h]

/-- A `SER_READ` in flight has sampled `rxne` as 1, and it is 1 still (rules R25, R210). -/
theorem activityOk_serRead {s : State} {k : Nat} {ph : Phase} (h : s.inflight = [⟨k, .serRead, ph⟩]) :
    s.activityOk ↔ k < s.cfg.nCallers ∧ ph = .statusSampled true ∧ s.seq = none ∧ s.serCfg = .configured ∧ s.per.uart.rxne = true := by
  unfold State.activityOk
  rw [h]

/-- A `SER_WRITE` in flight has sampled `txe` as 1, and it is 1 still (rules R25, R210). -/
theorem activityOk_serWrite {s : State} {k : Nat} {b : Byte} {ph : Phase} (h : s.inflight = [⟨k, .serWrite b, ph⟩]) :
    s.activityOk ↔ k < s.cfg.nCallers ∧ ph = .statusSampled true ∧ s.seq = none ∧ s.serCfg = .configured ∧ s.per.uart.txe = true := by
  unfold State.activityOk
  rw [h]

/-- An `IND_INIT` in flight has its sequencer entry and has set its port's clock (rules R24, R122). -/
theorem activityOk_indInit {s : State} {k : Nat} {ph : Phase} (h : s.inflight = [⟨k, .indInit, ph⟩]) :
    s.activityOk ↔ k < s.cfg.nCallers ∧ ph = .configuring ∧ s.per.rcc.gpioEn[s.cfg.indPort] = true ∧
      ∃ n, 1 ≤ n ∧ n ≤ 8 ∧ s.seq = some ⟨k, .indInit, n, none⟩ := by
  unfold State.activityOk
  rw [h]

/-- What a `SER_INIT` has set and latched after its micro-step `n` (rules R152, R162). -/
def State.SerInitSoFar (s : State) (baud : BitVec 32) (n : Nat) (d : Option (BitVec 16)) : Prop :=
  (2 ≤ n → s.per.rcc.gpioEn[s.cfg.serPort] = true) ∧ (n ≤ 12 → d = none) ∧
    (13 ≤ n → ∃ D, d = some D ∧ brrCalc s.cfg.tieRule s.cfg.pclkHz baud = .ok D) ∧
    (15 ≤ n → s.per.uart.ue = true) ∧ (16 ≤ n → s.per.uart.te = true) ∧ (17 ≤ n → s.per.uart.re = true)

/-- A `SER_INIT` in flight has its sequencer entry, the UART's clock set, and what its micro-steps so far set (rules R24, R162). -/
theorem activityOk_serInit {s : State} {k : Nat} {baud : BitVec 32} {ph : Phase} (h : s.inflight = [⟨k, .serInit baud, ph⟩]) :
    s.activityOk ↔ k < s.cfg.nCallers ∧ ph = .configuring ∧ s.per.rcc.uartEn = true ∧
      ∃ n d, 1 ≤ n ∧ n ≤ 17 ∧ s.seq = some ⟨k, .serInit, n, d⟩ ∧ s.SerInitSoFar baud n d := by
  unfold State.activityOk
  rw [h]
  rfl

/-- `IND_ON` and `IND_OFF` are never in flight (rule R25). -/
theorem not_activityOk_line {s : State} {k : Nat} {i : Instr} {ph : Phase} (h : s.inflight = [⟨k, i, ph⟩])
    (hi : ∃ line, i = .indOn line ∨ i = .indOff line) : ¬ s.activityOk := by
  unfold State.activityOk
  rw [h]
  obtain ⟨line, rfl | rfl⟩ := hi <;> exact fun ha => ha.2

/-- At most one command is in flight (rule R245). -/
theorem inflight_of_activityOk {s : State} (h : s.activityOk) : s.inflight = [] ∨ ∃ f, s.inflight = [f] := by
  unfold State.activityOk at h
  split at h
  · exact .inl ‹_›
  · exact .inr ⟨_, ‹_›⟩
  · exact h.elim

/-- A caller's command in flight is the only one. -/
theorem inflight_eq_of_flightOf {s : State} {k : Nat} {f : Flight} (ha : s.activityOk) (hf : s.flightOf k = some f) : s.inflight = [f] := by
  obtain ⟨hm, -⟩ := flightOf_mem hf
  rcases inflight_of_activityOk ha with h | ⟨g, h⟩
  · simp [h] at hm
  · rw [h, List.mem_singleton] at hm
    rw [h, hm]

/-- The caller of a command in flight exists. -/
theorem caller_lt_of_activityOk {s : State} {f : Flight} (ha : s.activityOk) (h : s.inflight = [f]) : f.caller < s.cfg.nCallers := by
  unfold State.activityOk at ha
  rw [h] at ha
  exact ha.1

/-- A command in flight that is no init is a transfer, and an init is in the phase of one (rule R25). -/
theorem configuring_or_transfer {s : State} {f : Flight} (ha : s.activityOk) (h : s.inflight = [f]) :
    f.phase = .configuring ∨ isTransfer f.cmd = true := by
  obtain ⟨k, i, ph⟩ := f
  cases i with
  | indInit => exact .inl ((activityOk_indInit h).1 ha).2.1
  | indOn line => exact absurd ha (not_activityOk_line h ⟨line, .inl rfl⟩)
  | indOff line => exact absurd ha (not_activityOk_line h ⟨line, .inr rfl⟩)
  | serInit baud => exact .inl ((activityOk_serInit h).1 ha).2.1
  | serRead => exact .inr rfl
  | serWrite b => exact .inr rfl

/-- Admission lets an init or a transfer in only where nothing is in flight (rule R245). -/
theorem inflight_eq_nil_of_free {s : State} {i : Instr} (ha : s.activityOk) (hf : s.Free i) (hi : isInit i = true ∨ isTransfer i = true) :
    s.inflight = [] := by
  obtain ⟨-, hn, hc⟩ := hf
  rcases inflight_of_activityOk ha with h | ⟨f, h⟩
  · exact h
  · have hne : f.caller ≠ s.cur := flightOf_eq_none.1 hn f (by simp [h])
    have hb : f.blocks s.cur i = false := by simpa [State.conflict, h] using hc
    rcases configuring_or_transfer ha h with hp | ht <;> rcases hi with hi | hi <;> simp_all [Flight.blocks]

/-! ## Steps that leave the block's control state -/

/-- The block's control state is the same in both states, and every enable and status flag set in `s` is set in `t`. -/
structure State.Calm (s t : State) : Prop where
  cfg      : t.cfg = s.cfg
  indCfg   : t.indCfg = s.indCfg
  serCfg   : t.serCfg = s.serCfg
  seq      : t.seq = s.seq
  inflight : t.inflight = s.inflight
  grows    : s.per.Grows t.per
  rxne     : s.per.uart.rxne = true → t.per.uart.rxne = true
  txe      : s.per.uart.txe = true → t.per.uart.txe = true

theorem State.SerInitSoFar.mono {s t : State} {baud : BitVec 32} {n : Nat} {d : Option (BitVec 16)} (h : s.SerInitSoFar baud n d)
    (hc : t.cfg = s.cfg) (hg : s.per.Grows t.per) : t.SerInitSoFar baud n d := by
  obtain ⟨hport, hnone, hd, hue, hte, hre⟩ := h
  simp only [State.SerInitSoFar, hc]
  exact ⟨fun hn => hg.gpioEn _ (hport hn), hnone, hd, fun hn => hg.ue (hue hn), fun hn => hg.te (hte hn), fun hn => hg.re (hre hn)⟩

theorem State.Calm.activityOk {s t : State} (h : s.Calm t) (ha : s.activityOk) : t.activityOk := by
  rcases inflight_of_activityOk ha with hs | ⟨⟨k, i, ph⟩, hs⟩
  · rw [activityOk_nil (h.inflight.trans hs), h.seq]
    exact (activityOk_nil hs).1 ha
  · have ht : t.inflight = [⟨k, i, ph⟩] := h.inflight.trans hs
    cases i with
    | indInit =>
      simp only [activityOk_indInit ht, h.seq, h.cfg]
      obtain ⟨hk, hp, hc, hn⟩ := (activityOk_indInit hs).1 ha
      exact ⟨hk, hp, h.grows.gpioEn _ hc, hn⟩
    | indOn line => exact absurd ha (not_activityOk_line hs ⟨line, .inl rfl⟩)
    | indOff line => exact absurd ha (not_activityOk_line hs ⟨line, .inr rfl⟩)
    | serInit baud =>
      rw [activityOk_serInit ht, h.seq, h.cfg]
      obtain ⟨hk, hp, hc, n, d, h1, h17, hq, hsf⟩ := (activityOk_serInit hs).1 ha
      exact ⟨hk, hp, h.grows.uartEn hc, n, d, h1, h17, hq, hsf.mono h.cfg h.grows⟩
    | serRead =>
      rw [activityOk_serRead ht, h.seq, h.cfg, h.serCfg]
      obtain ⟨hk, hp, hq, hc, hx⟩ := (activityOk_serRead hs).1 ha
      exact ⟨hk, hp, hq, hc, h.rxne hx⟩
    | serWrite b =>
      rw [activityOk_serWrite ht, h.seq, h.cfg, h.serCfg]
      obtain ⟨hk, hp, hq, hc, hx⟩ := (activityOk_serWrite hs).1 ha
      exact ⟨hk, hp, hq, hc, h.txe hx⟩

/-- What the inits have enabled stays enabled where every enable stays, unless an init completes or the shift register is filled. -/
theorem configuredOk_of_grows {s t : State} (h : s.configuredOk) (hc : t.cfg = s.cfg) (hg : s.per.Grows t.per) (hi : t.indCfg = s.indCfg)
    (hs : t.serCfg = s.serCfg) (hx : t.txShift ≠ none → s.txShift ≠ none ∨ s.per.txActive = true) : t.configuredOk := by
  obtain ⟨hind, hser, hshift⟩ := h
  simp only [State.configuredOk, hc, hi, hs]
  refine ⟨fun h => hg.gpioEn _ (hind h), fun h => ?_, fun h => ?_⟩
  · obtain ⟨hu, hp, hue, hte, hre, hie⟩ := hser h
    exact ⟨hg.uartEn hu, hg.gpioEn _ hp, hg.ue hue, hg.te hte, hg.re hre, hg.rxneie hie⟩
  · rcases hx h with h | h
    · exact hg.txActive (hshift h)
    · exact hg.txActive h


/-! ## What a command does to the block's control state -/

/-- The rows of `SER_INIT` that an entry of its sequencer speaks of, and what each sets (rule R162). -/
theorem serInitTable_sets {p : Params} {n : Nat} {f : Field} {v : Word} (h : (n, f, v) ∈ serInitTable p) (per : Periph) :
    n ≠ 13 ∧ (n = 2 → (per.set f v).rcc.gpioEn[p.serPort] = true) ∧ (n = 15 → (per.set f v).uart.ue = true) ∧
      (n = 16 → (per.set f v).uart.te = true) ∧ (n = 17 → (per.set f v).uart.re = true) ∧ (n = 18 → (per.set f v).uart.rxneie = true) := by
  simp only [serInitTable, List.mem_cons, Prod.mk.injEq, List.not_mem_nil, or_false] at h
  rcases h with ⟨rfl, -, -⟩ | ⟨rfl, rfl, rfl⟩ | ⟨rfl, -, -⟩ | ⟨rfl, -, -⟩ | ⟨rfl, -, -⟩ | ⟨rfl, -, -⟩ | ⟨rfl, -, -⟩ | ⟨rfl, -, -⟩ |
    ⟨rfl, -, -⟩ | ⟨rfl, -, -⟩ | ⟨rfl, -, -⟩ | ⟨rfl, -, -⟩ | ⟨rfl, rfl, rfl⟩ | ⟨rfl, rfl, rfl⟩ | ⟨rfl, rfl, rfl⟩ | ⟨rfl, rfl, rfl⟩ <;>
    simp [Periph.set]

/-- The next row of `SER_INIT` sets what its sequencer entry then says is set (rules R152, R162). -/
theorem State.SerInitSoFar.field {s t : State} {baud : BitVec 32} {n : Nat} {d : Option (BitVec 16)} {f : Field} {v : Word}
    (h : s.SerInitSoFar baud n d) (hm : (n + 1, f, v) ∈ serInitTable s.cfg) (hc : t.cfg = s.cfg) (hp : t.per = s.per.set f v) :
    t.SerInitSoFar baud (n + 1) d := by
  have hg : s.per.Grows (s.per.set f v) := Periph.grows_set (serInitTable_enable hm)
  obtain ⟨h13, h2, h15, h16, h17, -⟩ := serInitTable_sets hm s.per
  obtain ⟨hport, hnone, hd, hue, hte, hre⟩ := h
  simp only [State.SerInitSoFar, hc, hp]
  refine ⟨fun hn => ?_, fun hn => hnone (by omega), fun hn => hd (by omega), fun hn => ?_, fun hn => ?_, fun hn => ?_⟩
  · exact (Nat.eq_or_lt_of_le hn).elim (fun e => h2 e.symm) fun hl => hg.gpioEn _ (hport (by omega))
  · exact (Nat.eq_or_lt_of_le hn).elim (fun e => h15 e.symm) fun hl => hg.ue (hue (by omega))
  · exact (Nat.eq_or_lt_of_le hn).elim (fun e => h16 e.symm) fun hl => hg.te (hte (by omega))
  · exact (Nat.eq_or_lt_of_le hn).elim (fun e => h17 e.symm) fun hl => hg.re (hre (by omega))

/-- What a `SER_INIT` has set and latched right after the calculation and after the divisor's write (rules R152, R162). -/
theorem State.SerInitSoFar.of_latched {s : State} {baud : BitVec 32} {n : Nat} {D : BitVec 16} (hn : n = 13 ∨ n = 14)
    (hport : s.per.rcc.gpioEn[s.cfg.serPort] = true) (hD : brrCalc s.cfg.tieRule s.cfg.pclkHz baud = .ok D) :
    s.SerInitSoFar baud n (some D) := by
  refine ⟨fun _ => hport, fun h => ?_, fun _ => ⟨D, rfl, hD⟩, fun h => ?_, fun h => ?_, fun h => ?_⟩ <;> omega

/-- The control half of the invariant: the command in flight fits, and what the inits have enabled is enabled. -/
def State.controlOk (s : State) : Prop := s.activityOk ∧ s.configuredOk

/-- A command that leaves the block's control state keeps its half of the invariant. -/
theorem State.Calm.controlOk {s t : State} (h : s.Calm t) (hx : t.txShift ≠ none → s.txShift ≠ none ∨ s.per.txActive = true)
    (hs : s.controlOk) : t.controlOk :=
  ⟨h.activityOk hs.1, configuredOk_of_grows hs.2 h.cfg h.grows h.indCfg h.serCfg hx⟩

theorem exec_indInit_controlOk {s t : State} (hs : s.controlOk) (hk : s.cur < s.cfg.nCallers) (h : exec .indInit s = .next t) :
    t.controlOk := by
  have hg := exec_grows h
  obtain ⟨ha, hc⟩ := hs
  rcases exec_indInit_cases h with ⟨-, rfl⟩ | ⟨-, -, -, rfl⟩ | ⟨hf, rfl⟩ | ⟨hf, n, d, f, v, hq, hm, -, ht⟩
  · exact ⟨ha, hc⟩
  · exact ⟨ha, hc⟩
  · have hn := inflight_eq_nil_of_free ha hf (.inl rfl)
    refine ⟨(activityOk_indInit (k := s.cur) (ph := .configuring) (by simp [hn, insertFlight])).2 ?_,
      configuredOk_of_grows hc rfl hg rfl rfl .inl⟩
    exact ⟨hk, rfl, by simp [Periph.set], 1, le_refl 1, by decide, rfl⟩
  · have hfl := inflight_eq_of_flightOf ha hf.2
    obtain ⟨-, -, hen, m, hm1, hm8, hseq⟩ := (activityOk_indInit hfl).1 ha
    obtain ⟨rfl, rfl⟩ : n = m ∧ d = none := by simpa [hq] using hseq
    rcases ht with ⟨hlt, rfl⟩ | ⟨-, rfl⟩
    · refine ⟨(activityOk_indInit (k := s.cur) (ph := .configuring) ?_).2 ?_, configuredOk_of_grows hc rfl hg rfl rfl .inl⟩
      · exact hfl
      · exact ⟨hk, rfl, hg.gpioEn _ hen, n + 1, by omega, by omega, rfl⟩
    · obtain ⟨-, hser, hx⟩ := configuredOk_of_grows (t := { s with per := s.per.set f v }) hc rfl hg rfl rfl .inl
      exact ⟨(activityOk_nil (by simp [hfl])).2 rfl, fun _ => hg.gpioEn _ hen, hser, hx⟩

theorem exec_serInit_controlOk {s t : State} {baud : BitVec 32} (hs : s.controlOk) (hk : s.cur < s.cfg.nCallers)
    (h : exec (.serInit baud) s = .next t) : t.controlOk := by
  have hg := exec_grows h
  obtain ⟨ha, hc⟩ := hs
  rcases exec_serInit_cases h with ⟨-, rfl⟩ | ⟨-, -, -, rfl⟩ | ⟨hf, rfl⟩ | ⟨hf, n, d, hq, -, ht⟩
  · exact ⟨ha, hc⟩
  · exact ⟨ha, hc⟩
  · have hn := inflight_eq_nil_of_free ha hf (.inl rfl)
    refine ⟨(activityOk_serInit (k := s.cur) (baud := baud) (ph := .configuring) (by simp [hn, insertFlight])).2 ?_,
      configuredOk_of_grows hc rfl hg rfl rfl .inl⟩
    exact ⟨hk, rfl, rfl, 1, none, le_refl 1, by decide, rfl, by simp [State.SerInitSoFar]⟩
  · have hfl := inflight_eq_of_flightOf ha hf.2
    obtain ⟨-, -, hen, m, e, hm1, hm17, hseq, hsf⟩ := (activityOk_serInit hfl).1 ha
    obtain ⟨rfl, rfl⟩ : n = m ∧ d = e := by simpa [hq] using hseq
    have goesOn {u : State} (hin : u.inflight = s.inflight) (hcfg : u.cfg = s.cfg) (hug : s.per.Grows u.per) {n' d'}
        (hn' : 1 ≤ n' ∧ n' ≤ 17) (huq : u.seq = some ⟨s.cur, .serInit, n', d'⟩) (hsf' : u.SerInitSoFar baud n' d') : u.activityOk :=
      (activityOk_serInit (hin.trans hfl)).2 ⟨hcfg ▸ hk, rfl, hug.uartEn hen, n', d', hn'.1, hn'.2, huq, hsf'⟩
    rcases ht with ⟨f, v, hm, -, ⟨hlt, rfl⟩ | ⟨h18, rfl⟩⟩ | ⟨rfl, D, hD, rfl⟩ | ⟨-, c, -, rfl⟩ | ⟨rfl, -, D, hD, rfl⟩
    · exact ⟨goesOn rfl rfl hg ⟨by omega, by omega⟩ rfl (hsf.field hm rfl rfl), configuredOk_of_grows hc rfl hg rfl rfl .inl⟩
    · obtain ⟨hind, -, hx⟩ := configuredOk_of_grows (t := { s with per := s.per.set f v }) hc rfl hg rfl rfl .inl
      obtain ⟨hport, -, -, hue, hte, hre⟩ := hsf
      obtain ⟨-, -, -, -, -, hie⟩ := serInitTable_sets hm s.per
      exact ⟨(activityOk_nil (by simp [hfl])).2 rfl, hind, fun _ => ⟨hg.uartEn hen, hg.gpioEn _ (hport (by omega)), hg.ue (hue (by omega)),
        hg.te (hte (by omega)), hg.re (hre (by omega)), hie h18⟩, hx⟩
    · obtain ⟨hport, -⟩ := hsf
      exact ⟨goesOn rfl rfl hg ⟨by decide, by decide⟩ rfl (.of_latched (.inl rfl) (hport (by decide)) hD), hc⟩
    · exact ⟨ha, hc⟩
    · obtain ⟨hport, -, hd, -⟩ := hsf
      obtain ⟨D', rfl, hD'⟩ := hd (by decide)
      exact ⟨goesOn rfl rfl hg ⟨by decide, by decide⟩ rfl (.of_latched (.inr rfl) (hg.gpioEn _ (hport (by decide))) hD'),
        configuredOk_of_grows hc rfl hg rfl rfl .inl⟩

theorem exec_serRead_controlOk {s t : State} (hs : s.controlOk) (hk : s.cur < s.cfg.nCallers) (h : exec .serRead s = .next t) :
    t.controlOk := by
  have hg := exec_grows h
  obtain ⟨ha, hc⟩ := hs
  rcases exec_serRead_cases h with ⟨-, rfl⟩ | ⟨-, -, -, rfl⟩ | ⟨-, -, rfl⟩ | ⟨hf, hcfg, -, x, ⟨-, rfl⟩ | ⟨hx, rfl⟩⟩ | ⟨hf, -, rfl⟩
  · exact ⟨ha, hc⟩
  · exact ⟨ha, hc⟩
  · exact ⟨ha, hc⟩
  · exact ⟨ha, hc⟩
  · have hn := inflight_eq_nil_of_free ha hf (.inr rfl)
    exact ⟨(activityOk_serRead (k := s.cur) (ph := .statusSampled true) (by simp [hn, insertFlight])).2
      ⟨hk, rfl, (activityOk_nil hn).1 ha, hcfg, hx⟩, hc⟩
  · have hfl := inflight_eq_of_flightOf ha hf.2
    obtain ⟨-, -, hq, -⟩ := (activityOk_serRead hfl).1 ha
    exact ⟨(activityOk_nil (by simp [hfl])).2 hq, configuredOk_of_grows hc rfl hg rfl rfl .inl⟩

theorem exec_serWrite_controlOk {s t : State} {b : Byte} (hs : s.controlOk) (hk : s.cur < s.cfg.nCallers)
    (h : exec (.serWrite b) s = .next t) : t.controlOk := by
  have hg := exec_grows h
  obtain ⟨ha, hc⟩ := hs
  rcases exec_serWrite_cases h with ⟨-, rfl⟩ | ⟨-, -, -, rfl⟩ | ⟨-, -, rfl⟩ | ⟨hf, hcfg, -, x, ⟨-, rfl⟩ | ⟨hx, rfl⟩⟩ | ⟨hf, -, rfl⟩
  · exact ⟨ha, hc⟩
  · exact ⟨ha, hc⟩
  · exact ⟨ha, hc⟩
  · exact ⟨ha, hc⟩
  · have hn := inflight_eq_nil_of_free ha hf (.inr rfl)
    exact ⟨(activityOk_serWrite (k := s.cur) (b := b) (ph := .statusSampled true) (by simp [hn, insertFlight])).2
      ⟨hk, rfl, (activityOk_nil hn).1 ha, hcfg, hx⟩, hc⟩
  · have hfl := inflight_eq_of_flightOf ha hf.2
    obtain ⟨-, -, hq, -⟩ := (activityOk_serWrite hfl).1 ha
    exact ⟨(activityOk_nil (by simp [hfl])).2 hq, configuredOk_of_grows hc rfl hg rfl rfl .inl⟩

/-- Every command keeps the control half of the invariant (rules R24, R25, R72, R245). -/
theorem exec_controlOk {i : Instr} {s t : State} (hs : s.controlOk) (hk : s.cur < s.cfg.nCallers) (h : exec i s = .next t) :
    t.controlOk := by
  cases i with
  | indInit => exact exec_indInit_controlOk hs hk h
  | indOn line =>
    rcases exec_indOn_cases h with ⟨-, rfl⟩ | ⟨-, -, -, rfl⟩ | ⟨-, c, -, rfl⟩ | ⟨-, -, -, -, rfl⟩ <;> exact hs
  | indOff line =>
    rcases exec_indOff_cases h with ⟨-, rfl⟩ | ⟨-, -, -, rfl⟩ | ⟨-, c, -, rfl⟩ | ⟨-, -, -, -, rfl⟩ <;> exact hs
  | serInit baud => exact exec_serInit_controlOk hs hk h
  | serRead => exact exec_serRead_controlOk hs hk h
  | serWrite b => exact exec_serWrite_controlOk hs hk h

/-! ## The holding registers -/

/-- No field write makes a received or a waiting byte open. -/
theorem Periph.sound_set {per : Periph} (h : per.sound) (f : Field) (v : Word) : (per.set f v).sound := by
  obtain ⟨hrx, htx⟩ := Periph.set_flags per f v
  obtain ⟨-, -, hro, hto⟩ := set_hidden per f v
  unfold Periph.sound
  rwa [hrx, htx, hro, hto, Periph.set_other]

/-- A byte stored while `txe` is 1 is never open (rule R66, log 9). -/
theorem Periph.sound_afterWrite {per : Periph} (h : per.sound) (htx : per.uart.txe = true) (b : Byte) :
    ({ per with uart := per.uart.afterWrite b } : Periph).sound := by
  obtain ⟨hr, -, hm⟩ := h
  exact ⟨hr, fun _ => by simp [Uart.afterWrite, htx], hm⟩

theorem Periph.sound_afterRead {per : Periph} (h : per.sound) (n : Nat) :
    ({ per with uart := per.uart.afterRead n } : Periph).sound := by
  obtain ⟨-, ht, hm⟩ := h
  exact ⟨fun hx => Bool.noConfusion hx, ht, hm⟩

/-- A `SER_WRITE` meets `txe` = 1 at its data store (rule R210). -/
theorem txe_of_flying {s : State} {b : Byte} {ph : Phase} (ha : s.activityOk) (hf : s.Flying (.serWrite b) ph) : s.per.uart.txe = true := by
  obtain ⟨-, -, -, -, htx⟩ := (activityOk_serWrite (inflight_eq_of_flightOf ha hf.2)).1 ha
  exact htx

theorem exec_sound {i : Instr} {s t : State} (ha : s.activityOk) (hs : s.per.sound) (h : exec i s = .next t) : t.per.sound := by
  rcases exec_per_cases h with hp | ⟨f, v, -, hp⟩ | ⟨p, w, hp⟩ | ⟨n, -, -, hp⟩ | ⟨b, rfl, hf, hp⟩ <;> rw [hp]
  · exact hs
  · exact Periph.sound_set hs f v
  · exact hs
  · exact Periph.sound_afterRead hs n
  · exact Periph.sound_afterWrite hs (txe_of_flying ha hf) b

/-- A byte delivered is not open, and an overrun leaves the register closed (rules R221, R222). -/
theorem arrive_sound {s : State} (hs : s.per.sound) (v : Byte) (ferr : Bool) : (s.arrive v ferr).per.sound := by
  obtain ⟨hr, ht, hm⟩ := hs
  unfold State.arrive
  split
  · exact ⟨hr, ht, hm⟩
  · split
    · rename_i hx
      exact ⟨fun _ => by simp [Uart.overrun, hr hx], ht, hm⟩
    · exact ⟨fun _ => rfl, ht, hm⟩

theorem nextArrival_per (s : State) : s.nextArrival.2.per = s.per := by
  unfold State.nextArrival
  split <;> rfl

theorem rxArrive_sound {s : State} (hs : s.per.sound) : (rxArrive s).per.sound := by
  rw [← nextArrival_per] at hs
  exact arrive_sound hs _ _

theorem txLoad_sound {s : State} (hs : s.per.sound) : (txLoad s).per.sound := by
  obtain ⟨hr, ht, hm⟩ := hs
  obtain ⟨_, _, he⟩ := txLoad_eq s
  rw [he]
  exact ⟨hr, fun hx => ht (Bool.or_eq_false_iff.1 hx).1, hm⟩

/-! ## The fault and its record -/

/-- The micro-step a fault of this cause records (rules R47, R243). -/
def FaultCause.recordStep (c : FaultCause) : Nat := if c = .baudOverflow ∨ c = .baudZero then 13 else 0

theorem faultOk_congr {s t : State} (hf : t.fault = s.fault) (hi : t.faultInfo = s.faultInfo) (hc : t.cfg = s.cfg) (h : s.faultOk) :
    t.faultOk := by
  unfold State.faultOk
  rwa [hf, hi, hc]

theorem faultOk_raiseFault {s : State} {c : FaultCause} {w : CmdWord} {n : Nat} (hk : s.cur < s.cfg.nCallers) (hn : n = c.recordStep) :
    (s.raiseFault c w n).faultOk := ⟨hk, hn⟩

/-- The divisor calculator refuses with one of its two causes (rules R143, R146). -/
theorem brrCalc_err {rule : TieRule} {pclk baud : BitVec 32} {c : FaultCause} (h : brrCalc rule pclk baud = .err c) :
    c = .baudOverflow ∨ c = .baudZero := by
  unfold brrCalc at h
  split at h
  · exact .inr (BrrResult.err.inj h).symm
  · simp only at h
    split at h
    · exact .inl (BrrResult.err.inj h).symm
    · simp at h

/-- A command leaves the fault and its record, or raises one at the micro-step of its cause (rules R241, R243). -/
theorem exec_fault_cases {i : Instr} {s t : State} (h : exec i s = .next t) :
    (t.fault = s.fault ∧ t.faultInfo = s.faultInfo) ∨ ∃ c w, t = s.raiseFault c w c.recordStep := by
  cases i with
  | indInit =>
    rcases exec_indInit_cases h with ⟨-, rfl⟩ | ⟨-, -, -, rfl⟩ | ⟨-, rfl⟩ | ⟨-, n, d, f, v, -, -, -, ⟨-, rfl⟩ | ⟨-, rfl⟩⟩
    · exact .inl ⟨rfl, rfl⟩
    · exact .inr ⟨.concurrentAccess, _, rfl⟩
    · exact .inl ⟨rfl, rfl⟩
    · exact .inl ⟨rfl, rfl⟩
    · exact .inl ⟨rfl, rfl⟩
  | indOn line =>
    rcases exec_indOn_cases h with ⟨-, rfl⟩ | ⟨-, -, -, rfl⟩ | ⟨-, c, hc, rfl⟩ | ⟨-, -, -, -, rfl⟩
    · exact .inl ⟨rfl, rfl⟩
    · exact .inr ⟨.concurrentAccess, _, rfl⟩
    · rcases indCheck_eq_some.1 hc with ⟨rfl, -⟩ | ⟨rfl, -⟩
      · exact .inr ⟨.indNotConfigured, _, rfl⟩
      · exact .inr ⟨.badLine, _, rfl⟩
    · exact .inl ⟨rfl, rfl⟩
  | indOff line =>
    rcases exec_indOff_cases h with ⟨-, rfl⟩ | ⟨-, -, -, rfl⟩ | ⟨-, c, hc, rfl⟩ | ⟨-, -, -, -, rfl⟩
    · exact .inl ⟨rfl, rfl⟩
    · exact .inr ⟨.concurrentAccess, _, rfl⟩
    · rcases indCheck_eq_some.1 hc with ⟨rfl, -⟩ | ⟨rfl, -⟩
      · exact .inr ⟨.indNotConfigured, _, rfl⟩
      · exact .inr ⟨.badLine, _, rfl⟩
    · exact .inl ⟨rfl, rfl⟩
  | serInit baud =>
    rcases exec_serInit_cases h with ⟨-, rfl⟩ | ⟨-, -, -, rfl⟩ | ⟨-, rfl⟩ | ⟨-, n, d, -, -, ⟨f, v, -, -, ⟨-, rfl⟩ | ⟨-, rfl⟩⟩ |
      ⟨-, D, -, rfl⟩ | ⟨-, c, hc, rfl⟩ | ⟨-, -, D, -, rfl⟩⟩
    · exact .inl ⟨rfl, rfl⟩
    · exact .inr ⟨.concurrentAccess, _, rfl⟩
    · exact .inl ⟨rfl, rfl⟩
    · exact .inl ⟨rfl, rfl⟩
    · exact .inl ⟨rfl, rfl⟩
    · exact .inl ⟨rfl, rfl⟩
    · exact .inr ⟨c, _, by rw [FaultCause.recordStep, if_pos (brrCalc_err hc)]⟩
    · exact .inl ⟨rfl, rfl⟩
  | serRead =>
    rcases exec_serRead_cases h with ⟨-, rfl⟩ | ⟨-, -, -, rfl⟩ | ⟨-, -, rfl⟩ | ⟨-, -, -, x, ⟨-, rfl⟩ | ⟨-, rfl⟩⟩ | ⟨-, -, rfl⟩
    · exact .inl ⟨rfl, rfl⟩
    · exact .inr ⟨.concurrentAccess, _, rfl⟩
    · exact .inr ⟨.serNotConfigured, _, rfl⟩
    · exact .inl ⟨rfl, rfl⟩
    · exact .inl ⟨rfl, rfl⟩
    · exact .inl ⟨rfl, rfl⟩
  | serWrite b =>
    rcases exec_serWrite_cases h with ⟨-, rfl⟩ | ⟨-, -, -, rfl⟩ | ⟨-, -, rfl⟩ | ⟨-, -, -, x, ⟨-, rfl⟩ | ⟨-, rfl⟩⟩ | ⟨-, -, rfl⟩
    · exact .inl ⟨rfl, rfl⟩
    · exact .inr ⟨.concurrentAccess, _, rfl⟩
    · exact .inr ⟨.serNotConfigured, _, rfl⟩
    · exact .inl ⟨rfl, rfl⟩
    · exact .inl ⟨rfl, rfl⟩
    · exact .inl ⟨rfl, rfl⟩

theorem exec_faultOk {i : Instr} {s t : State} (hs : s.faultOk) (hk : s.cur < s.cfg.nCallers) (h : exec i s = .next t) : t.faultOk := by
  rcases exec_fault_cases h with ⟨hf, hi⟩ | ⟨c, w, rfl⟩
  · exact faultOk_congr hf hi (exec_sameSetup h).1 hs
  · exact faultOk_raiseFault hk rfl

/-! ## Every step keeps the invariant -/

/-- The callers' half of the invariant rests on the parameters and the programs alone (rules R11, R103). -/
theorem State.SameSetup.callersOk {s t : State} (h : s.SameSetup t) (hs : s.callersOk) : t.callersOk := by
  obtain ⟨hcfg, hprog⟩ := h
  obtain ⟨hlen, hok⟩ := hs
  refine ⟨by simpa [hcfg, hlen] using congrArg List.length hprog, fun c hc prog hp => ?_⟩
  have hm : some prog ∈ s.callers.map Caller.prog := by
    rw [← hprog, ← hp]
    exact List.mem_map_of_mem hc
  obtain ⟨c', hc', hp'⟩ := List.mem_map.1 hm
  exact hok c' hc' prog hp'

/-- A caller of the machine is within `N_CALLERS` (rule R11). -/
theorem State.Inv.caller_lt {s : State} (h : s.Inv) {k : Nat} (hk : s.HasCaller k) : k < s.cfg.nCallers := by
  rcases hk with hk | hk | hk
  · exact hk
  · exact h.harness.1 ▸ hk
  · obtain ⟨f, hf⟩ := Option.ne_none_iff_exists'.1 hk
    obtain ⟨-, hc⟩ := flightOf_mem hf
    exact hc ▸ caller_lt_of_activityOk h.activity (inflight_eq_of_flightOf h.activity hf)

/-- The machine acting for another caller, whose harness state has moved on, still meets the invariant. -/
theorem State.Inv.acting {s : State} (h : s.Inv) {k : Nat} {cs : List Caller} (hp : cs.map Caller.prog = s.callers.map Caller.prog) :
    State.Inv { s with callers := cs, cur := k } :=
  ⟨h.activity, h.configured, h.sound, h.resetSound, h.faultRecord, State.SameSetup.callersOk (s := s) ⟨rfl, hp⟩ h.harness⟩

theorem State.Inv.pick {s : State} (h : s.Inv) : s.pick.2.Inv := by
  rw [pick_eq]
  exact ⟨h.activity, h.configured, h.sound, h.resetSound, h.faultRecord, h.harness⟩

/-- Every command of a caller that exists keeps the invariant. -/
theorem exec_inv {i : Instr} {s t : State} (hs : s.Inv) (hk : s.cur < s.cfg.nCallers) (h : exec i s = .next t) : t.Inv := by
  obtain ⟨hact, hconf⟩ := exec_controlOk ⟨hs.activity, hs.configured⟩ hk h
  have hset := exec_sameSetup h
  exact ⟨hact, hconf, exec_sound hs.activity hs.sound h, hset.1.symm ▸ hs.resetSound, exec_faultOk hs.faultRecord hk h,
    hset.callersOk hs.harness⟩

/-- A calm step that leaves the fault and its record keeps the invariant. -/
theorem State.Inv.of_calm {s t : State} (hs : s.Inv) (h : s.Calm t) (hset : s.SameSetup t) (hper : t.per.sound)
    (hx : t.txShift ≠ none → s.txShift ≠ none ∨ s.per.txActive = true) (hf : t.fault = s.fault) (hi : t.faultInfo = s.faultInfo) :
    t.Inv := by
  obtain ⟨hact, hconf⟩ := h.controlOk hx ⟨hs.activity, hs.configured⟩
  exact ⟨hact, hconf, hper, h.cfg.symm ▸ hs.resetSound, faultOk_congr hf hi h.cfg hs.faultRecord, hset.callersOk hs.harness⟩

theorem rxArrive_inv {s : State} (hs : s.Inv) : (rxArrive s).Inv := by
  obtain ⟨_, _, _, _, _, _, _, he⟩ := rxArrive_eq s
  have hcalm : s.Calm (rxArrive s) :=
    ⟨by rw [he], by rw [he], by rw [he], by rw [he], by rw [he], rxArrive_grows s, rxArrive_rxne s, by rw [rxArrive_txe]; exact id⟩
  exact hs.of_calm hcalm (agentStep_sameSetup (a := .rxArrive) rfl) (rxArrive_sound hs.sound) (by rw [he]; exact .inl) (by rw [he])
    (by rw [he])

/-- A byte goes into the shift register only with the transmit side active (rules R220, R224). -/
theorem txLoad_txShift {s : State} (h : (txLoad s).txShift ≠ none) : s.txShift ≠ none ∨ s.per.txActive = true := by
  unfold txLoad at h
  split at h
  · rename_i he
    simp only [State.txLoadEnabled, Bool.and_eq_true] at he
    exact .inr he.1.1
  · exact .inl h

theorem txLoad_inv {s : State} (hs : s.Inv) : (txLoad s).Inv := by
  obtain ⟨_, _, he⟩ := txLoad_eq s
  have hcalm : s.Calm (txLoad s) :=
    ⟨by rw [he], by rw [he], by rw [he], by rw [he], by rw [he], txLoad_grows s, by rw [txLoad_rxne]; exact id, txLoad_txe s⟩
  exact hs.of_calm hcalm (agentStep_sameSetup (a := .txLoad) rfl) (txLoad_sound hs.sound) txLoad_txShift (by rw [he]) (by rw [he])

theorem txDone_inv {s : State} (hs : s.Inv) : (txDone s).Inv := by
  obtain ⟨hind, hser, -⟩ := hs.configured
  unfold txDone
  split
  · exact ⟨hs.activity, ⟨hind, hser, fun h => absurd rfl h⟩, hs.sound, hs.resetSound, hs.faultRecord, hs.harness⟩
  · exact hs

/-- Right after reset the machine meets the invariant, for all parameters whose `RESET_PERIPH` is sound (rules R46, R270). -/
theorem inv_of_cleanReset {s : State} (h : CleanReset s) (hp : s.cfg.resetPeriph.sound) (hc : s.callersOk) : s.Inv := by
  have hin : s.inflight = [] := congrArg State.inflight h
  have hseq : s.seq = none := congrArg State.seq h
  have hind : s.indCfg = false := congrArg State.indCfg h
  have hser : s.serCfg = .unconfigured := congrArg State.serCfg h
  have hsh : s.txShift = none := congrArg State.txShift h
  have hper : s.per = s.cfg.resetPeriph := congrArg State.per h
  have hf : s.fault = none := congrArg State.fault h
  have hfi : s.faultInfo = none := congrArg State.faultInfo h
  exact ⟨(activityOk_nil hin).2 hseq, ⟨by simp [hind], by simp [hser], by simp [hsh]⟩, hper ▸ hp, hp, by simp [State.faultOk, hf, hfi], hc⟩

/-- The reset event leaves the machine right after reset (rules R270, R271). -/
theorem resetEvent_cleanReset (s : State) : CleanReset s.resetEvent := by
  simp [CleanReset, State.resetEvent, State.resetWith, Caller.restart, Function.comp_def]

/-- Every step of every agent keeps the invariant. -/
theorem agentStep_inv {a : AgentStep} {s t : State} (hs : s.Inv) (h : agentStep a s = .next t) : t.Inv := by
  have hset := agentStep_sameSetup h
  rcases agentStep_cases h with ⟨k, cs, rfl⟩ | ⟨k, cs, w, hk, rfl⟩ | ⟨k, cs, i, hk, hp, he, -⟩ | ⟨-, rfl⟩ | ⟨-, rfl⟩ | ⟨-, rfl⟩ | ⟨-, rfl⟩
  · exact hs.acting hset.2
  · exact ⟨hs.activity, hs.configured, hs.sound, hs.resetSound, faultOk_raiseFault (hs.caller_lt hk) rfl, hset.callersOk hs.harness⟩
  · exact exec_inv (hs.acting hp) (hs.caller_lt hk) he
  · exact rxArrive_inv hs
  · exact txLoad_inv hs
  · exact txDone_inv hs
  · exact inv_of_cleanReset (resetEvent_cleanReset s) hs.resetSound (hset.callersOk hs.harness)

/-- Settles O11: the pick of the agent keeps the invariant, and so does every step of the agent picked. -/
theorem stepKeepsInvariant : Obligations.StepKeepsInvariant := by
  intro s t hs h
  rw [step_eq] at h
  exact agentStep_inv hs.pick h

/-! ## No step stops -/

/-- The current caller may perform command `i`: it has nothing in flight, or `i` is its command in flight (rules R76, R90). -/
def State.MayPerform (s : State) (i : Instr) : Prop := s.flightOf s.cur = none ∨ ∃ f, s.flightOf s.cur = some f ∧ f.cmd = i

/-- A command goes on where its micro-step 1 does once admitted, and where its later micro-step does in the phase it is in flight in. -/
theorem perform_next {i : Instr} {check first later} {s : State} (hf : s.MayPerform i)
    (hfirst : check s = none → ∃ t, first s = .next t)
    (hlater : ∀ ph, s.Flying i ph → ∃ t, later ph s = .next t) : ∃ t, perform i check first later s = .next t := by
  by_cases hs : s.fault = none
  · rcases hf with hn | ⟨⟨k, j, ph⟩, hf, rfl⟩
    · cases hc : s.conflict s.cur i with
      | true => exact ⟨_, by simp [perform, hs, hn, admission, hc]; rfl⟩
      | false =>
        rw [perform_free ⟨hs, hn, hc⟩]
        cases hk : check s with
        | some c => exact ⟨_, rfl⟩
        | none => exact hfirst hk
    · obtain ⟨-, rfl⟩ := flightOf_mem hf
      have hfly : s.Flying j ph := ⟨hs, hf⟩
      rw [perform_flying hfly]
      exact hlater ph hfly
  · exact ⟨s, perform_faulted hs⟩

/-- A micro-step of an init goes on where its field is clocked, and where a divisor to write is latched. -/
theorem runOp_next {i : Instr} {op : MicroOp} {q : Seq} {last : Bool} {finish : State → State} {s : State}
    (hfield : ∀ f v, op = .field f v → s.per.clocked f = true)
    (hstore : op = .storeDivisor → q.d ≠ none ∧ s.per.rcc.uartEn = true) : ∃ t, runOp i op q last finish s = .next t := by
  cases op with
  | field f v => exact ⟨_, by rw [runOp, fieldWrite_clocked (hfield f v rfl), andThen_next]⟩
  | latchDivisor baud =>
    simp only [runOp]
    split <;> exact ⟨_, rfl⟩
  | storeDivisor =>
    obtain ⟨hd, hu⟩ := hstore rfl
    obtain ⟨D, hD⟩ := Option.ne_none_iff_exists'.1 hd
    exact ⟨_, by simp [runOp, hD, writeBrr, hu]; rfl⟩

/-- The sequencer goes on where it stands at a micro-step of its command that does. -/
theorem seqStep_next {i : Instr} {cmd : InitCmd} {ops : List MicroOp} {finish : State → State} {s : State} {n : Nat}
    {d : Option (BitVec 16)} (hq : s.seq = some ⟨s.cur, cmd, n, d⟩) (hn : n < ops.length)
    (hfield : ∀ f v, ops[n]? = some (.field f v) → s.per.clocked f = true)
    (hstore : ops[n]? = some .storeDivisor → d ≠ none ∧ s.per.rcc.uartEn = true) : ∃ t, seqStep i cmd ops finish s = .next t := by
  have ho : ops[n]? = some ops[n] := List.getElem?_eq_getElem hn
  obtain ⟨t, ht⟩ := runOp_next (i := i) (op := ops[n]) (q := ⟨s.cur, cmd, n, d⟩) (last := n + 1 == ops.length) (finish := finish) (s := s)
    (fun f v h => hfield f v (h ▸ ho)) (fun h => hstore (h ▸ ho))
  exact ⟨t, by simpa [seqStep, hq, ho] using ht⟩

/-- With its port's clock set every field of `IND_INIT` is clocked (rules R72, R122). -/
theorem indInitTable_clocked {p : Params} {n : Nat} {f : Field} {v : Word} (h : (n, f, v) ∈ indInitTable p) {per : Periph}
    (hc : per.rcc.gpioEn[p.indPort] = true) : per.clocked f = true := by
  simp only [indInitTable, List.mem_cons, Prod.mk.injEq, List.not_mem_nil, or_false] at h
  rcases h with ⟨-, rfl, -⟩ | ⟨-, rfl, -⟩ | ⟨-, rfl, -⟩ | ⟨-, rfl, -⟩ | ⟨-, rfl, -⟩ | ⟨-, rfl, -⟩ | ⟨-, rfl, -⟩ | ⟨-, rfl, -⟩ | ⟨-, rfl, -⟩
  · rfl
  all_goals exact hc

/-- With the UART's clock set, and from row 3 on its port's clock, every field of `SER_INIT` is clocked (rules R72, R162). -/
theorem serInitTable_clocked {p : Params} {n : Nat} {f : Field} {v : Word} (h : (n, f, v) ∈ serInitTable p) {per : Periph}
    (hu : per.rcc.uartEn = true) (hc : 3 ≤ n → per.rcc.gpioEn[p.serPort] = true) : per.clocked f = true := by
  simp only [serInitTable, List.mem_cons, Prod.mk.injEq, List.not_mem_nil, or_false] at h
  rcases h with ⟨-, rfl, -⟩ | ⟨-, rfl, -⟩ | ⟨rfl, rfl, -⟩ | ⟨rfl, rfl, -⟩ | ⟨rfl, rfl, -⟩ | ⟨rfl, rfl, -⟩ | ⟨-, rfl, -⟩ | ⟨-, rfl, -⟩ |
    ⟨-, rfl, -⟩ | ⟨-, rfl, -⟩ | ⟨-, rfl, -⟩ | ⟨-, rfl, -⟩ | ⟨-, rfl, -⟩ | ⟨-, rfl, -⟩ | ⟨-, rfl, -⟩ | ⟨-, rfl, -⟩
  · rfl
  · rfl
  · exact hc (by decide)
  · exact hc (by decide)
  · exact hc (by decide)
  · exact hc (by decide)
  all_goals exact hu

theorem exec_indInit_next {s : State} (ha : s.activityOk) (hf : s.MayPerform .indInit) : ∃ t, exec .indInit s = .next t := by
  refine perform_next hf (fun _ => ?_) fun ph hfly => ?_
  · exact ⟨_, seqStep_field (d := none) (n := 0) rfl rfl (by rw [indInitOps_length]; decide) rfl⟩
  · obtain ⟨-, rfl, hen, n, -, hn, hq⟩ := (activityOk_indInit (inflight_eq_of_flightOf ha hfly.2)).1 ha
    refine seqStep_next hq (by rw [indInitOps_length]; omega) (fun f v ho => ?_) fun ho => ?_
    · obtain ⟨f', v', he, hm⟩ := indInitOps_get ho
      obtain ⟨rfl, rfl⟩ := MicroOp.field.inj he
      exact indInitTable_clocked hm hen
    · obtain ⟨f', v', he, -⟩ := indInitOps_get ho
      cases he

theorem exec_serInit_next {s : State} {baud : BitVec 32} (ha : s.activityOk) (hf : s.MayPerform (.serInit baud)) :
    ∃ t, exec (.serInit baud) s = .next t := by
  refine perform_next hf (fun _ => ?_) fun ph hfly => ?_
  · exact ⟨_, seqStep_field (d := none) (n := 0) rfl rfl (by rw [serInitOps_length]; decide) rfl⟩
  · obtain ⟨-, rfl, hen, n, d, -, hn, hq, hport, -, hd, -⟩ := (activityOk_serInit (inflight_eq_of_flightOf ha hfly.2)).1 ha
    refine seqStep_next hq (by rw [serInitOps_length]; omega) (fun f v ho => ?_) fun ho => ?_
    · rcases serInitOps_get ho with ⟨f', v', he, hm⟩ | ⟨-, he⟩ | ⟨-, he⟩
      · obtain ⟨rfl, rfl⟩ := MicroOp.field.inj he
        exact serInitTable_clocked hm hen fun h3 => hport (by omega)
      · cases he
      · cases he
    · rcases serInitOps_get ho with ⟨f', v', he, -⟩ | ⟨-, he⟩ | ⟨rfl, -⟩
      · cases he
      · cases he
      · obtain ⟨D, rfl, -⟩ := hd (by decide)
        exact ⟨nofun, hen⟩

theorem lineWrite_next {s : State} {line : BitVec 32} {word : Pin → Word} (h : s.per.rcc.gpioEn[s.cfg.indPort] = true) :
    ∃ t, lineWrite line word s = .next t := by
  simp only [lineWrite, writeBsrr, h, if_true, andThen_next]
  exact ⟨_, rfl⟩

/-- `IND_ON` and `IND_OFF`, admitted, find their port clocked, and neither is in flight (rules R25, R126). -/
theorem perform_line_next {s : State} {i : Instr} {line : BitVec 32} {word : Pin → Word} (hi : i = .indOn line ∨ i = .indOff line)
    (ha : s.activityOk) (hc : s.configuredOk) (hf : s.MayPerform i) :
    ∃ t, perform i (indCheck line) (lineWrite line word) neverLater s = .next t := by
  refine perform_next hf (fun hk => ?_) fun ph hfly => ?_
  · exact lineWrite_next (hc.1 (indCheck_eq_none.1 hk).1)
  · exact absurd ha (not_activityOk_line (inflight_eq_of_flightOf ha hfly.2) ⟨line, hi⟩)

/-- A serial transfer, admitted, finds the UART clocked (rules R72, R191, R201). -/
theorem uartEn_of_serCheck {s : State} (hc : s.configuredOk) (h : serCheck s = none) : s.per.rcc.uartEn = true :=
  (hc.2.1 (serCheck_eq_none.1 h)).1

theorem sampleStatus_next {s : State} {i : Instr} {flag : Uart → Bool} (h : s.per.rcc.uartEn = true) :
    ∃ t, sampleStatus i flag s = .next t := by
  simp only [sampleStatus, readSr, h, if_true, andThen_next]
  split <;> exact ⟨_, rfl⟩

theorem exec_serRead_next {s : State} (ha : s.activityOk) (hc : s.configuredOk) (hf : s.MayPerform .serRead) :
    ∃ t, exec .serRead s = .next t := by
  refine perform_next hf (fun hk => sampleStatus_next (uartEn_of_serCheck hc hk)) fun ph hfly => ?_
  obtain ⟨-, rfl, -, hcfg, -⟩ := (activityOk_serRead (inflight_eq_of_flightOf ha hfly.2)).1 ha
  simp only [dataAccess, loadData, readDr, (hc.2.1 hcfg).1, if_true, andThen_next]
  exact ⟨_, rfl⟩

theorem exec_serWrite_next {s : State} {b : Byte} (ha : s.activityOk) (hc : s.configuredOk) (hf : s.MayPerform (.serWrite b)) :
    ∃ t, exec (.serWrite b) s = .next t := by
  refine perform_next hf (fun hk => sampleStatus_next (uartEn_of_serCheck hc hk)) fun ph hfly => ?_
  obtain ⟨-, rfl, -, hcfg, -⟩ := (activityOk_serWrite (inflight_eq_of_flightOf ha hfly.2)).1 ha
  simp only [dataAccess, storeData, writeDr, (hc.2.1 hcfg).1, if_true, andThen_next]
  exact ⟨_, rfl⟩

/-- From a state of the invariant no command stops (rules R24, R25, R72). -/
theorem exec_next {i : Instr} {s : State} (hs : s.Inv) (hf : s.MayPerform i) : ∃ t, exec i s = .next t := by
  cases i with
  | indInit => exact exec_indInit_next hs.activity hf
  | indOn line => exact perform_line_next (.inl rfl) hs.activity hs.configured hf
  | indOff line => exact perform_line_next (.inr rfl) hs.activity hs.configured hf
  | serInit baud => exact exec_serInit_next hs.activity hf
  | serRead => exact exec_serRead_next hs.activity hs.configured hf
  | serWrite b => exact exec_serWrite_next hs.activity hs.configured hf

/-- A word written by a caller with nothing in flight never stops the machine (rule R96). -/
theorem issueWord_next {w : CmdWord} {s : State} (hs : s.Inv) (hf : s.flightOf s.cur = none) : ∃ t, issueWord w s = .next t := by
  cases hd : decode w with
  | cmd i =>
    rw [issueWord_cmd hd]
    exact exec_next hs (.inl hf)
  | illegal why =>
    simp only [issueWord, hd]
    split <;> exact ⟨_, rfl⟩

theorem harnessStep_next {k : Nat} {s : State} (hs : s.Inv) : ∃ t, harnessStep k s = .next t := by
  unfold harnessStep
  cases hc : s.callers[k]? with
  | none => exact ⟨s, rfl⟩
  | some c =>
    cases hp : c.prog with
    | none => exact ⟨s, by simp only [hp]⟩
    | some prog =>
      simp only [hp]
      split
      · rename_i hr
        rcases nextLine_cases prog c with ⟨n, st, hl⟩ | ⟨n, i, hl, -⟩ | ⟨hbad, -⟩
        · simp only [hl]
          exact ⟨_, rfl⟩
        · simp only [hl]
          exact issueWord_next (hs.acting (map_prog_set hc rfl)) hr.2
        · have hok := hs.harness.2 c (List.mem_of_getElem? hc) prog hp
          simp [hbad] at hok
      · exact ⟨s, rfl⟩

/-- From a state of the invariant no agent's step stops. -/
theorem agentStep_next {a : AgentStep} {s : State} (hs : s.Inv) : ∃ t, agentStep a s = .next t := by
  cases a with
  | issue k w =>
    simp only [agentStep, issueStep]
    split
    · rename_i hm
      exact issueWord_next (hs.acting rfl) (mayIssue_iff.1 hm).2.1
    · exact ⟨s, rfl⟩
  | block k =>
    simp only [agentStep, blockStep]
    cases hf : s.flightOf k with
    | none => exact ⟨s, rfl⟩
    | some f => exact exec_next (hs.acting rfl) (.inr ⟨f, hf, rfl⟩)
  | harness k => exact harnessStep_next hs
  | rxArrive => exact ⟨_, rfl⟩
  | txLoad => exact ⟨_, rfl⟩
  | txDone => exact ⟨_, rfl⟩
  | reset => exact ⟨_, rfl⟩

/-- Settles O12: the pick of the agent keeps the invariant, and from it no agent's step stops. -/
theorem stepNeverStops : Obligations.StepNeverStops := fun _ hs => agentStep_next hs.pick

/-! ## The other register bits -/

/-- No step of an agent but reset reaches the byte store (rule R41). -/
theorem agentStep_other {a : AgentStep} {s t : State} (h : agentStep a s = .next t) (ha : a ≠ .reset) : t.per.other = s.per.other := by
  rcases agentStep_cases h with ⟨k, cs, rfl⟩ | ⟨k, cs, w, -, rfl⟩ | ⟨k, cs, i, -, -, he, -⟩ | ⟨-, rfl⟩ | ⟨-, rfl⟩ | ⟨-, rfl⟩ | ⟨hr, -⟩
  · rfl
  · rfl
  · obtain ⟨-, -, -, -, -, -, ho, -⟩ := exec_keeps he
    exact ho
  · obtain ⟨_, _, _, _, _, _, _, hs⟩ := rxArrive_eq s
    rw [hs]
  · obtain ⟨_, _, hs⟩ := txLoad_eq s
    rw [hs]
  · rw [txDone_per]
  · exact absurd hr ha

/-- Settles O8: the pick of the agent leaves the byte store, no agent but reset reaches it, and reset takes it from `RESET_PERIPH`. -/
theorem otherRegisterBitsKept : Obligations.OtherRegisterBitsKept := by
  intro s t h
  rw [step_eq] at h
  refine ⟨fun ha => ?_, fun ha => ?_⟩
  · have ho : t.per.other = s.per.other := by rw [agentStep_other h ha, pick_per]
    exact ⟨ho, fun a => by rw [ho]⟩
  · rw [ha] at h
    obtain rfl := Host.Outcome.next.inj h
    exact congrArg (fun p : Params => p.resetPeriph.other) (pick_cfg s)

/-! ## The notification output -/

theorem irqRx_iff {s : State} : s.irqRx = true ↔ s.per.uart.rxneie = true ∧ s.per.uart.rxne = true := by
  simp [State.irqRx]

/-- An arrival at an active receiver with `rxne` 0 is delivered (rule R221). -/
theorem arrive_deliver {s : State} {v : Byte} {ferr : Bool} (ha : s.per.rxActive = true) (hx : s.per.uart.rxne = false) :
    s.arrive v ferr = { s with per := { s.per with uart := s.per.uart.deliver v ferr } } := by
  simp [State.arrive, ha, hx]

/-- The data load of a `SER_READ` in flight, with the UART clocked, ends the command (rule R192). -/
theorem exec_serRead_load {s : State} (hf : s.Flying .serRead (.statusSampled true)) (hu : s.per.rcc.uartEn = true) :
    ∃ t, exec .serRead s = .next t ∧ t.per = { s.per with uart := s.per.uart.afterRead (s.draws + 1) } := by
  have hx : exec .serRead s = loadData s := perform_flying hf
  simp only [hx, loadData, readDr, hu, if_true, andThen_next]
  exact ⟨_, rfl, rfl⟩

/-- Settles O57: `rxneie` never falls but by reset, so the output falls only where `rxne` is cleared. -/
theorem notificationOutput : Obligations.NotificationOutput := by
  refine ⟨fun s => rfl, ?rises, ?falls, ?only⟩
  case rises =>
    intro s v ferr ha hx hie
    rw [arrive_deliver ha hx, irqRx_iff]
    exact ⟨by simp [State.irqRx, hx], hie, rfl⟩
  case falls =>
    intro s hf hu
    obtain ⟨t, ht, hp⟩ := exec_serRead_load hf hu
    exact ⟨t, ht, by simp [State.irqRx, hp, Uart.afterRead]⟩
  case only =>
    intro s t h ha hs ht
    obtain ⟨hie, hx⟩ := irqRx_iff.1 hs
    rw [step_eq] at h
    have hie' : t.per.uart.rxneie = true := (agentStep_grows h ha).rxneie (by rwa [pick_per])
    have hx' : t.per.uart.rxne = false := by simpa [State.irqRx, hie'] using ht
    exact (flagsClearedOnlyByDataAccess s t h ha).1 hx hx'

/-! ## Reset -/

/-- Right after reset, with `RESET_PERIPH` the table's, every piece of state has the table's value (rules R46, R271). -/
theorem atReset_of_cleanReset {s : State} (h : CleanReset s) (hp : s.cfg.resetPeriph = Periph.resetValue) : s.AtReset := by
  have hper : s.per = Periph.resetValue := (congrArg State.per h).trans hp
  have hcallers : s.callers = s.callers.map Caller.restart := congrArg State.callers h
  have hfresh : ∀ c ∈ s.callers, c.last = none ∧ c.latch = none ∧ c.lc = 0 ∧ c.status = .running := by
    intro c hc
    rw [hcallers] at hc
    obtain ⟨c', -, rfl⟩ := List.mem_map.1 hc
    exact ⟨rfl, rfl, rfl, rfl⟩
  have htx : s.txByte = (freeWord s.draws).extractLsb' 0 8 := by simp [State.txByte, hper, Periph.resetValue, Uart.resetValue]
  unfold State.AtReset
  rw [hper]
  refine ⟨congrArg State.indCfg h, congrArg State.serCfg h, congrArg State.seq h, congrArg State.inflight h, congrArg State.fault h,
    congrArg State.faultInfo h, congrArg State.trace h, fun p => ?gpioEn, rfl, fun p i => ?pin, rfl, rfl, rfl, rfl, rfl, rfl, rfl, rfl, rfl,
    rfl, rfl, rfl, rfl, rfl, rfl, rfl, fun drawn => rfl, htx, congrArg State.txShift h, congrArg State.wireTx h, hfresh⟩
  case gpioEn => simp [Periph.resetValue, Rcc.resetValue]
  case pin => simp [Periph.resetValue, Gpio.resetValue]

theorem reset_cleanReset : CleanReset State.reset := rfl

/-- No command shortens the trace (rule R28). -/
theorem exec_keeps_trace {i : Instr} {s t : State} (h : exec i s = .next t) : s.trace <+: t.trace := by
  rcases exec_traced h with ⟨ht, -⟩ | ⟨e, ht, -⟩ <;> rw [ht]
  exact ⟨[e], rfl⟩

/-- Settles O18: `State.reset` and every machine after the reset event are clean-reset states, and no command shortens the trace. -/
theorem resetGivesTable : Obligations.ResetGivesTable := by
  refine ⟨atReset_of_cleanReset reset_cleanReset rfl, by decide, fun s hp => atReset_of_cleanReset (resetEvent_cleanReset s) hp,
    fun s => ⟨rfl, (resetEvent_sameSetup s).2, fun c hc => ?_, fun rest hs => ?_⟩, fun s t i h => exec_keeps_trace h⟩
  · obtain ⟨c', -, rfl⟩ := List.mem_map.1 hc
    exact ⟨rfl, rfl, rfl, rfl⟩
  · rw [step_of_schedule hs]
    rfl

/-- The default `RESET_PERIPH` holds no received byte, no waiting byte and no other register bit (rules R46, R272). -/
theorem resetValue_sound : Periph.resetValue.sound := ⟨fun h => Bool.noConfusion h, fun h => Bool.noConfusion h, rfl⟩

/-- At reset no enable of the UART is set (rule R46). -/
theorem resetValue_enableOk : Periph.resetValue.enableOk :=
  ⟨fun h => Bool.noConfusion h, fun h => Bool.noConfusion h, fun h => Bool.noConfusion h, fun h => Bool.noConfusion h⟩

/-- Settles O10: the reset state is a clean-reset state whose `RESET_PERIPH` is the table's, and no caller has a program. -/
theorem invariantsHoldAtReset : Obligations.InvariantsHoldAtReset := by
  refine ⟨inv_of_cleanReset reset_cleanReset resetValue_sound ⟨rfl, fun c hc prog hp => ?_⟩,
    ⟨resetValue_enableOk, resetValue_enableOk, fun q hq => nomatch hq⟩⟩
  obtain ⟨-, rfl⟩ := List.mem_replicate.1 hc
  cases hp

/-! ## The micro-steps of `IND_INIT` -/

/-- Settles O29: the sequencer at its first, at a middle and at its last micro-step, each a row of the table. -/
theorem indInitMicroSteps : Obligations.IndInitMicroSteps := by
  refine ⟨fun s hf => ?_, fun s n d f v hf hq hm hc => ⟨fun hn => ?_, fun hn => ?_⟩⟩
  · rw [exec_indInit_free hf]
    exact seqStep_field (n := 0) (d := none) rfl rfl (by rw [indInitOps_length]; decide) rfl
  · rw [exec_indInit_flying hf]
    exact seqStep_field hq (indInitTable_get hm) (by rwa [indInitOps_length]) hc
  · rw [exec_indInit_flying hf]
    exact seqStep_last hq (indInitTable_get hm) (by rwa [indInitOps_length]) hc

/-! ## Whole-word accesses -/

/-- A whole-word write gives a writable field of the register its bits of the word (rule R61). -/
theorem setWordAt_get_mem {L : Layout} (hL : L.slotsFit = true) (per : Periph) {addr : Word} (w : Word) {f : Field}
    (hf : (L.slot f).addr = addr) (hw : f.writable = true) :
    (per.setWordAt L addr w).get f = (w.extractLsb' (L.slot f).lo f.width).setWidth 32 := by
  unfold Periph.setWordAt
  rw [get_other]
  exact foldl_set_get_mem hL w _ per f (Layout.mem_fieldsAt.2 hf) hw

/-- A whole-word write leaves every field of another register (rule R61). -/
theorem setWordAt_get_ne {L : Layout} (per : Periph) {addr : Word} (w : Word) {f : Field} (hf : (L.slot f).addr ≠ addr) :
    (per.setWordAt L addr w).get f = per.get f := by
  unfold Periph.setWordAt
  rw [get_other]
  exact foldl_set_get w _ per f fun h => hf (Layout.mem_fieldsAt.1 h)

namespace Memory

/-- A word written is read back byte by byte, and every other byte is as before (rule R62). -/
theorem read_write32 {m : List Host.Cell} (hm : wf m = true) (a : Nat) (w : Word) (b : Nat) :
    read (write32 m a w) b =
      if b = a + 3 then w.extractLsb' 24 8 else if b = a + 2 then w.extractLsb' 16 8
      else if b = a + 1 then w.extractLsb' 8 8 else if b = a then w.extractLsb' 0 8 else read m b := by
  unfold write32
  rw [read_write (write_wf (write_wf (write_wf hm))), read_write (write_wf (write_wf hm)), read_write (write_wf hm), read_write hm]

/-- The word written is read back, little-endian (rule R62). -/
theorem read32_write32 {m : List Host.Cell} (hm : wf m = true) (a : Nat) (w : Word) : read32 (write32 m a w) a = w := by
  have hread (b : Nat) (hb : b < 4) : read (write32 m a w) (a + b) = w.extractLsb' (8 * b) 8 := by
    rw [read_write32 hm]
    interval_cases b <;> simp
  unfold read32
  rw [hread 3 (by decide), hread 2 (by decide), hread 1 (by decide), show read (write32 m a w) a = _ from hread 0 (by decide)]
  rw [BitVec.extractLsb'_append_extractLsb'_eq_extractLsb' (show 8 * 3 = 8 * 2 + 8 from rfl),
    BitVec.extractLsb'_append_extractLsb'_eq_extractLsb' (show 8 * 2 = 8 * 1 + 8 from rfl),
    BitVec.extractLsb'_append_extractLsb'_eq_extractLsb' (show 8 * 1 = 8 * 0 + 8 from rfl)]
  exact BitVec.extractLsb'_eq_self

end Memory

/-- A register with only writable fields that share no bit is read back whole after a whole-word write (rules R41, R61). -/
theorem wordAt_setWordAt {L : Layout} (hL : L.slotsFit = true) {per : Periph} {addr : Word} (hd : L.disjointAt addr)
    (hw : ∀ f : Field, (L.slot f).addr = addr → f.writable = true) (hm : Memory.wf per.other = true) (w : Word) :
    (per.setWordAt L addr w).wordAt L addr = w := by
  apply BitVec.eq_of_getLsbD_eq
  intro b hb
  by_cases hn : ∃ f, (L.slot f).addr = addr ∧ (L.slot f).lo ≤ b ∧ b ≤ (L.slot f).hi
  · obtain ⟨f, hf, hlo, hhi⟩ := hn
    obtain ⟨h32, hwidth⟩ := Layout.slotsFit_slot hL f
    rw [wordAt_inside hL _ hd hf ⟨hlo, hhi⟩, setWordAt_get_mem hL per w hf (hw f hf), BitVec.getLsbD_setWidth, BitVec.getLsbD_extractLsb',
      Nat.add_sub_cancel' hlo]
    simp [show b - (L.slot f).lo < 32 by omega, show b - (L.slot f).lo < f.width by omega]
  · have hnamed : (L.namedBits addr).getLsbD b = false := by
      rw [← Bool.not_eq_true, namedBits_getLsbD hL]
      exact hn
    rw [wordAt_outside hL _ fun f hf hb => hn ⟨f, hf, hb⟩, setWordAt_other, Memory.read32_write32 hm]
    rw [BitVec.getLsbD_and, BitVec.getLsbD_not, hnamed]
    simp [hb]

/-- A register's word holds each field's current value in its bits (rule R61). -/
theorem wordAt_extractLsb' {L : Layout} (hL : L.slotsFit = true) (per : Periph) {addr : Word} (hd : L.disjointAt addr) {f : Field}
    (hf : (L.slot f).addr = addr) : (per.wordAt L addr).extractLsb' (L.slot f).lo f.width = (per.get f).extractLsb' 0 f.width := by
  obtain ⟨-, hwidth⟩ := Layout.slotsFit_slot hL f
  apply BitVec.eq_of_getLsbD_eq
  intro i hi
  simp only [BitVec.getLsbD_extractLsb', wordAt_inside hL per hd hf (b := (L.slot f).lo + i) ⟨by omega, by omega⟩, Nat.add_sub_cancel_left,
    Nat.zero_add]

/-- A memory read of a clocked register without rules of its own gives its word and changes nothing but the trace (rules R61, R81). -/
theorem memRead_word {s : State} {addr : Word} (ha : addr.toNat % 4 = 0) (hr : s.cfg.layout.regAt addr = some (.word addr))
    (hc : ∀ f : Field, (s.cfg.layout.slot f).addr = addr → s.per.clocked f = true) :
    memRead addr s = .next (s.per.wordAt s.cfg.layout addr,
      { s with trace := s.trace ++ [.rd (.word addr) (s.per.wordAt s.cfg.layout addr)] }) := by
  have hall : (s.cfg.layout.fieldsAt addr).all s.per.clocked = true := List.all_eq_true.2 fun f hf => hc f (Layout.mem_fieldsAt.1 hf)
  simp [(memAccess_eq ha hr 0).1, regRead, readWord, hall, State.emit]

/-- A memory write of a clocked register without rules of its own and without read-only fields writes its word (rule R61). -/
theorem memWrite_word {s : State} {addr : Word} (ha : addr.toNat % 4 = 0) (hr : s.cfg.layout.regAt addr = some (.word addr))
    (hc : ∀ f : Field, (s.cfg.layout.slot f).addr = addr → s.per.clocked f = true)
    (hw : ∀ f : Field, (s.cfg.layout.slot f).addr = addr → f.writable = true) (w : Word) :
    memWrite addr w s = .next { s with
      per := s.per.setWordAt s.cfg.layout addr w, trace := s.trace ++ [.wr (.word addr) w] } := by
  have hall : (s.cfg.layout.fieldsAt addr).all s.per.clocked = true := List.all_eq_true.2 fun f hf => hc f (Layout.mem_fieldsAt.1 hf)
  have hwr : (s.cfg.layout.fieldsAt addr).all Field.writable = true := List.all_eq_true.2 fun f hf => hw f (Layout.mem_fieldsAt.1 hf)
  simp [(memAccess_eq ha hr w).2, regWrite, writeWord, hall, hwr, State.emit]

/-- Settles O60: the register's word bit by bit, inside its fields and outside them, before and after the write. -/
theorem wholeWordAccess : Obligations.WholeWordAccess := by
  intro s addr w L hL hd ha hown hex hc
  have hr : L.regAt addr = some (.word addr) := by
    obtain ⟨f, rfl⟩ := hex
    exact Layout.regAt_word hown
  refine ⟨⟨s.per.wordAt L addr, memRead_word ha hr hc, fun f hf => wordAt_extractLsb' hL s.per hd hf, fun b hb => ?outside⟩,
    fun hw hm => ⟨_, memWrite_word ha hr hc hw w, fun f hf => setWordAt_get_mem hL s.per w hf (hw f hf),
      fun f hf => setWordAt_get_ne s.per w hf, fun b hb => ?bytes, ?frame, fun hc' => ?readBack⟩⟩
  case outside => exact wordAt_outside hL s.per fun f hf hin => by have := hb f hf; omega
  case bytes =>
    rw [setWordAt_other, Memory.read_write32 hm]
    rw [if_neg (by omega), if_neg (by omega), if_neg (by omega), if_neg (by omega)]
  case frame =>
    obtain ⟨hrdr, htdr, hro, hto⟩ := setWordAt_hidden s.per L addr w
    rw [← hrdr, ← htdr, ← hro, ← hto]
  case readBack =>
    rw [memRead_word _ _ _, wordAt_setWordAt hL hd hw hm]
    · exact ha
    · exact hr
    · exact hc'

end Sys2Proof.Machine
end

section
/-! Proofs of the statements of the memory and the bus: the byte store under a word write (rules R41, R61, R62), the field write (rule R63), the
set/reset register (rules R33, R69), the status read (rule R68) and the data read (rules R64, R65, R67). -/

namespace Sys2Proof.Machine

open Sys2Proof Sys2Proof.Config

/-! ## The byte store -/

/-- A whole-register write that happens keeps the byte store canonical (rules R41, R61). -/
theorem memWrite_wf {addr w : Word} {s t : State} (hm : Memory.wf s.per.other = true) (h : memWrite addr w s = .next t) :
    Memory.wf t.per.other = true := by
  obtain ⟨-, r, -, hw⟩ := memWrite_cases h
  rcases regWrite_other hw with ho | ⟨a, v, ho⟩ <;> rw [ho]
  · exact hm
  · exact Memory.write32_wf hm

/-- A word write leaves every byte outside its four (rule R62). -/
theorem Memory.read_write32_outside {m : List Host.Cell} (hm : wf m = true) {a b : Nat} (hb : b < a ∨ a + 3 < b) (w : Word) :
    read (write32 m a w) b = read m b := by
  rw [read_write32 hm, if_neg (by omega), if_neg (by omega), if_neg (by omega), if_neg (by omega)]

/-- Settles O9: a word write is four byte writes, each of which keeps the form, and a register write is a word write or leaves the store. -/
theorem byteStoreWordWrite : Obligations.ByteStoreWordWrite :=
  ⟨fun _ a w hm => ⟨Memory.write32_wf hm, Memory.read32_write32 hm a w, fun _ hb => Memory.read_write32_outside hm hb w⟩,
    fun _ _ _ _ hm h => memWrite_wf hm h⟩

/-! ## The field write -/

/-- A field write reaches neither the byte store nor the holding registers (rules R40, R41, R63). -/
theorem Periph.set_frame (per : Periph) (f : Field) (v : Word) :
    { per.set f v with
      other := per.other
      uart := { (per.set f v).uart with
        rdr := per.uart.rdr, tdr := per.uart.tdr, rdrOpen := per.uart.rdrOpen, tdrOpen := per.uart.tdrOpen } } = per.set f v := by
  obtain ⟨hrdr, htdr, hro, hto⟩ := set_hidden per f v
  rw [← Periph.set_other per f v, ← hrdr, ← htdr, ← hro, ← hto]

/-- Settles O24: with its clock on, a field write is `Periph.set`, which sets its field, leaves the others, and has the frame above. -/
theorem fieldWriteChangesOneField : Obligations.FieldWriteChangesOneField := by
  intro f v s hw hc
  refine ⟨_, fieldWrite_clocked hc, Periph.get_set_self s.per f v hw, fun g hg => Periph.get_set_ne s.per f g v hg, ?frame⟩
  case frame => rw [Periph.set_frame]

/-! ## The set/reset register -/

/-- The level of each pin after a write to the set/reset register: the set bit wins, then the clear bit, else it stays (rule R33). -/
theorem bsrrEffect_getLsbD (odr : BitVec 16) (w : Word) {i : Nat} (hi : i < 16) :
    (bsrrEffect odr w).getLsbD i = if w.getLsbD i then true else if w.getLsbD (i + 16) then false else odr.getLsbD i := by
  simp only [bsrrEffect, BitVec.getLsbD_or, BitVec.getLsbD_and, BitVec.getLsbD_not, BitVec.getLsbD_extractLsb', hi, decide_true,
    Bool.true_and, Nat.zero_add, Nat.add_comm 16 i]
  cases w.getLsbD i <;> cases w.getLsbD (i + 16) <;> simp

/-- Writing the same word twice is writing it once (rules R33, R71). -/
theorem bsrrEffect_idem (odr : BitVec 16) (w : Word) : bsrrEffect (bsrrEffect odr w) w = bsrrEffect odr w := by
  apply BitVec.eq_of_getLsbD_eq
  intro i hi
  rw [bsrrEffect_getLsbD _ w hi, bsrrEffect_getLsbD odr w hi]
  cases w.getLsbD i <;> cases w.getLsbD (i + 16) <;> rfl

/-- The write of a clocked port's set/reset register, in one transaction (rules R33, R69). -/
theorem busWrite_bsrr {p : Port} {s : State} (h : s.per.rcc.gpioEn[p] = true) (w : Word) :
    busWrite (.bsrr p) w s = .next { s with
      per := s.per.modifyGpio p fun g => { g with odr := bsrrEffect g.odr w }, trace := s.trace ++ [.wr (.bsrr p) w] } :=
  if_pos h

/-- The read of a clocked port's set/reset register gives 0 (rule R33). -/
theorem busRead_bsrr {p : Port} {s : State} (h : s.per.rcc.gpioEn[p] = true) :
    busRead (.bsrr p) s = .next (0, { s with trace := s.trace ++ [.rd (.bsrr p) 0] }) :=
  if_pos h

/-- Settles O25, pin by pin with `bsrrEffect_getLsbD`. -/
theorem setResetRegisterWrite : Obligations.SetResetRegisterWrite :=
  ⟨fun s p x hp => ⟨bsrrEffect s.per.gpio[p].odr x, fun i => bsrrEffect_getLsbD _ x i.isLt, busWrite_bsrr hp x, busRead_bsrr hp⟩,
    bsrrEffect_idem⟩

/-! ## The status read -/

/-- A flag put into a slot of one bit: that bit is the flag, the others are as before. -/
theorem Slot.getLsbD_put_bitWord {x : Slot} (hx : x.hi = x.lo ∧ x.lo < 32) (w : Word) (flag : Bool) (b : Nat) :
    (x.put w (bitWord flag)).getLsbD b = if b = x.lo then flag else w.getLsbD b := by
  obtain ⟨hhi, hlt⟩ := hx
  rw [Slot.getLsbD_put (hhi ▸ hlt), hhi]
  by_cases hb : b = x.lo
  · subst hb
    simp [bitWord]
  · rw [if_neg (by omega), if_neg hb]

/-- The five flags stand at five different bits, each a slot of one bit within the word (rules R10, R68). -/
theorem Layout.statusOk_iff {L : Layout} : L.statusOk = true ↔
    (∀ x ∈ [L.rxne, L.txe, L.ore, L.fe, L.pe], (x.hi = x.lo ∧ x.lo < 32) ∧ x.addr = L.rxne.addr) ∧
      [L.rxne.lo, L.txe.lo, L.ore.lo, L.fe.lo, L.pe.lo].Nodup := by
  simp only [Layout.statusOk, Bool.and_eq_true, List.all_eq_true, beq_iff_eq, decide_eq_true_eq]

/-- A bit of the status word: the flag of the layout that stands there, else the drawn bit (rule R68). -/
theorem srWord_getLsbD {L : Layout} (h : L.statusOk = true) (u : Uart) (drawn : Word) (b : Nat) :
    (srWord L u drawn).getLsbD b =
      if b = L.rxne.lo then u.rxne else if b = L.txe.lo then u.txe else if b = L.ore.lo then u.ore
      else if b = L.fe.lo then u.fe else if b = L.pe.lo then u.pe else drawn.getLsbD b := by
  have bit (x : Slot) (hx : x ∈ [L.rxne, L.txe, L.ore, L.fe, L.pe]) : x.hi = x.lo ∧ x.lo < 32 := ((Layout.statusOk_iff.1 h).1 x hx).1
  unfold srWord
  rw [Slot.getLsbD_put_bitWord (bit _ (by simp)), Slot.getLsbD_put_bitWord (bit _ (by simp)), Slot.getLsbD_put_bitWord (bit _ (by simp)),
    Slot.getLsbD_put_bitWord (bit _ (by simp)), Slot.getLsbD_put_bitWord (bit _ (by simp))]

/-- The status read with the UART clocked has no side effect but its trace entry and its draw (rule R68). -/
theorem busRead_sr {s : State} (h : s.per.rcc.uartEn = true) :
    busRead .sr s = .next (srWord s.cfg.layout s.per.uart (freeWord s.draws),
      { s with draws := s.draws + 1, trace := s.trace ++ [.rd .sr (srWord s.cfg.layout s.per.uart (freeWord s.draws))] }) :=
  if_pos h

/-- Settles O26: the five bits differ, so each case of `srWord_getLsbD` is met at its own bit. -/
theorem statusReadCarriesFlags : Obligations.StatusReadCarriesFlags := by
  intro s hu hL
  have apart := (Layout.statusOk_iff.1 hL).2
  simp only [List.nodup_cons, List.mem_cons, List.not_mem_nil, or_false, not_or] at apart
  obtain ⟨⟨hrt, hro, hrf, hrp⟩, ⟨hto, htf, htp⟩, ⟨hof, hop⟩, hfp, -⟩ := apart
  refine ⟨_, busRead_sr hu, ?rxne, ?txe, ?ore, ?fe, ?pe, fun b hr ht ho hf hp => ?others⟩ <;> rw [srWord_getLsbD hL]
  case rxne => rw [if_pos rfl]
  case txe => rw [if_neg (Ne.symm hrt), if_pos rfl]
  case ore => rw [if_neg (Ne.symm hro), if_neg (Ne.symm hto), if_pos rfl]
  case fe => rw [if_neg (Ne.symm hrf), if_neg (Ne.symm htf), if_neg (Ne.symm hof), if_pos rfl]
  case pe => rw [if_neg (Ne.symm hrp), if_neg (Ne.symm htp), if_neg (Ne.symm hop), if_neg (Ne.symm hfp), if_pos rfl]
  case others => rw [if_neg hr, if_neg ht, if_neg ho, if_neg hf, if_neg hp]

/-! ## The data read -/

/-- A flag drawn after a data read keeps its value or is cleared (rule R67). -/
theorem drawnFlag_eq_or (flag keep : Bool) : drawnFlag flag keep = flag ∨ drawnFlag flag keep = false := by
  cases keep <;> simp [drawnFlag]

/-- The data register's word: drawn bits above its byte (rule R64). -/
theorem drWord_bits (u : Uart) (drawn : Word) :
    (drWord u drawn).extractLsb' 8 24 = drawn.extractLsb' 8 24 ∧ (drWord u drawn).extractLsb' 0 8 = drByte u drawn :=
  ⟨BitVec.extractLsb'_append_eq_left, wordByte_drWord u drawn⟩

/-- The data read with the UART clocked: the UART after it, four draws and the trace entry (rules R64, R65, R67). -/
theorem busRead_dr {s : State} (h : s.per.rcc.uartEn = true) :
    busRead .dr s = .next (drWord s.per.uart (freeWord s.draws), { s with
      per := { s.per with uart := s.per.uart.afterRead (s.draws + 1) }
      draws := s.draws + 4
      trace := s.trace ++ [.rd .dr (drWord s.per.uart (freeWord s.draws))] }) :=
  if_pos h

/-- Settles O27: the word is `drWord`, its byte received or drawn, and the UART is `Uart.afterRead`. -/
theorem dataReadEffect : Obligations.DataReadEffect := by
  intro s hu
  obtain ⟨hhigh, hlow⟩ := drWord_bits s.per.uart (freeWord s.draws)
  refine ⟨_, _, busRead_dr hu, hhigh, fun hopen => ?received, fun hopen => ?drawn, rfl, drawnFlag_eq_or _ _, drawnFlag_eq_or _ _,
    drawnFlag_eq_or _ _⟩ <;> rw [hlow, drByte, hopen]
  case received => exact if_neg Bool.false_ne_true
  case drawn => exact if_pos rfl

end Sys2Proof.Machine
end

section
/-! Proofs of the statements of the encoding: the command words, decoded and encoded (rules R91 to R97), the assembler and its programs (rules
R100 to R107), the responses (rule R98) and the faults with their codes (rules R99, R241, R243). -/

namespace Sys2Proof.Machine

open Sys2Proof Sys2Proof.Config

/-! ## Decoding and encoding -/

/-- Settles O3: `decode_encode`, and the table reader decodes the same 64 bits. -/
theorem decodeInvertsEncode : Obligations.DecodeInvertsEncode := by
  intro i _
  refine ⟨decode_encode i, ?_⟩
  have hw : BitVec.ofNat 64 ((encode i).toNat % 2 ^ 64) = encode i := by
    rw [Nat.mod_eq_of_lt (encode i).isLt, BitVec.ofNat_toNat, BitVec.setWidth_eq]
  simp only [decodeTableWord, hw, decode_encode]

/-- The opcode map gives a command only for its own operation number and operand (rules R92, R93). -/
theorem decodeOp_eq_cmd {op : BitVec 4} {arg : BitVec 32} {i : Instr} (h : decodeOp op arg = .cmd i) :
    opNumber i = op ∧ operandArg i = arg := by
  unfold decodeOp at h
  split_ifs at h with h1 harg h2 h3 h4 h5 harg h6 harg <;> obtain rfl := Decoded.cmd.inj h
  · exact ⟨h1.symm, harg.symm⟩
  · exact ⟨h2.symm, rfl⟩
  · exact ⟨h3.symm, rfl⟩
  · exact ⟨h4.symm, rfl⟩
  · exact ⟨h5.symm, harg.symm⟩
  · exact ⟨h6.symm, byteArg_eta arg harg⟩

/-- A word decodes to a command only where its reserved bits are zero (rule R94). -/
theorem decode_eq_cmd {w : CmdWord} {i : Instr} (h : decode w = .cmd i) : rsvOf w = 0 ∧ decodeOp (opOf w) (argOf w) = .cmd i := by
  unfold decode at h
  split_ifs at h with hr
  exact ⟨hr, h⟩

/-- Settles O4: a legal word is its operation and its operand, which are the command's. -/
theorem encodeInvertsDecode : Obligations.EncodeInvertsDecode := by
  intro w i h
  obtain ⟨hr, hd⟩ := decode_eq_cmd h
  obtain ⟨hop, harg⟩ := decodeOp_eq_cmd hd
  rw [encode, hop, harg, cmdWord_eta w hr]

/-- The operand bits [31:8] are the word's. -/
theorem argOf_high (w : CmdWord) : (argOf w).extractLsb' 8 24 = w.extractLsb' 8 24 := by
  apply BitVec.eq_of_getLsbD_eq
  intro i hi
  simp only [argOf, BitVec.getLsbD_extractLsb', hi, show 8 + i < 32 by omega, decide_true, Bool.true_and, Nat.zero_add]

/-- The illegal operations and operands (rules R94, R95). -/
theorem decodeOp_illegal_iff {op : BitVec 4} {arg : BitVec 32} : (∃ why, decodeOp op arg = .illegal why) ↔
    ((op = 0x1 ∨ op = 0x5) ∧ arg ≠ 0) ∨ (op = 0x6 ∧ arg.extractLsb' 8 24 ≠ 0) ∨ op = 0x0 ∨ 0x7 ≤ op.toNat := by
  unfold decodeOp
  split_ifs with h1 harg h2 h3 h4 h5 harg h6 harg
  · simp [h1, harg]
  · exact iff_of_true ⟨_, rfl⟩ (.inl ⟨.inl h1, harg⟩)
  · simp [h2]
  · simp [h3]
  · simp [h4]
  · simp [h5, harg]
  · exact iff_of_true ⟨_, rfl⟩ (.inl ⟨.inr h5, harg⟩)
  · simp [h6, harg]
  · exact iff_of_true ⟨_, rfl⟩ (.inr (.inl ⟨h6, harg⟩))
  · have hop : op = 0x0 ∨ 0x7 ≤ op.toNat := by bv_omega
    exact iff_of_true ⟨_, rfl⟩ (.inr (.inr hop))

/-- The illegal words: those with a reserved bit set, and those whose operation and operand are illegal (rules R94, R95). -/
theorem decode_illegal_iff {w : CmdWord} : (∃ why, decode w = .illegal why) ↔
    rsvOf w ≠ 0 ∨ ∃ why, decodeOp (opOf w) (argOf w) = .illegal why := by
  unfold decode
  split_ifs with hr
  · simp [hr]
  · exact iff_of_true ⟨_, rfl⟩ (.inl hr)

/-- An illegal word faults a block that is not faulted (rule R95). -/
theorem issueWord_illegal {w : CmdWord} {why : IllegalWord} {s : State} (hd : decode w = .illegal why) (hf : s.fault = none) :
    issueWord w s = .next (s.raiseFault .illegalCommand w 0) := by
  simp [issueWord, hf, hd]

/-- Settles O5: the illegal words by their three fields, and their fault. -/
theorem illegalWordsFault : Obligations.IllegalWordsFault := by
  refine ⟨fun w => ?_, fun w why s hd hf => issueWord_illegal hd hf⟩
  rw [decode_illegal_iff, decodeOp_illegal_iff, argOf_high]
  rfl

/-- Settles O1: closed words, each computed. -/
theorem encodingExamples : Obligations.EncodingExamples := by
  refine ⟨?assembler, ?encoder, ?decoder, ?responses⟩
  case assembler => decide
  case encoder => decide
  case decoder => decide
  case responses => decide

/-! ## Responses -/

/-- A word's three parts are found where they were put (rule R98). -/
theorem Response.word_fields (r : Response) :
    r.word.extractLsb' 8 2 = r.kind ∧ r.word.extractLsb' 0 8 = r.val ∧ r.word.extractLsb' 10 6 = 0 := by
  refine ⟨?kind, ?val, ?zero⟩ <;> apply BitVec.eq_of_getLsbD_eq <;> intro i hi <;>
    simp only [Response.word, BitVec.getLsbD_extractLsb', BitVec.getLsbD_append]
  case kind => simp [hi, show ¬ 8 + i < 8 by omega]
  case val => simp [hi]
  case zero => simp [hi, show ¬ 10 + i < 8 by omega, show ¬ 10 + i - 8 < 2 by omega]

/-- One micro-step of a command leaves the callers, or gives its own caller a response the command may give (rule R98). -/
theorem exec_responds {i : Instr} {s t : State} (h : exec i s = .next t) :
    t.callers = s.callers ∨ ∃ r, mayRespond i r ∧ t.callers = s.callers.modify s.cur fun c => c.receive r := by
  cases i with
  | indInit =>
    rcases exec_indInit_cases h with ⟨-, rfl⟩ | ⟨-, -, -, rfl⟩ | ⟨-, rfl⟩ | ⟨-, n, d, f, v, -, -, -, ⟨-, rfl⟩ | ⟨-, rfl⟩⟩
    · exact .inl rfl
    · exact .inl rfl
    · exact .inl rfl
    · exact .inl rfl
    · exact .inr ⟨.ok, rfl, rfl⟩
  | indOn line =>
    rcases exec_indOn_cases h with ⟨-, rfl⟩ | ⟨-, -, -, rfl⟩ | ⟨-, c, -, rfl⟩ | ⟨-, -, -, -, rfl⟩
    · exact .inl rfl
    · exact .inl rfl
    · exact .inl rfl
    · exact .inr ⟨.ok, rfl, rfl⟩
  | indOff line =>
    rcases exec_indOff_cases h with ⟨-, rfl⟩ | ⟨-, -, -, rfl⟩ | ⟨-, c, -, rfl⟩ | ⟨-, -, -, -, rfl⟩
    · exact .inl rfl
    · exact .inl rfl
    · exact .inl rfl
    · exact .inr ⟨.ok, rfl, rfl⟩
  | serInit baud =>
    rcases exec_serInit_cases h with ⟨-, rfl⟩ | ⟨-, -, -, rfl⟩ | ⟨-, rfl⟩ | ⟨-, n, d, -, -, ⟨f, v, -, -, ⟨-, rfl⟩ | ⟨-, rfl⟩⟩ |
      ⟨-, D, -, rfl⟩ | ⟨-, c, -, rfl⟩ | ⟨-, -, D, -, rfl⟩⟩
    · exact .inl rfl
    · exact .inl rfl
    · exact .inl rfl
    · exact .inl rfl
    · exact .inr ⟨.ok, rfl, rfl⟩
    · exact .inl rfl
    · exact .inl rfl
    · exact .inl rfl
  | serRead =>
    rcases exec_serRead_cases h with ⟨-, rfl⟩ | ⟨-, -, -, rfl⟩ | ⟨-, -, rfl⟩ | ⟨-, -, -, x, ⟨-, rfl⟩ | ⟨-, rfl⟩⟩ | ⟨-, -, rfl⟩
    · exact .inl rfl
    · exact .inl rfl
    · exact .inl rfl
    · exact .inr ⟨.notReady, .inl rfl, rfl⟩
    · exact .inl rfl
    · exact .inr ⟨.data _, .inr ⟨_, rfl⟩, rfl⟩
  | serWrite b =>
    rcases exec_serWrite_cases h with ⟨-, rfl⟩ | ⟨-, -, -, rfl⟩ | ⟨-, -, rfl⟩ | ⟨-, -, -, x, ⟨-, rfl⟩ | ⟨-, rfl⟩⟩ | ⟨-, -, rfl⟩
    · exact .inl rfl
    · exact .inl rfl
    · exact .inl rfl
    · exact .inr ⟨.notReady, .inr rfl, rfl⟩
    · exact .inl rfl
    · exact .inr ⟨.ok, .inl rfl, rfl⟩

/-- A harness program moves on to its next line with the response (rule R102). -/
theorem Caller.receive_lc {c : Caller} (hp : c.prog ≠ none) (r : Response) : (c.receive r).lc = c.lc + 1 :=
  if_pos (Option.isSome_iff_ne_none.2 hp)

/-- Settles O23: the word's fields, what a caller receives, and `exec_responds`. -/
theorem responsesOfCommands : Obligations.ResponsesOfCommands := by
  refine ⟨fun r => ?word, fun c r => ⟨rfl, ?latch, fun hp => c.receive_lc hp r, rfl, rfl⟩, fun s t i h => exec_responds h⟩
  case word =>
    have hw := r.word_fields
    cases r with
    | ok => exact hw
    | data b => exact hw
    | notReady => exact hw
  case latch =>
    cases r with
    | ok => rfl
    | data b => rfl
    | notReady => rfl

/-! ## The faults -/

/-- Once the block is faulted no micro-step runs (rule R242). -/
theorem exec_faulted {i : Instr} {s : State} (h : s.fault ≠ none) : exec i s = .next s := by
  cases i with
  | indInit => exact perform_faulted h
  | indOn line => exact perform_faulted h
  | indOff line => exact perform_faulted h
  | serInit baud => exact perform_faulted h
  | serRead => exact perform_faulted h
  | serWrite byte => exact perform_faulted h

/-- The rows of the fault table: which command raises which cause, under which condition, at which micro-step (rule R243). -/
inductive State.Raises (s : State) : Instr → FaultCause → Nat → Prop where
  | baudOverflow {baud : BitVec 32} (hb : baud ≠ 0) (hn : roundDiv s.cfg.tieRule s.cfg.pclkHz.toNat baud.toNat > 0xFFFF) :
    s.Raises (.serInit baud) .baudOverflow 13
  | baudZero : s.Raises (.serInit 0) .baudZero 13
  | serNotConfigured {i : Instr} (hi : i = .serRead ∨ ∃ b, i = .serWrite b) (hs : s.serCfg ≠ .configured) :
    s.Raises i .serNotConfigured 0
  | indNotConfigured {i : Instr} {line : BitVec 32} (hi : i = .indOn line ∨ i = .indOff line) (hs : s.indCfg = false) :
    s.Raises i .indNotConfigured 0
  | badLine {i : Instr} {line : BitVec 32} (hi : i = .indOn line ∨ i = .indOff line) (hl : line.toNat > 3) : s.Raises i .badLine 0
  | concurrentAccess {i : Instr} (hc : s.conflict s.cur i = true) : s.Raises i .concurrentAccess 0

/-- The divisor calculator refuses a baud rate of 0, and one whose divisor does not fit (rules R143, R146). -/
theorem raises_of_brrCalc {s : State} {baud : BitVec 32} {c : FaultCause} (h : brrCalc s.cfg.tieRule s.cfg.pclkHz baud = .err c) :
    s.Raises (.serInit baud) c 13 := by
  unfold brrCalc at h
  split_ifs at h with hb
  · obtain rfl := BrrResult.err.inj h
    exact hb ▸ .baudZero
  · dsimp only at h
    split_ifs at h with hn
    obtain rfl := BrrResult.err.inj h
    exact .baudOverflow hb hn

/-- The check of an indicator command raises its two causes (rule R126). -/
theorem raises_of_indCheck {s : State} {i : Instr} {line : BitVec 32} {c : FaultCause} (hi : i = .indOn line ∨ i = .indOff line)
    (h : indCheck line s = some c) : s.Raises i c 0 := by
  rcases indCheck_eq_some.1 h with ⟨rfl, hs⟩ | ⟨rfl, -, hl⟩
  · exact .indNotConfigured hi hs
  · exact .badLine hi hl

/-- A command of an unfaulted block leaves it so, or raises a fault of the table, with no other effect (rules R241, R243). -/
theorem exec_raises {i : Instr} {s t : State} (hs : s.fault = none) (h : exec i s = .next t) :
    t.fault = none ∨ ∃ c n, t = s.raiseFault c (encode i) n ∧ s.Raises i c n := by
  cases i with
  | indInit =>
    rcases exec_indInit_cases h with ⟨-, rfl⟩ | ⟨-, -, hc, rfl⟩ | ⟨-, rfl⟩ | ⟨-, n, d, f, v, -, -, -, ⟨-, rfl⟩ | ⟨-, rfl⟩⟩
    · exact .inl hs
    · exact .inr ⟨_, _, rfl, .concurrentAccess hc⟩
    · exact .inl hs
    · exact .inl hs
    · exact .inl hs
  | indOn line =>
    rcases exec_indOn_cases h with ⟨-, rfl⟩ | ⟨-, -, hc, rfl⟩ | ⟨-, c, hk, rfl⟩ | ⟨-, -, -, -, rfl⟩
    · exact .inl hs
    · exact .inr ⟨_, _, rfl, .concurrentAccess hc⟩
    · exact .inr ⟨_, _, rfl, raises_of_indCheck (.inl rfl) hk⟩
    · exact .inl hs
  | indOff line =>
    rcases exec_indOff_cases h with ⟨-, rfl⟩ | ⟨-, -, hc, rfl⟩ | ⟨-, c, hk, rfl⟩ | ⟨-, -, -, -, rfl⟩
    · exact .inl hs
    · exact .inr ⟨_, _, rfl, .concurrentAccess hc⟩
    · exact .inr ⟨_, _, rfl, raises_of_indCheck (.inr rfl) hk⟩
    · exact .inl hs
  | serInit baud =>
    rcases exec_serInit_cases h with ⟨-, rfl⟩ | ⟨-, -, hc, rfl⟩ | ⟨-, rfl⟩ | ⟨-, n, d, -, -, ⟨f, v, -, -, ⟨-, rfl⟩ | ⟨-, rfl⟩⟩ |
      ⟨-, D, -, rfl⟩ | ⟨-, c, hd, rfl⟩ | ⟨-, -, D, -, rfl⟩⟩
    · exact .inl hs
    · exact .inr ⟨_, _, rfl, .concurrentAccess hc⟩
    · exact .inl hs
    · exact .inl hs
    · exact .inl hs
    · exact .inl hs
    · exact .inr ⟨_, _, rfl, raises_of_brrCalc hd⟩
    · exact .inl hs
  | serRead =>
    rcases exec_serRead_cases h with ⟨-, rfl⟩ | ⟨-, -, hc, rfl⟩ | ⟨-, hk, rfl⟩ | ⟨-, -, -, x, ⟨-, rfl⟩ | ⟨-, rfl⟩⟩ | ⟨-, -, rfl⟩
    · exact .inl hs
    · exact .inr ⟨_, _, rfl, .concurrentAccess hc⟩
    · exact .inr ⟨_, _, rfl, .serNotConfigured (.inl rfl) hk⟩
    · exact .inl hs
    · exact .inl hs
    · exact .inl hs
  | serWrite b =>
    rcases exec_serWrite_cases h with ⟨-, rfl⟩ | ⟨-, -, hc, rfl⟩ | ⟨-, hk, rfl⟩ | ⟨-, -, -, x, ⟨-, rfl⟩ | ⟨-, rfl⟩⟩ | ⟨-, -, rfl⟩
    · exact .inl hs
    · exact .inr ⟨_, _, rfl, .concurrentAccess hc⟩
    · exact .inr ⟨_, _, rfl, .serNotConfigured (.inr ⟨b, rfl⟩) hk⟩
    · exact .inl hs
    · exact .inl hs
    · exact .inl hs

/-- Settles O21: `exec_raises` gives the row of the table, and the code is the cause's. -/
theorem faultTable : Obligations.FaultTable := by
  refine ⟨fun s => ?codes, fun s t i c hs h hc => ?rows, fun s w why hs hd => ⟨_, issueWord_illegal hd hs, rfl, rfl⟩⟩
  case codes =>
    unfold State.faultOut
    cases s.fault with
    | none => rfl
    | some c => cases c <;> rfl
  case rows =>
    rcases exec_raises hs h with ht | ⟨c', n, rfl, hr⟩
    · simp [ht] at hc
    obtain rfl : c' = c := Option.some.inj hc
    refine ⟨n, rfl, fun j => exec_faulted (by simp), ?_⟩
    cases hr with
    | baudOverflow hb hn => exact .inl ⟨rfl, rfl, rfl, _, rfl, hb, hn⟩
    | baudZero => exact .inr (.inl ⟨rfl, rfl, rfl, rfl⟩)
    | serNotConfigured hi hcfg => exact .inr (.inr (.inl ⟨rfl, rfl, rfl, hi, hcfg⟩))
    | indNotConfigured hi hcfg => exact .inr (.inr (.inr (.inl ⟨rfl, rfl, rfl, ⟨_, hi⟩, hcfg⟩)))
    | badLine hi hl => exact .inr (.inr (.inr (.inr (.inl ⟨rfl, rfl, rfl, _, hi, hl⟩))))
    | concurrentAccess hk => exact .inr (.inr (.inr (.inr (.inr ⟨rfl, rfl, rfl, hk⟩))))

/-! ## The harness lines -/

section AtLine

variable {prog : List HarnessLine} {c : Caller} {n : Nat}

/-- `bnr` branches after `NOT_READY` and else goes to the next line (rule R103). -/
theorem nextLine_bnr {l m : Nat} (hr : c.Reaches prog n) (hx : prog[n]? = some (.bnr l)) (hm : labelTarget prog l = some m) :
    nextLine prog c = .goOn { c with lc := if c.last = some .notReady then m else n + 1 } := by
  have hn := skipLabels_of_reaches hr (by simp [hx])
  by_cases hlast : c.last = some .notReady <;> simp [nextLine, hn, hx, jumpTo, hm, hlast]

/-- `br` branches (rule R103). -/
theorem nextLine_br {l m : Nat} (hr : c.Reaches prog n) (hx : prog[n]? = some (.br l)) (hm : labelTarget prog l = some m) :
    nextLine prog c = .goOn { c with lc := m } := by
  simp [nextLine, skipLabels_of_reaches hr (by simp [hx]), hx, jumpTo, hm]

/-- `ser.write b` stops the caller where its latch is unwritten (rule R107). -/
theorem nextLine_serWriteB_unwritten (hr : c.Reaches prog n) (hx : prog[n]? = some .serWriteB) (hb : c.latch = none) :
    nextLine prog c = .goOn { c with lc := n, status := .unwrittenLatch } := by
  simp [nextLine, skipLabels_of_reaches hr (by simp [hx]), hx, hb]

/-- `ser.write b` writes the word of `SER_WRITE` of the latch (rule R104). -/
theorem nextLine_serWriteB {b : Byte} (hr : c.Reaches prog n) (hx : prog[n]? = some .serWriteB) (hb : c.latch = some b) :
    nextLine prog c = .issue (encode (.serWrite b)) { c with lc := n } := by
  simp [nextLine, skipLabels_of_reaches hr (by simp [hx]), hx, hb]

/-- Past its last line the caller stops (rule R107). -/
theorem nextLine_end (hr : c.Reaches prog n) (hx : prog[n]? = none) : nextLine prog c = .goOn { c with lc := n, status := .noHalt } := by
  simp [nextLine, skipLabels_of_reaches hr (by simp [hx]), hx]

/-- `halt` stops the caller (rule R102). -/
theorem nextLine_halt (hr : c.Reaches prog n) (hx : prog[n]? = some .halt) :
    nextLine prog c = .goOn { c with lc := n, status := .halted } := by
  simp [nextLine, skipLabels_of_reaches hr (by simp [hx]), hx]

end AtLine

/-- A running caller with nothing in flight does what its next line asks for (rule R102). -/
theorem harnessStep_running {k : Nat} {s : State} {c : Caller} {prog : List HarnessLine} (hc : s.callers[k]? = some c)
    (hp : c.prog = some prog) (hs : c.status = .running) (hf : s.flightOf k = none) :
    (∀ c', nextLine prog c = .goOn c' → harnessStep k s = .next { s with callers := s.callers.set k c' }) ∧
    ∀ w c', nextLine prog c = .issue w c' → harnessStep k s = issueWord w { s with callers := s.callers.set k c', cur := k } := by
  constructor
  · intro c' h
    simp [harnessStep, hc, hp, hs, hf, h]
  · intro w c' h
    simp [harnessStep, hc, hp, hs, hf, h]

/-- A stopped caller takes no step (rules R102, R107). -/
theorem harnessStep_stopped {k : Nat} {s : State} {c : Caller} (hc : s.callers[k]? = some c) (hs : c.status ≠ .running) :
    harnessStep k s = .next s := by
  cases hp : c.prog <;> simp [harnessStep, hc, hp, hs]

/-- A branch goes to the line after its label (rule R103). -/
theorem labelTarget_eq_some {prog : List HarnessLine} {l m : Nat} (h : labelTarget prog l = some m) :
    ∃ n, m = n + 1 ∧ prog[n]? = some (.label l) := by
  obtain ⟨n, hn, rfl⟩ := Option.map_eq_some_iff.1 h
  obtain ⟨hlt, hx, -⟩ := List.findIdx?_eq_some_iff_getElem.1 hn
  exact ⟨n, rfl, by simpa [List.getElem?_eq_getElem hlt] using hx⟩

/-- A program that assembles expands from its source and branches only to labels it defines (rules R101, R103). -/
theorem assemble_eq_some {src : List Source} {prog : List HarnessLine} (h : assemble src = some prog) :
    expandAll ((src.map Source.label?).foldl max 0 + 1) src = some prog ∧ programOk prog = true := by
  unfold assemble at h
  split at h
  · simp at h
  · split_ifs at h with hok
    obtain rfl := Option.some.inj h
    exact ⟨by assumption, hok⟩

theorem labelTarget_of_programOk {prog : List HarnessLine} {l : Nat} (hok : programOk prog = true) (h : .bnr l ∈ prog ∨ .br l ∈ prog) :
    ∃ m, labelTarget prog l = some m := by
  have hall := List.all_eq_true.1 hok
  rcases h with h | h
  · exact Option.isSome_iff_exists.1 (hall _ h)
  · exact Option.isSome_iff_exists.1 (hall _ h)

/-- Settles O58: each line by what `nextLine` asks of its caller. -/
theorem harnessLines : Obligations.HarnessLines := by
  refine ⟨?lines, fun prog l m => labelTarget_eq_some, fun c b => ⟨rfl, rfl, rfl⟩, fun s k c => harnessStep_stopped,
    fun src prog h l hl => labelTarget_of_programOk (assemble_eq_some h).2 hl⟩
  intro s k c prog n hc hp hs hf hr
  obtain ⟨goOn, issue⟩ := harnessStep_running hc hp hs hf
  refine ⟨fun l m hx hm => goOn _ (nextLine_bnr hr hx hm), fun l m hx hm => goOn _ (nextLine_br hr hx hm),
    fun hx hb => goOn _ (nextLine_serWriteB_unwritten hr hx hb), fun b hx hb _ => ?written, fun hx => goOn _ (nextLine_end hr hx),
    fun hx => goOn _ (nextLine_halt hr hx)⟩
  case written => rw [issue _ _ (nextLine_serWriteB hr hx hb), issueWord_cmd (decode_encode _)]

/-! ## The assembler's words -/

/-- A word from an operation and an operand that fits is the operation's base word with the operand's bits (rules R91, R100). -/
theorem cmdWord_ofNat (op : BitVec 4) {v : Nat} (hv : v < 2 ^ 32) :
    cmdWord op (BitVec.ofNat 32 v) = (op.setWidth 64 <<< 60) ||| BitVec.ofNat 64 v := by
  apply BitVec.eq_of_getLsbD_eq
  intro i hi
  simp only [cmdWord, BitVec.getLsbD_append, BitVec.getLsbD_or, BitVec.getLsbD_shiftLeft, BitVec.getLsbD_setWidth, BitVec.getLsbD_ofNat]
  by_cases hlow : i < 32
  · simp [hlow, hi, show i < 60 by omega]
  · have hbit : v.testBit i = false := Nat.testBit_lt_two_pow (hv.trans_le (Nat.pow_le_pow_right (by decide) (by omega)))
    by_cases hmid : i - 32 < 28
    · simp [hlow, hmid, hbit, show i < 60 by omega]
    · simp [hlow, hmid, hbit, hi, show ¬ i < 60 by omega, show i - 32 - 28 = i - 60 by omega, show i - 60 < 64 by omega]

/-- A byte operand is the 32-bit operand of the same value (rules R93, R101). -/
theorem byteArg_ofNat {v : Nat} (hv : v < 2 ^ 8) : (0 : BitVec 24) ++ BitVec.ofNat 8 v = BitVec.ofNat 32 v := by
  apply BitVec.eq_of_toNat_eq
  rw [BitVec.toNat_append, BitVec.toNat_ofNat, BitVec.toNat_ofNat, Nat.mod_eq_of_lt hv, Nat.mod_eq_of_lt (hv.trans (by decide))]
  simp

section Immediate

variable {x : Imm} {v : Nat}

theorem Imm.operand_fits {n : Nat} (hx : x.value = some v) (hv : v < 2 ^ n) : x.operand n = some (BitVec.ofNat n v) := by
  simp [Imm.operand, hx, hv]

theorem Imm.operand_too_large {n : Nat} (hx : x.value = some v) (hv : 2 ^ n ≤ v) : x.operand n = none := by
  simp [Imm.operand, hx, hv]

theorem Imm.operand_no_value {n : Nat} (hx : x.value = none) : x.operand n = none := by
  simp [Imm.operand, hx]

/-- The words of the three commands with a 32-bit operand, where the immediate fits (rules R93, R100). -/
theorem Source.word_of_word {a : BitVec 32} (h : x.word = some a) :
    (Source.indOn x).word = some (cmdWord 0x2 a) ∧ (Source.indOff x).word = some (cmdWord 0x3 a) ∧
      (Source.serInit x).word = some (cmdWord 0x4 a) := by
  refine ⟨?_, ?_, ?_⟩ <;> simp [Source.word, Source.expand, h, encode, opNumber, operandArg]

/-- The word of `ser.write`, where the immediate fits (rules R93, R100). -/
theorem Source.word_of_byte {b : Byte} (h : x.byte = some b) : (Source.serWrite x).word = some (cmdWord 0x6 ((0 : BitVec 24) ++ b)) := by
  simp [Source.word, Source.expand, h, encode, opNumber, operandArg]

/-- No word where the immediate is no 32-bit operand (rule R101). -/
theorem Source.word_none_of_word (h : x.word = none) :
    (Source.indOn x).word = none ∧ (Source.indOff x).word = none ∧ (Source.serInit x).word = none := by
  simp [Source.word, Source.expand, h]

/-- No word where the immediate is no byte (rule R101). -/
theorem Source.word_none_of_byte (h : x.byte = none) : (Source.serWrite x).word = none := by
  simp [Source.word, Source.expand, h]

end Immediate

/-! ## Assembled programs -/

/-- The label a line names, as its own or as a branch's. -/
def HarnessLine.named : HarnessLine → Option Nat
  | .label l | .bnr l | .br l => some l
  | .cmd _ | .serWriteB | .halt => none

/-- A line of source expands to lines that name its own label, the fresh one, or none (rules R105, R106). -/
theorem Source.expand_named {x : Source} {fresh : Nat} {lines : List HarnessLine} (h : x.expand fresh = some lines) :
    ∀ z ∈ lines, z.named = none ∨ z.named = some x.label? ∨ z.named = some fresh := by
  cases x with
  | indOn | indOff | serInit | serWrite | putc =>
    obtain ⟨a, -, rfl⟩ := Option.map_eq_some_iff.1 h
    simp [HarnessLine.named]
  | label | indInit | serRead | serWriteB | bnr | br | halt | getc | putcB =>
    obtain rfl := Option.some.inj h
    simp [HarnessLine.named, Source.label?]

/-- A program expands line by line, each with the next fresh label. -/
theorem expandAll_cons {fresh : Nat} {x : Source} {rest : List Source} {prog : List HarnessLine} :
    expandAll fresh (x :: rest) = some prog ↔
      ∃ lines more, x.expand fresh = some lines ∧ expandAll (fresh + 1) rest = some more ∧ lines ++ more = prog := by
  simp [expandAll, Option.bind_eq_some_iff]

/-- The expansion of a program around one of its lines: the lines before, the line in place, the lines after (rules R105, R106). -/
theorem expandAll_append_cons {fresh : Nat} {pre post : List Source} {x : Source} {prog : List HarnessLine}
    (h : expandAll fresh (pre ++ x :: post) = some prog) :
    ∃ a lines b, expandAll fresh pre = some a ∧ x.expand (fresh + pre.length) = some lines ∧
      expandAll (fresh + pre.length + 1) post = some b ∧ prog = a ++ lines ++ b := by
  induction pre generalizing fresh prog with
  | nil =>
    obtain ⟨lines, b, hx, hb, rfl⟩ := expandAll_cons.1 h
    exact ⟨[], lines, b, rfl, hx, hb, rfl⟩
  | cons y pre ih =>
    obtain ⟨first, more, hy, hm, rfl⟩ := expandAll_cons.1 h
    obtain ⟨a, lines, b, ha, hx, hb, rfl⟩ := ih hm
    have hlen : fresh + 1 + pre.length = fresh + (y :: pre).length := by rw [List.length_cons, Nat.add_right_comm, Nat.add_assoc]
    rw [hlen] at hx hb
    exact ⟨first ++ a, lines, b, expandAll_cons.2 ⟨first, a, hy, ha, rfl⟩, hx, hb, by simp only [List.append_assoc]⟩

/-- An expanded program names the labels of its source, and one fresh label per line. -/
theorem expandAll_named {fresh l : Nat} {src : List Source} {prog : List HarnessLine} {z : HarnessLine}
    (h : expandAll fresh src = some prog) (hz : z ∈ prog) (hl : z.named = some l) :
    (∃ x ∈ src, l = x.label?) ∨ (fresh ≤ l ∧ l < fresh + src.length) := by
  induction src generalizing fresh prog with
  | nil =>
    obtain rfl := Option.some.inj h
    simp at hz
  | cons x rest ih =>
    obtain ⟨lines, more, hx, hm, rfl⟩ := expandAll_cons.1 h
    rw [List.length_cons]
    rcases List.mem_append.1 hz with hz | hz
    · rcases Source.expand_named hx z hz with hn | hn | hn <;> rw [hl] at hn
      · cases hn
      · exact .inl ⟨x, List.mem_cons_self, Option.some.inj hn⟩
      · obtain rfl := Option.some.inj hn
        exact .inr (by omega)
    · rcases ih hm hz with ⟨y, hy, rfl⟩ | hf
      · exact .inl ⟨y, List.mem_cons_of_mem _ hy, rfl⟩
      · exact .inr (by omega)

/-- The fresh labels of a program start above every label of its source. -/
theorem label?_lt_fresh {src : List Source} {x : Source} (h : x ∈ src) : x.label? < (src.map Source.label?).foldl max 0 + 1 := by
  rw [List.foldl_eq_foldr]
  exact Nat.lt_succ_of_le (List.le_max_of_le (List.mem_map_of_mem h) le_rfl)

/-- A label that no line ahead of it names is where its branches go (rule R103). -/
theorem labelTarget_append {a rest : List HarnessLine} {l : Nat} (h : ∀ z ∈ a, z.named ≠ some l) :
    labelTarget (a ++ .label l :: rest) l = some (a.length + 1) := by
  have ha : a.findIdx? (fun z => z == .label l) = none := by
    refine List.findIdx?_eq_none_iff.2 fun z hz => beq_false_of_ne ?_
    rintro rfl
    exact h _ hz rfl
  simp [labelTarget, List.findIdx?_append, ha, List.findIdx?_cons]

/-- A pseudo-instruction of an assembled program stands in place, with a label that no other line names (rules R105, R106). -/
theorem assemble_loop {pre post : List Source} {x : Source} {prog : List HarnessLine} {line : HarnessLine}
    (h : assemble (pre ++ x :: post) = some prog) (hx : ∀ fresh, x.expand fresh = some [.label fresh, line, .bnr fresh]) :
    ∃ l a b m n, prog = a ++ [.label l, line, .bnr l] ++ b ∧ expandAll m pre = some a ∧ expandAll n post = some b ∧
      labelTarget prog l = some (a.length + 1) ∧ ∀ z ∈ a ++ b, z.named ≠ some l := by
  have hfresh : ∀ y ∈ pre ++ x :: post, y.label? < ((pre ++ x :: post).map Source.label?).foldl max 0 + 1 := fun y => label?_lt_fresh
  obtain ⟨he, -⟩ := assemble_eq_some h
  generalize ((pre ++ x :: post).map Source.label?).foldl max 0 + 1 = m at he hfresh
  obtain ⟨a, lines, b, ha, hlines, hb, rfl⟩ := expandAll_append_cons he
  obtain rfl := Option.some.inj ((hx _).symm.trans hlines)
  have hna : ∀ z ∈ a, z.named ≠ some (m + pre.length) := by
    intro z hz hl
    rcases expandAll_named ha hz hl with ⟨y, hy, hl⟩ | ⟨-, hlt⟩
    · have := hfresh y (by simp [hy])
      omega
    · omega
  have hnb : ∀ z ∈ b, z.named ≠ some (m + pre.length) := by
    intro z hz hl
    rcases expandAll_named hb hz hl with ⟨y, hy, hl⟩ | ⟨hle, -⟩
    · have := hfresh y (by simp [hy])
      omega
    · omega
  refine ⟨_, a, b, _, _, rfl, ha, hb, ?target, fun z hz => ?others⟩
  case target => simpa using labelTarget_append hna
  case others => exact (List.mem_append.1 hz).elim (hna z) (hnb z)

/-- Settles O2: the words by `cmdWord_ofNat`, the pseudo-instructions by `assemble_loop`. -/
theorem assemblerWords : Obligations.AssemblerWords := by
  refine ⟨fun x v hx => ?words, fun c hc => ?noAscii, fun pre post x prog line h hx => ?loops, fun pre post y hy => ?tooLarge⟩
  case words =>
    have hval : x.value = some v := by
      rcases hx with rfl | ⟨c, hc, rfl, rfl⟩
      · rfl
      · exact if_pos hc
    refine ⟨fun hv => ?_, fun hv => Source.word_none_of_word (Imm.operand_too_large hval hv), fun hv => ?_,
      fun hv => Source.word_none_of_byte (Imm.operand_too_large hval hv)⟩
    · have hw := Source.word_of_word (Imm.operand_fits hval hv)
      simp only [cmdWord_ofNat _ hv] at hw
      exact hw
    · rw [Source.word_of_byte (Imm.operand_fits hval hv), byteArg_ofNat hv, cmdWord_ofNat _ (hv.trans (by decide))]
      rfl
  case noAscii =>
    have hval : (Imm.chr c).value = none := if_neg (Nat.not_lt.2 hc)
    obtain ⟨hon, hoff, hinit⟩ := Source.word_none_of_word (Imm.operand_no_value hval)
    exact ⟨hon, hoff, hinit, Source.word_none_of_byte (Imm.operand_no_value hval)⟩
  case loops =>
    have hexp : ∀ fresh, x.expand fresh = some [.label fresh, line, .bnr fresh] := by
      intro fresh
      rcases hx with ⟨rfl, rfl⟩ | ⟨y, b, rfl, hb, rfl⟩ | ⟨rfl, rfl⟩
      · rfl
      · simp [Source.expand, hb]
      · rfl
    obtain ⟨l, a, b, m, n, hprog, ha, hb, ht, hnamed⟩ := assemble_loop h hexp
    refine ⟨l, a, b, m, n, hprog, ha, hb, ht, fun z hz => ⟨?_, ?_, ?_⟩⟩ <;> rintro rfl <;> exact hnamed _ hz rfl
  case tooLarge =>
    refine Option.eq_none_iff_forall_ne_some.2 fun prog h => ?_
    obtain ⟨a, lines, b, -, hlines, -⟩ := expandAll_append_cons (assemble_eq_some h).1
    simp [Source.expand, hy] at hlines

end Sys2Proof.Machine
end

section
/-! Proofs of the statements of `IND_ON` and `IND_OFF`: their checks and their one write (rules R120, R121, R126 to R129). -/

namespace Sys2Proof.Machine

open Sys2Proof Sys2Proof.Config

/-! ## The checks of `IND_ON` and `IND_OFF` -/

/-- The meaning of `IND_ON` and `IND_OFF` where a check of their own applies: its fault (rules R126, R241). -/
theorem exec_line_fault {s : State} {i : Instr} {line : BitVec 32} {c : FaultCause} (hi : i = .indOn line ∨ i = .indOff line)
    (hf : s.Free i) (hc : indCheck line s = some c) : exec i s = .next (s.raiseFault c (encode i) 0) := by
  rcases hi with rfl | rfl
  · simp only [exec, execIndOn, perform_free hf, hc]
  · simp only [exec, execIndOff, perform_free hf, hc]

/-- Settles O34: `indCheck` gives the first cause where the lines are not configured, the second only where they are. -/
theorem indicatorChecks : Obligations.IndicatorChecks := fun _ _ _ hi hf =>
  ⟨fun hcfg => exec_line_fault hi hf (indCheck_eq_some.2 (.inl ⟨rfl, hcfg⟩)),
    fun hcfg hl => exec_line_fault hi hf (indCheck_eq_some.2 (.inr ⟨rfl, hcfg, hl⟩))⟩

/-! ## The line write -/

/-- An operand of 0 to 3 names the line of that number (rules R93, R120). -/
theorem lineIdx_eq {line : BitVec 32} {k : LineIdx} (h : line.toNat = k.val) : lineIdx line = k :=
  Fin.ext ((congrArg (· % 4) h).trans (Nat.mod_eq_of_lt k.isLt))

/-- `IND_ON` (word `setWord`) and `IND_OFF` (word `clearWord`), admitted with their port clocked: one write of the word of the line's
pin, and `OK` (rules R127 to R129). -/
theorem perform_line {s : State} {i : Instr} {line : BitVec 32} {k : LineIdx} {word : Pin → Word} (hf : s.Free i) (hcfg : s.indCfg = true)
    (hk : line.toNat = k.val) (hc : s.per.rcc.gpioEn[s.cfg.indPort] = true) :
    perform i (indCheck line) (lineWrite line word) neverLater s = .next { s with
      trace := s.trace ++ [.wr (.bsrr s.cfg.indPort) (word s.cfg.indPin[k])]
      per := s.per.modifyGpio s.cfg.indPort fun g => { g with odr := bsrrEffect g.odr (word s.cfg.indPin[k]) }
      callers := s.callers.modify s.cur fun c => c.receive .ok } := by
  have hcheck : indCheck line s = none := indCheck_eq_none.2 ⟨hcfg, by omega⟩
  obtain ⟨t, ht⟩ := lineWrite_next (line := line) (word := word) hc
  obtain ⟨-, rfl⟩ := lineWrite_cases ht
  rw [perform_free hf, hcheck]
  simp only [ht, linePin, lineIdx_eq hk]

/-- The set word of pin `n` holds bit `n` only (rule R127). -/
theorem getLsbD_setWord (n : Pin) (i : Nat) : (setWord n).getLsbD i = decide (n.val = i) := by
  have hn := n.isLt
  rw [show setWord n = BitVec.twoPow 32 n.val from rfl, BitVec.getLsbD_twoPow, Bool.eq_iff_iff]
  simp only [Bool.and_eq_true, decide_eq_true_eq]
  omega

/-- The clear word of pin `n` holds bit `n + 16` only (rule R128). -/
theorem getLsbD_clearWord (n : Pin) (i : Nat) : (clearWord n).getLsbD i = decide (n.val + 16 = i) := by
  have hn := n.isLt
  rw [show clearWord n = BitVec.twoPow 32 (n.val + 16) from rfl, BitVec.getLsbD_twoPow, Bool.eq_iff_iff]
  simp only [Bool.and_eq_true, decide_eq_true_eq]
  omega

/-- The set word of pin `n` sets its level and keeps every other (rules R33, R127). -/
theorem bsrrEffect_setWord (odr : BitVec 16) (n : Pin) : bsrrEffect odr (setWord n) = odr ||| BitVec.twoPow 16 n.val := by
  apply BitVec.eq_of_getLsbD_eq
  intro i hi
  have hclear : n.val ≠ i + 16 := by omega
  rw [bsrrEffect_getLsbD odr _ hi, getLsbD_setWord, getLsbD_setWord, BitVec.getLsbD_or, BitVec.getLsbD_twoPow]
  by_cases h : n.val = i <;> simp [h, hi, hclear]

/-- The clear word of pin `n` clears its level and keeps every other (rules R33, R128). -/
theorem bsrrEffect_clearWord (odr : BitVec 16) (n : Pin) : bsrrEffect odr (clearWord n) = odr &&& ~~~BitVec.twoPow 16 n.val := by
  apply BitVec.eq_of_getLsbD_eq
  intro i hi
  have hset : n.val + 16 ≠ i := by omega
  rw [bsrrEffect_getLsbD odr _ hi, getLsbD_clearWord, getLsbD_clearWord, BitVec.getLsbD_and, BitVec.getLsbD_not, BitVec.getLsbD_twoPow]
  by_cases h : n.val = i <;> simp [h, hi, hset]

/-- Settles O31: `perform_line` with the word `setWord`, which sets one level. -/
theorem indOnWritesSetBit : Obligations.IndOnWritesSetBit := by
  refine ⟨fun line => ?_, fun s line k hf hcfg hk hc => ?_⟩
  · obtain ⟨hop, -, harg⟩ := Laws.OperandField.indOn line
    exact ⟨hop, harg⟩
  · refine (perform_line hf hcfg hk hc).trans ?_
    simp only [bsrrEffect_setWord]
    rfl

/-- Settles O32: `perform_line` with the word `clearWord`, which clears one level. -/
theorem indOffWritesClearBit : Obligations.IndOffWritesClearBit := by
  refine ⟨fun line => ?_, fun s line k hf hcfg hk hc => ?_⟩
  · obtain ⟨hop, -, harg⟩ := Laws.OperandField.indOff line
    exact ⟨hop, harg⟩
  · refine (perform_line hf hcfg hk hc).trans ?_
    simp only [bsrrEffect_clearWord]
    rfl

/-! ## The lines are independent -/

/-- Different lines have different pins (rule R9). -/
theorem indPin_ne {p : Params} (h : p.linesDistinct = true) {j k : LineIdx} (hjk : j ≠ k) : p.indPin[j] ≠ p.indPin[k] := by
  intro he
  have hnd : p.indPin.toList.Nodup := of_decide_eq_true h
  exact hjk (Fin.ext ((hnd.getElem_inj_iff (hi := by simp) (hj := by simp)).1 (by simpa using he)))

/-- A line after a write to the set/reset register of its port, by the two bits of its pin (rules R33, R121). -/
theorem lineOn_bsrr (s : State) (w : Word) (es : List Event) (cs : List Caller) (j : LineIdx) :
    State.lineOn { s with
      trace := es
      per := s.per.modifyGpio s.cfg.indPort fun g => { g with odr := bsrrEffect g.odr w }
      callers := cs } j =
    if w.getLsbD (s.cfg.indPin[j]).val then true else if w.getLsbD ((s.cfg.indPin[j]).val + 16) then false else s.lineOn j := by
  rw [State.lineOn, Periph.modifyGpio_self]
  exact bsrrEffect_getLsbD _ w (s.cfg.indPin[j]).isLt

/-- Settles O33: the word has one bit, of the line's own pin, and the other lines' pins are at other bits. -/
theorem linesAreIndependent : Obligations.LinesAreIndependent := by
  intro s line k j hd hk hjk hcfg hc
  have hpin : (s.cfg.indPin[k]).val ≠ (s.cfg.indPin[j]).val := fun he => indPin_ne hd hjk (Fin.ext he.symm)
  have hj := (s.cfg.indPin[j]).isLt
  have hkl := (s.cfg.indPin[k]).isLt
  refine ⟨fun hf => ⟨_, perform_line hf hcfg hk hc, ?_, ?_⟩, fun hf => ⟨_, perform_line hf hcfg hk hc, ?_, ?_⟩⟩ <;> rw [lineOn_bsrr]
  · rw [getLsbD_setWord, if_pos (by simp)]
  · rw [getLsbD_setWord, getLsbD_setWord, if_neg (by simpa using hpin), if_neg (by simp; omega)]
  · rw [getLsbD_clearWord, getLsbD_clearWord, if_neg (by simp), if_pos (by simp)]
  · rw [getLsbD_clearWord, getLsbD_clearWord, if_neg (by simp; omega), if_neg (by simpa using hpin)]

end Sys2Proof.Machine
end

section
/-! Proofs of the statements of `IND_INIT`: run to its end (rule R122), run again (rule R123), and what the three commands of the indicator
line driver leave unchanged. -/

namespace Sys2Proof.Machine

open Sys2Proof Sys2Proof.Config

/-! ## A run of field writes -/

/-- The peripheral fields after a list of field writes, in order (rule R63). -/
def Periph.setAll (per : Periph) (l : List (Field × Word)) : Periph := l.foldl (fun q x => q.set x.1 x.2) per

/-- The micro-steps of a list of field writes. -/
def fieldOps (l : List (Field × Word)) : List MicroOp := l.map fun x => .field x.1 x.2

/-- The trace entries of a list of field writes (rule R28). -/
def fieldEvents (l : List (Field × Word)) : List Event := l.map fun x => .w x.1 x.2

theorem Periph.setAll_cons (per : Periph) (x : Field × Word) (l : List (Field × Word)) :
    per.setAll (x :: l) = (per.set x.1 x.2).setAll l := rfl

theorem Periph.setAll_append (per : Periph) (l m : List (Field × Word)) : per.setAll (l ++ m) = (per.setAll l).setAll m :=
  List.foldl_append

theorem Periph.Grows.trans {a b c : Periph} (h : a.Grows b) (h' : b.Grows c) : a.Grows c :=
  ⟨fun p ha => h'.gpioEn p (h.gpioEn p ha), fun ha => h'.uartEn (h.uartEn ha), fun ha => h'.ue (h.ue ha), fun ha => h'.te (h.te ha),
    fun ha => h'.re (h.re ha), fun ha => h'.rxneie (h.rxneie ha)⟩

/-- A field stays clocked where the clock enables grow (rule R29). -/
theorem Periph.Grows.clocked {a b : Periph} (h : a.Grows b) {f : Field} (hf : a.clocked f = true) : b.clocked f = true := by
  cases f with
  | rccGpioEn p => rfl
  | rccUartEn => rfl
  | gpioMode p i => exact h.gpioEn p hf
  | gpioOtype p i => exact h.gpioEn p hf
  | gpioOdr p i => exact h.gpioEn p hf
  | gpioAf p i => exact h.gpioEn p hf
  | _ => exact h.uartEn hf

/-- A list of field writes that writes 1 to every enable keeps the enables (rules R29, R35). -/
theorem Periph.grows_setAll {per : Periph} {l : List (Field × Word)} (he : ∀ x ∈ l, x.1.isEnable = true → x.2 = 1) :
    per.Grows (per.setAll l) := by
  induction l generalizing per with
  | nil => exact .refl per
  | cons x l ih =>
    exact (Periph.grows_set (he x List.mem_cons_self)).trans (ih fun y hy => he y (List.mem_cons_of_mem x hy))

/-- A command run for `m + n` micro-steps runs for `m` and then for `n`. -/
theorem runCommand_add {m n : Nat} {i : Instr} {s t : State} (h : runCommand m i s = .next t) :
    runCommand (m + n) i s = runCommand n i t := by
  induction m generalizing s with
  | zero =>
    obtain rfl := Host.Outcome.next.inj h
    rw [Nat.zero_add]
  | succ m ih =>
    obtain ⟨u, hu, ht⟩ := andThen_eq_next.1 h
    rw [Nat.add_right_comm, runCommand_of_next hu, ih ht]

/-- The sequencer of an init in flight, standing at a list of clocked field writes with more micro-steps after them, performs them one after the
other (rules R24, R122, R162). -/
theorem runCommand_fieldOps {i : Instr} {cmd : InitCmd} {ops rest : List MicroOp} {finish : State → State} {l : List (Field × Word)}
    {s : State} {n : Nat} {d : Option (BitVec 16)}
    (hexec : ∀ u : State, u.cfg = s.cfg → u.Flying i .configuring → exec i u = seqStep i cmd ops finish u)
    (hf : s.Flying i .configuring) (hq : s.seq = some ⟨s.cur, cmd, n, d⟩) (ho : ops.drop n = fieldOps l ++ rest) (hr : rest ≠ [])
    (hc : ∀ x ∈ l, s.per.clocked x.1 = true) (he : ∀ x ∈ l, x.1.isEnable = true → x.2 = 1) :
    runCommand l.length i s = .next { s with
      seq := some ⟨s.cur, cmd, n + l.length, d⟩, trace := s.trace ++ fieldEvents l, per := s.per.setAll l } := by
  induction l generalizing s n with
  | nil =>
    simp only [List.length_nil, runCommand, fieldEvents, List.map_nil, List.append_nil, Nat.add_zero, ← hq]
    rfl
  | cons x l ih =>
    have hx : ops[n]? = some (.field x.1 x.2) := by
      rw [← List.head?_drop, ho]
      rfl
    have hd : ops.drop (n + 1) = fieldOps l ++ rest := by
      rw [← List.tail_drop, ho]
      rfl
    have hn : n + 1 < ops.length := by
      have hlen := congrArg List.length hd
      have hpos := List.length_pos_iff.2 hr
      simp only [List.length_drop, List.length_append] at hlen
      omega
    have hgrow : s.per.Grows (s.per.set x.1 x.2) := Periph.grows_set (he x List.mem_cons_self)
    have hstep := (hexec s rfl hf).trans (seqStep_field hq hx hn (hc x List.mem_cons_self))
    rw [List.length_cons, runCommand_of_next hstep]
    refine Eq.trans (ih (fun u hu => hexec u hu) hf rfl hd (fun y hy => ?clocked) fun y hy => ?enable) ?state
    case clocked => exact hgrow.clocked (hc y (List.mem_cons_of_mem x hy))
    case enable => exact he y (List.mem_cons_of_mem x hy)
    case state =>
      simp only [fieldEvents, List.map_cons, List.append_assoc, List.singleton_append, Periph.setAll_cons, Nat.add_assoc, Nat.add_comm 1]

/-- The sequencer of an init in flight, standing at the field writes that are its last micro-steps, performs them and ends the command (rules
R24, R122, R162). -/
theorem runCommand_fieldOps_end {i : Instr} {cmd : InitCmd} {ops : List MicroOp} {finish : State → State} {l : List (Field × Word)}
    {s : State} {n : Nat} {d : Option (BitVec 16)}
    (hexec : ∀ u : State, u.cfg = s.cfg → u.Flying i .configuring → exec i u = seqStep i cmd ops finish u)
    (hf : s.Flying i .configuring) (hq : s.seq = some ⟨s.cur, cmd, n, d⟩) (ho : ops.drop n = fieldOps l) (hl : l ≠ [])
    (hc : ∀ y ∈ l, s.per.clocked y.1 = true) (he : ∀ y ∈ l, y.1.isEnable = true → y.2 = 1) :
    runCommand l.length i s = .next ((finish { s with
      seq := none
      trace := s.trace ++ fieldEvents l
      per := s.per.setAll l }).leaveFlight.respond .ok) := by
  obtain ⟨m, x, rfl⟩ : ∃ m x, l = m ++ [x] := ⟨_, _, (List.dropLast_append_getLast hl).symm⟩
  have hm : ∀ y ∈ m, y ∈ m ++ [x] := fun y hy => List.mem_append_left [x] hy
  have hfirst := runCommand_fieldOps hexec hf hq (ho.trans List.map_append) (List.cons_ne_nil _ []) (fun y hy => hc y (hm y hy))
    fun y hy => he y (hm y hy)
  have hlen : n + m.length + 1 = ops.length := by
    have := congrArg List.length ho
    simp only [fieldOps, List.length_drop, List.length_map, List.length_append, List.length_singleton] at this
    omega
  have hx : ops[n + m.length]? = some (.field x.1 x.2) := by
    rw [← List.getElem?_drop, ho]
    simp [fieldOps]
  have hgrow : s.per.Grows (s.per.setAll m) := Periph.grows_setAll fun y hy => he y (hm y hy)
  have hlast := hgrow.clocked (hc x (by simp))
  rw [List.length_append, runCommand_add hfirst, List.length_singleton]
  refine Eq.trans (runCommand_of_next (Eq.trans (hexec _ rfl hf) (seqStep_last rfl hx hlen hlast))) ?_
  simp only [runCommand, fieldEvents, List.map_append, List.append_assoc, Periph.setAll_append]
  rfl

/-! ## `IND_INIT` run to its end -/

/-- The field writes of `IND_INIT` after the port's clock, in order (rule R122). -/
def indInitWrites (p : Params) : List (Field × Word) := (indInitTable p).tail.map Prod.snd

theorem mem_indInitWrites {p : Params} {x : Field × Word} (h : x ∈ indInitWrites p) : ∃ n, (n, x.1, x.2) ∈ indInitTable p := by
  obtain ⟨⟨n, y⟩, hy, rfl⟩ := List.mem_map.1 h
  exact ⟨n, List.mem_of_mem_tail hy⟩

theorem indInitOps_eq (p : Params) : indInitOps p = .field (.rccGpioEn p.indPort) 1 :: fieldOps (indInitWrites p) := rfl

theorem indInitTrace_eq (p : Params) : indInitTrace p = .w (.rccGpioEn p.indPort) 1 :: fieldEvents (indInitWrites p) := rfl

/-- With an init just gone into flight its caller has it in flight (rule R25). -/
theorem flightOf_insertFlight {s : State} (h : s.flightOf s.cur = none) (i : Instr) (ph : Phase) :
    (insertFlight ⟨s.cur, i, ph⟩ s.inflight).find? (fun f => f.caller == s.cur) = some ⟨s.cur, i, ph⟩ :=
  find_insertFlight ⟨s.cur, i, ph⟩ s.inflight (flightOf_eq_none.1 h)

/-- The micro-steps of `IND_INIT` after its first: its other field writes, and its end, with the set in flight as it was before the command
(rules R22, R25, R122). -/
theorem runCommand_indInit {s : State} (hf : s.Free .indInit) :
    runCommand (indInitWrites s.cfg).length.succ .indInit s = .next { s with
      indCfg := true
      seq := none
      trace := s.trace ++ indInitTrace s.cfg
      per := (s.per.set (.rccGpioEn s.cfg.indPort) 1).setAll (indInitWrites s.cfg)
      callers := s.callers.modify s.cur fun c => c.receive .ok } := by
  have ⟨hfault, hfree, _⟩ := hf
  have hset : (s.per.set (.rccGpioEn s.cfg.indPort) 1).rcc.gpioEn[s.cfg.indPort] = true := by
    rw [Periph.set_gpioEn, decide_eq_true rfl, Bool.true_or]
  rw [runCommand_of_next (indInitMicroSteps.1 s hf)]
  refine Eq.trans (runCommand_fieldOps_end (ops := indInitOps s.cfg) (n := 1) (fun u hu hfu => hu ▸ exec_indInit_flying hfu)
    ⟨hfault, flightOf_insertFlight hfree .indInit .configuring⟩ rfl ?ops (List.cons_ne_nil _ _) (fun x hx => ?clocked)
    fun x hx => ?enable) ?state
  case ops => rw [indInitOps_eq, List.drop_one, List.tail_cons]
  case clocked =>
    obtain ⟨n, hn⟩ := mem_indInitWrites hx
    exact indInitTable_clocked hn hset
  case enable =>
    obtain ⟨n, hn⟩ := mem_indInitWrites hx
    exact indInitTable_enable hn
  case state =>
    have hflight := filter_insertFlight ⟨s.cur, .indInit, .configuring⟩ s.inflight (flightOf_eq_none.1 hfree)
    simp only [State.leaveFlight, indInitFinish, State.respond, hflight, indInitTrace_eq, List.append_assoc, List.singleton_append]

/-! ## The peripherals after `IND_INIT` -/

/-- Two changes of one port are one. -/
theorem Periph.modifyGpio_modifyGpio (per : Periph) (p : Port) (f g : Gpio → Gpio) :
    (per.modifyGpio p f).modifyGpio p g = per.modifyGpio p fun x => g (f x) := by
  simp [Periph.modifyGpio]

/-- Mode OUT and type PP written to a pin (rules R30, R31, R63). -/
theorem Periph.set_output (per : Periph) (p : Port) (i : Pin) :
    (per.set (.gpioMode p i) 0b01).set (.gpioOtype p i) 0 = per.modifyGpio p fun g =>
      { g with mode := g.mode.set i.val .out i.isLt, otype := g.otype.set i.val .pp i.isLt } := by
  rw [Periph.set, Periph.set, Periph.modifyGpio_modifyGpio]
  rfl

/-- The nine writes set the port's clock and make the four pins push-pull outputs (rule R122). -/
theorem setAll_indInitWrites (p : Params) (per : Periph) :
    (per.set (.rccGpioEn p.indPort) 1).setAll (indInitWrites p) = indInitPeriph p per := by
  simp only [indInitWrites, indInitTable, List.tail_cons, List.map_cons, List.map_nil, Periph.setAll, List.foldl_cons, List.foldl_nil,
    Periph.set_output]
  rfl

/-- Settles O28: the nine micro-steps are the nine writes, whose end state is the rule's. -/
theorem indInitCompletes : Obligations.IndInitCompletes := by
  refine ⟨by decide, fun s hf => ?_⟩
  rw [← setAll_indInitWrites]
  exact runCommand_indInit hf

/-- The physical pins of the four lines (rule R120). -/
def linePins (p : Params) : List Pin := [p.indPin[0], p.indPin[1], p.indPin[2], p.indPin[3]]

theorem mem_linePins {p : Params} {i : Pin} : i ∈ linePins p ↔ ∃ k : LineIdx, p.indPin[k] = i := by
  simp [linePins, Fin.exists_fin_succ, eq_comm]

/-- The entries of a list of pins set to one value. -/
def setPins {α : Type} (l : List Pin) (x : α) (v : Vector α 16) : Vector α 16 := l.foldl (fun v i => v.set i.val x i.isLt) v

/-- An entry set at another pin is as it was. -/
theorem getElem_set_pin_ne {α : Type} (v : Vector α 16) (x : α) {i j : Pin} (h : i ≠ j) : (v.set i.val x i.isLt)[j] = v[j] :=
  Vector.getElem_set_ne i.isLt j.isLt fun e => h (Fin.ext e)

/-- The pins of the list hold the value, every other pin what it held. -/
theorem getElem_setPins {α : Type} (l : List Pin) (x : α) (v : Vector α 16) (i : Pin) :
    (setPins l x v)[i] = if i ∈ l then x else v[i] := by
  induction l generalizing v with
  | nil => rfl
  | cons j l ih =>
    rw [show setPins (j :: l) x v = setPins l x (v.set j.val x j.isLt) from rfl, ih]
    by_cases hj : i = j
    · simp [hj]
    · simp [hj, getElem_set_pin_ne v x (Ne.symm hj)]

/-- Setting pins to a value a second time changes nothing. -/
theorem setPins_setPins {α : Type} (l : List Pin) (x : α) (v : Vector α 16) : setPins l x (setPins l x v) = setPins l x v := by
  have hpin (i : Pin) : (setPins l x (setPins l x v))[i] = (setPins l x v)[i] := by
    rw [getElem_setPins, getElem_setPins]
    split_ifs <;> rfl
  exact Vector.ext fun i hi => hpin ⟨i, hi⟩

/-- `IND_INIT` sets the port's clock, and of the port the modes and types of the lines' pins (rule R122). -/
theorem indInitPeriph_eq (p : Params) (per : Periph) : indInitPeriph p per =
    Periph.modifyGpio { per with rcc := { per.rcc with gpioEn := per.rcc.gpioEn.set p.indPort.val true p.indPort.isLt } } p.indPort
      fun g => { g with mode := setPins (linePins p) .out g.mode, otype := setPins (linePins p) .pp g.otype } := by
  simp only [indInitPeriph, Periph.modifyGpio_modifyGpio]
  rfl

theorem indInitPeriph_gpio_self (p : Params) (per : Periph) : (indInitPeriph p per).gpio[p.indPort] =
    { per.gpio[p.indPort] with
      mode := setPins (linePins p) .out per.gpio[p.indPort].mode
      otype := setPins (linePins p) .pp per.gpio[p.indPort].otype } := by
  rw [indInitPeriph_eq, Periph.modifyGpio_self]

theorem indInitPeriph_gpio_ne (p : Params) (per : Periph) {q : Port} (hq : q ≠ p.indPort) :
    (indInitPeriph p per).gpio[q] = per.gpio[q] := by
  rw [indInitPeriph_eq, Periph.modifyGpio_ne _ _ _ _ hq.symm]

/-- A repeated `IND_INIT` changes no field (rule R123). -/
theorem indInitPeriph_idem (p : Params) (per : Periph) : indInitPeriph p (indInitPeriph p per) = indInitPeriph p per := by
  simp [indInitPeriph_eq, Periph.modifyGpio, setPins_setPins]

/-! ## The corner cases of `IND_INIT` -/

/-- The serial pins are of another port than the lines', or no line's pin (rule R9). -/
theorem pinsApart_iff {p : Params} : p.pinsApart = true ↔
    p.indPort ≠ p.serPort ∨ (∀ k : LineIdx, p.indPin[k] ≠ p.txPin) ∧ ∀ k : LineIdx, p.indPin[k] ≠ p.rxPin := by
  simp [Params.pinsApart, Vector.mem_iff_getElem, Fin.forall_iff]

/-- `IND_INIT` leaves the mode and the type of a pin that is no line's (rule R123). -/
theorem indInitPeriph_otherPin {p : Params} {i : Pin} (hi : ∀ k : LineIdx, p.indPin[k] ≠ i) (per : Periph) :
    (indInitPeriph p per).gpio[p.indPort].mode[i] = per.gpio[p.indPort].mode[i] ∧
      (indInitPeriph p per).gpio[p.indPort].otype[i] = per.gpio[p.indPort].otype[i] := by
  have hmem : i ∉ linePins p := fun h => (mem_linePins.1 h).elim hi
  simp only [indInitPeriph_gpio_self, getElem_setPins, if_neg hmem, and_self]

/-- Settles O30: the first run ends as `indInitPeriph` says, and from its end state, where the caller is free again, so does the second. -/
theorem indInitCornerCases : Obligations.IndInitCornerCases := by
  intro s hf
  refine ⟨_, _, indInitCompletes.2 s hf, indInitCompletes.2 _ hf, ⟨rfl, rfl, indInitPeriph_idem _ _, rfl, rfl, rfl⟩, fun q => ?levels,
    fun k => ?lines, fun i hi => indInitPeriph_otherPin hi s.per, fun q hq => indInitPeriph_gpio_ne _ _ hq, fun hap => ?serial⟩
  case levels =>
    by_cases hq : q = s.cfg.indPort
    · subst hq
      simp only [indInitPeriph_gpio_self, and_self]
    · simp only [indInitPeriph_gpio_ne _ _ hq, and_self]
  case lines =>
    have hmem : s.cfg.indPin[k] ∈ linePins s.cfg := mem_linePins.2 ⟨k, rfl⟩
    simp only [State.lineOn, indInitPeriph_gpio_self, getElem_setPins, if_pos hmem, and_self]
  case serial =>
    by_cases hport : s.cfg.serPort = s.cfg.indPort
    · obtain ⟨htx, hrx⟩ := (pinsApart_iff.1 hap).resolve_left fun h => h hport.symm
      simp only [hport]
      exact ⟨(indInitPeriph_otherPin htx s.per).1, (indInitPeriph_otherPin hrx s.per).1⟩
    · simp only [indInitPeriph_gpio_ne _ _ hport, and_self]

/-! ## What the indicator commands leave unchanged -/

/-- `b` is `a` but for the clock, modes, types and levels of the indicator port (rules R122, R127, R128). -/
structure Periph.IndicatorFrame (p : Params) (a b : Periph) : Prop where
  rest       : b = { a with rcc := { a.rcc with gpioEn := b.rcc.gpioEn }, gpio := b.gpio }
  otherPorts : ∀ q : Port, q ≠ p.indPort → b.rcc.gpioEn[q] = a.rcc.gpioEn[q] ∧ b.gpio[q] = a.gpio[q]
  af         : b.gpio[p.indPort].af = a.gpio[p.indPort].af

/-- The frame of `IND_INIT`: levels stay, and every pin that is no line's (rule R123). -/
structure Periph.IndInitFrame (p : Params) (a b : Periph) : Prop extends Periph.IndicatorFrame p a b where
  odr       : b.gpio[p.indPort].odr = a.gpio[p.indPort].odr
  otherPins : ∀ i : Pin, (∀ k : LineIdx, p.indPin[k] ≠ i) →
    b.gpio[p.indPort].mode[i] = a.gpio[p.indPort].mode[i] ∧ b.gpio[p.indPort].otype[i] = a.gpio[p.indPort].otype[i]

/-- The frame of `IND_ON` and `IND_OFF`: clocks, modes and types stay (rule R129). -/
structure Periph.LineFrame (p : Params) (a b : Periph) : Prop extends Periph.IndicatorFrame p a b where
  rcc   : b.rcc = a.rcc
  mode  : b.gpio[p.indPort].mode = a.gpio[p.indPort].mode
  otype : b.gpio[p.indPort].otype = a.gpio[p.indPort].otype

theorem Periph.IndicatorFrame.refl (p : Params) (a : Periph) : a.IndicatorFrame p a := ⟨rfl, fun _ _ => ⟨rfl, rfl⟩, rfl⟩

theorem Periph.IndicatorFrame.other {p : Params} {a b : Periph} (h : a.IndicatorFrame p b) : b.other = a.other := by
  rw [h.rest]

theorem Periph.IndInitFrame.refl (p : Params) (a : Periph) : a.IndInitFrame p a := ⟨.refl p a, rfl, fun _ _ => ⟨rfl, rfl⟩⟩

theorem Periph.LineFrame.refl (p : Params) (a : Periph) : a.LineFrame p a := ⟨.refl p a, rfl, rfl, rfl⟩

/-- A change of the indicator port that keeps its alternate functions is within the frame. -/
theorem Periph.indicatorFrame_modifyGpio (p : Params) (a : Periph) {f : Gpio → Gpio} (hf : ∀ g, (f g).af = g.af) :
    a.IndicatorFrame p (a.modifyGpio p.indPort f) where
  rest := rfl
  otherPorts q hq := ⟨rfl, Periph.modifyGpio_ne a _ q f hq.symm⟩
  af := by rw [Periph.modifyGpio_self, hf]

/-- A row of `IND_INIT` is of the port's clock, or of the mode or the type of a line's pin (rule R122). -/
theorem indInitTable_field {p : Params} {n : Nat} {f : Field} {v : Word} (h : (n, f, v) ∈ indInitTable p) :
    f = .rccGpioEn p.indPort ∨ ∃ k : LineIdx, f = .gpioMode p.indPort p.indPin[k] ∨ f = .gpioOtype p.indPort p.indPin[k] := by
  simp only [indInitTable, List.mem_cons, Prod.mk.injEq, List.not_mem_nil, or_false] at h
  rcases h with ⟨-, hf, -⟩ | ⟨-, hf, -⟩ | ⟨-, hf, -⟩ | ⟨-, hf, -⟩ | ⟨-, hf, -⟩ | ⟨-, hf, -⟩ | ⟨-, hf, -⟩ | ⟨-, hf, -⟩ | ⟨-, hf, -⟩
  · exact .inl hf
  · exact .inr ⟨0, .inl hf⟩
  · exact .inr ⟨0, .inr hf⟩
  · exact .inr ⟨1, .inl hf⟩
  · exact .inr ⟨1, .inr hf⟩
  · exact .inr ⟨2, .inl hf⟩
  · exact .inr ⟨2, .inr hf⟩
  · exact .inr ⟨3, .inl hf⟩
  · exact .inr ⟨3, .inr hf⟩

/-- Every write of `IND_INIT` is within its frame. -/
theorem indInitFrame_set {p : Params} {n : Nat} {f : Field} {v : Word} (h : (n, f, v) ∈ indInitTable p) (a : Periph) :
    a.IndInitFrame p (a.set f v) := by
  rcases indInitTable_field h with rfl | ⟨k, rfl | rfl⟩
  · exact ⟨⟨rfl, fun q hq => ⟨getElem_set_pin_ne _ _ hq.symm, rfl⟩, rfl⟩, rfl, fun _ _ => ⟨rfl, rfl⟩⟩
  · rw [Periph.set]
    refine ⟨Periph.indicatorFrame_modifyGpio p a fun _ => rfl, by rw [Periph.modifyGpio_self], fun i hi => ?_⟩
    rw [Periph.modifyGpio_self]
    exact ⟨getElem_set_pin_ne _ _ (hi k), rfl⟩
  · rw [Periph.set]
    refine ⟨Periph.indicatorFrame_modifyGpio p a fun _ => rfl, by rw [Periph.modifyGpio_self], fun i hi => ?_⟩
    rw [Periph.modifyGpio_self]
    exact ⟨rfl, getElem_set_pin_ne _ _ (hi k)⟩

/-- A write of the port's levels is within the frame of the line commands. -/
theorem lineFrame_bsrr (p : Params) (a : Periph) (w : Word) :
    a.LineFrame p (a.modifyGpio p.indPort fun g => { g with odr := bsrrEffect g.odr w }) where
  toIndicatorFrame := Periph.indicatorFrame_modifyGpio p a fun _ => rfl
  rcc := rfl
  mode := by rw [Periph.modifyGpio_self]
  otype := by rw [Periph.modifyGpio_self]

/-- What `IND_ON` and `IND_OFF` can do: nothing once faulted; a fault; one write of the port's levels and `OK` (rules R126 to R129). -/
theorem exec_line_cases {i : Instr} {line : BitVec 32} {s t : State} (hi : i = .indOn line ∨ i = .indOff line)
    (h : exec i s = .next t) : t = s ∨ (∃ c, t = s.raiseFault c (encode i) 0) ∨ ∃ w, t = { s with
      trace := s.trace ++ [.wr (.bsrr s.cfg.indPort) w]
      per := s.per.modifyGpio s.cfg.indPort fun g => { g with odr := bsrrEffect g.odr w }
      callers := s.callers.modify s.cur fun c => c.receive .ok } := by
  rcases hi with rfl | rfl
  · rcases exec_indOn_cases h with ⟨-, ht⟩ | ⟨-, -, -, ht⟩ | ⟨-, c, -, ht⟩ | ⟨-, -, -, -, ht⟩
    · exact .inl ht
    · exact .inr (.inl ⟨_, ht⟩)
    · exact .inr (.inl ⟨c, ht⟩)
    · exact .inr (.inr ⟨_, ht⟩)
  · rcases exec_indOff_cases h with ⟨-, ht⟩ | ⟨-, -, -, ht⟩ | ⟨-, c, -, ht⟩ | ⟨-, -, -, -, ht⟩
    · exact .inl ht
    · exact .inr (.inl ⟨_, ht⟩)
    · exact .inr (.inl ⟨c, ht⟩)
    · exact .inr (.inr ⟨_, ht⟩)

/-- What the three commands may change of the machine. -/
theorem exec_indicator_changes {i : Instr} {s t : State} (hi : i = .indInit ∨ ∃ l, i = .indOn l ∨ i = .indOff l)
    (h : exec i s = .next t) : t = { s with
      indCfg := t.indCfg, seq := t.seq, inflight := t.inflight, fault := t.fault, faultInfo := t.faultInfo
      trace := t.trace, callers := t.callers, per := t.per } := by
  rcases hi with rfl | ⟨line, hi⟩
  · rcases exec_indInit_cases h with ⟨-, rfl⟩ | ⟨-, -, -, rfl⟩ | ⟨-, rfl⟩ | ⟨-, n, d, f, v, -, -, -, ⟨-, rfl⟩ | ⟨-, rfl⟩⟩ <;> rfl
  · rcases exec_line_cases hi h with rfl | ⟨c, rfl⟩ | ⟨w, rfl⟩ <;> rfl

/-- A micro-step of `IND_INIT` changes nothing of the peripherals, or performs a row of its table (rule R122). -/
theorem exec_indInit_frame {s t : State} (h : exec .indInit s = .next t) : s.per.IndInitFrame s.cfg t.per := by
  rcases exec_indInit_cases h with ⟨-, rfl⟩ | ⟨-, -, -, rfl⟩ | ⟨-, rfl⟩ | ⟨-, n, d, f, v, -, hm, -, ⟨-, rfl⟩ | ⟨-, rfl⟩⟩
  · exact .refl _ _
  · exact .refl _ _
  · exact indInitFrame_set (n := 1) (v := 1) List.mem_cons_self s.per
  · exact indInitFrame_set hm s.per
  · exact indInitFrame_set hm s.per

/-- `IND_ON` and `IND_OFF` change nothing of the peripherals, or write the port's levels; they are never in flight (rules R25, R129). -/
theorem exec_line_frame {i : Instr} {line : BitVec 32} {s t : State} (hi : i = .indOn line ∨ i = .indOff line)
    (h : exec i s = .next t) : s.per.LineFrame s.cfg t.per ∧ t.indCfg = s.indCfg ∧ t.seq = s.seq ∧ t.inflight = s.inflight := by
  rcases exec_line_cases hi h with rfl | ⟨c, rfl⟩ | ⟨w, rfl⟩
  · exact ⟨.refl _ _, rfl, rfl, rfl⟩
  · exact ⟨.refl _ _, rfl, rfl, rfl⟩
  · exact ⟨lineFrame_bsrr _ _ w, rfl, rfl, rfl⟩

/-- A command gives its response to its own caller only (rule R98). -/
theorem exec_otherCallers {i : Instr} {s t : State} (h : exec i s = .next t) {k : Nat} (hk : k ≠ s.cur) :
    t.callers[k]? = s.callers[k]? := by
  rcases exec_responds h with hc | ⟨r, -, hc⟩ <;> rw [hc]
  rw [List.getElem?_modify_ne _ _ hk.symm]

/-- Settles O35: what the three may change at all, then `IND_INIT` within its frame and the two line commands within theirs. -/
theorem indicatorFrame : Obligations.IndicatorFrame := by
  intro s t i hi h
  have hstate := exec_indicator_changes hi h
  have hcallers (k : Nat) (hk : k ≠ s.cur) : t.callers[k]? = s.callers[k]? := exec_otherCallers h hk
  rcases hi with rfl | ⟨line, hi⟩
  · have hper := exec_indInit_frame h
    exact ⟨by rwa [← hper.rest], fun a => by rw [hper.other], hper.otherPorts, hper.af, hcallers, fun _ => ⟨hper.odr, hper.otherPins⟩,
      fun hne => absurd rfl hne⟩
  · have hne : i ≠ .indInit := by rcases hi with rfl | rfl <;> exact nofun
    obtain ⟨hper, hcfg, hseq, hinflight⟩ := exec_line_frame hi h
    exact ⟨by rwa [← hper.rest], fun a => by rw [hper.other], hper.otherPorts, hper.af, hcallers, fun he => absurd he hne,
      fun _ => ⟨hcfg, hseq, hinflight, hper.rcc, hper.mode, hper.otype⟩⟩

end Sys2Proof.Machine
end

section
/-! Proofs of the statements of the divisor calculator (rules R140 to R149) and of its two micro-steps in `SER_INIT` (rules R143, R146, R152,
R162, R163). -/

namespace Sys2Proof.Machine

open Sys2Proof Sys2Proof.Config

/-! ## Rounding to nearest -/

/-- The rounded quotient by its remainder: above the half, below it, or the tie (rule R144). -/
theorem roundDiv_cases (rule : TieRule) (pclk baud : Nat) :
    (baud < 2 * (pclk % baud) ∧ roundDiv rule pclk baud = pclk / baud + 1) ∨
    (2 * (pclk % baud) < baud ∧ roundDiv rule pclk baud = pclk / baud) ∨
    (2 * (pclk % baud) = baud ∧ roundDiv rule pclk baud = roundTie rule (pclk / baud)) := by
  simp only [roundDiv]
  split_ifs with habove hbelow
  · exact .inl ⟨habove, rfl⟩
  · exact .inr (.inl ⟨hbelow, rfl⟩)
  · exact .inr (.inr ⟨by omega, rfl⟩)

/-- A tie goes to one of the two neighbours (rule R142). -/
theorem roundTie_eq_or (rule : TieRule) (q : Nat) : roundTie rule q = q ∨ roundTie rule q = q + 1 := by
  cases rule with
  | up => exact .inr rfl
  | down => exact .inl rfl
  | even =>
    simp only [roundTie]
    omega

theorem roundTie_even (q : Nat) : roundTie .even q = if q % 2 = 0 then q else q + 1 := by
  simp only [roundTie]
  split_ifs <;> omega

/-- The rounded quotient is within one half of the quotient, under every tie rule (rule R142). -/
theorem roundDiv_within_half (rule : TieRule) {pclk baud : Nat} (hb : 0 < baud) :
    2 * pclk ≤ (2 * roundDiv rule pclk baud + 1) * baud ∧ 2 * roundDiv rule pclk baud * baud ≤ 2 * pclk + baud := by
  have hr : pclk % baud < baud := Nat.mod_lt pclk hb
  have hdiv : pclk / baud * baud + pclk % baud = pclk := Nat.div_add_mod' pclk baud
  rcases roundDiv_cases rule pclk baud with ⟨hhalf, hn⟩ | ⟨hhalf, hn⟩ | ⟨hhalf, hn⟩
  · simp only [hn, Nat.add_mul, Nat.mul_assoc]
    omega
  · simp only [hn, Nat.add_mul, Nat.mul_assoc]
    omega
  · rcases roundTie_eq_or rule (pclk / baud) with ht | ht <;> simp only [hn, ht, Nat.add_mul, Nat.mul_assoc] <;> omega

/-- Where the quotient is `q + 1/2`, the rounded quotient is the tie rule's (rules R142, R144). -/
theorem roundDiv_tie (rule : TieRule) {pclk baud q : Nat} (hb : 0 < baud) (h : 2 * pclk = (2 * q + 1) * baud) :
    roundDiv rule pclk baud = roundTie rule q := by
  rw [Nat.add_mul, Nat.mul_assoc, Nat.one_mul] at h
  have hq : pclk / baud = q := Nat.div_eq_of_lt_le (by omega) (by rw [Nat.succ_mul]; omega)
  have hr : 2 * (pclk % baud) = baud := by
    have hdiv : pclk / baud * baud + pclk % baud = pclk := Nat.div_add_mod' pclk baud
    rw [hq] at hdiv
    omega
  rcases roundDiv_cases rule pclk baud with ⟨hhalf, -⟩ | ⟨hhalf, -⟩ | ⟨-, hn⟩
  · omega
  · omega
  · rw [hn, hq]

/-- The rounded quotient is at most `m` exactly where the quotient is below `m + 1/2`, or is `m + 1/2` and the tie rule goes down to `m`. -/
theorem roundDiv_le_iff (rule : TieRule) {pclk baud : Nat} (hb : 0 < baud) (m : Nat) :
    roundDiv rule pclk baud ≤ m ↔ 2 * pclk < (2 * m + 1) * baud ∨ 2 * pclk = (2 * m + 1) * baud ∧ roundTie rule m = m := by
  obtain ⟨hlow, hhigh⟩ := roundDiv_within_half rule (pclk := pclk) hb
  rcases lt_trichotomy (2 * pclk) ((2 * m + 1) * baud) with hlt | heq | hgt
  · have hle : roundDiv rule pclk baud ≤ m := by
      by_contra hgt
      nlinarith
    exact ⟨fun _ => .inl hlt, fun _ => hle⟩
  · rw [roundDiv_tie rule hb heq]
    rcases roundTie_eq_or rule m with ht | ht <;> simp [ht, heq]
  · have hlt : m < roundDiv rule pclk baud := by
      by_contra hle
      nlinarith
    omega

theorem roundDiv_up_le_iff {pclk baud : Nat} (hb : 0 < baud) (m : Nat) :
    roundDiv .up pclk baud ≤ m ↔ 2 * pclk < (2 * m + 1) * baud := by
  simp [roundDiv_le_iff .up hb, roundTie]

theorem roundDiv_down_le_iff {pclk baud : Nat} (hb : 0 < baud) (m : Nat) :
    roundDiv .down pclk baud ≤ m ↔ 2 * pclk ≤ (2 * m + 1) * baud := by
  simp [roundDiv_le_iff .down hb, roundTie, le_iff_lt_or_eq]

theorem roundDiv_even_le_iff {pclk baud : Nat} (hb : 0 < baud) {m : Nat} (hm : m % 2 = 1) :
    roundDiv .even pclk baud ≤ m ↔ 2 * pclk < (2 * m + 1) * baud := by
  simp [roundDiv_le_iff .even hb, roundTie, hm]

/-- Settles O36: within one half in every case of the remainder, and the tie of each rule. -/
theorem divisorRoundsToNearest : Obligations.DivisorRoundsToNearest := by
  refine ⟨rfl, fun rule pclk baud hb => ⟨roundDiv_within_half rule hb, fun q h => ?_⟩⟩
  rw [roundDiv_tie rule hb h]
  cases rule with
  | up => rfl
  | down => rfl
  | even => exact roundTie_even q

/-- Settles O37: the two are at most the same numbers. -/
theorem divisorFormulaTiesUp : Obligations.DivisorFormulaTiesUp := by
  refine fun pclk baud hb => eq_of_forall_ge_iff fun m => ?_
  rw [roundDiv_up_le_iff hb, ← Order.lt_add_one_iff, Nat.div_lt_iff_lt_mul hb, Nat.add_mul, Nat.add_mul, Nat.one_mul,
    Nat.mul_assoc]
  omega

/-! ## The range check and the split -/

theorem brrCalc_zero (rule : TieRule) (pclk : BitVec 32) : brrCalc rule pclk 0 = .err .baudZero := if_pos rfl

theorem brrCalc_overflow {rule : TieRule} {pclk baud : BitVec 32} (hb : baud ≠ 0) (hn : roundDiv rule pclk.toNat baud.toNat > 0xFFFF) :
    brrCalc rule pclk baud = .err .baudOverflow := by
  rw [brrCalc, if_neg hb]
  exact if_pos hn

/-- The result is `Ok(D)` exactly where the rounded quotient is `D` (rule R145). -/
theorem brrCalc_eq_ok_iff {rule : TieRule} {pclk baud : BitVec 32} (hb : baud ≠ 0) {D : BitVec 16} :
    brrCalc rule pclk baud = .ok D ↔ roundDiv rule pclk.toNat baud.toNat = D.toNat := by
  rw [brrCalc, if_neg hb]
  dsimp only
  split_ifs with hn
  · have hD : D.toNat < 2 ^ 16 := D.isLt
    exact ⟨nofun, fun h => by omega⟩
  · rw [BrrResult.ok.injEq, ← BitVec.toNat_inj, BitVec.toNat_ofNat, Nat.mod_eq_of_lt (by omega)]

theorem exists_brrCalc_eq_ok_iff {rule : TieRule} {pclk baud : BitVec 32} (hb : baud ≠ 0) :
    (∃ D, brrCalc rule pclk baud = .ok D) ↔ roundDiv rule pclk.toNat baud.toNat ≤ 0xFFFF := by
  simp only [brrCalc_eq_ok_iff hb]
  refine ⟨fun ⟨D, hD⟩ => ?_, fun hn => ⟨BitVec.ofNat 16 (roundDiv rule pclk.toNat baud.toNat), ?_⟩⟩
  · have := D.isLt
    omega
  · rw [BitVec.toNat_ofNat, Nat.mod_eq_of_lt (by omega)]

theorem mantissa_toNat (d : BitVec 16) : (mantissa d).toNat = d.toNat >>> 4 := by
  have hd : d.toNat < 2 ^ 16 := d.isLt
  rw [mantissa, BitVec.extractLsb'_toNat, Nat.mod_eq_of_lt (by rw [Nat.shiftRight_eq_div_pow]; omega)]

theorem fraction_toNat (d : BitVec 16) : (fraction d).toNat = d.toNat &&& 0xF := by
  rw [fraction, BitVec.extractLsb'_toNat]
  exact (Nat.and_two_pow_sub_one_eq_mod d.toNat 4).symm

/-- Mantissa and fraction give the divisor back (rule R141). -/
theorem mantissa_fraction (d : BitVec 16) : (mantissa d).toNat * 16 + (fraction d).toNat = d.toNat := by
  rw [mantissa_toNat, fraction_toNat, Nat.shiftRight_eq_div_pow, Nat.and_two_pow_sub_one_eq_mod d.toNat 4]
  exact Nat.div_add_mod' d.toNat 16

/-- Settles O38: `D` is the rounded quotient, so the split of `D` is the split of the quotient. -/
theorem divisorRangeAndSplit : Obligations.DivisorRangeAndSplit := by
  refine ⟨brrCalc_zero, fun rule pclk baud hb => ⟨brrCalc_overflow hb, fun hn => ?_⟩⟩
  obtain ⟨D, hD⟩ := (exists_brrCalc_eq_ok_iff hb).2 hn
  rw [(brrCalc_eq_ok_iff hb).1 hD]
  exact ⟨D, hD, rfl, mantissa_toNat D, fraction_toNat D, mantissa_fraction D, BitVec.toNat_setWidth_of_le (by decide)⟩

/-- Settles O39: the last divisor is 65535, and a quotient of 65535.5 goes down to it only with ties down. -/
theorem divisorOverflowBoundary : Obligations.DivisorOverflowBoundary := by
  refine ⟨fun pclk baud hb => ?boundary, by decide, by decide, by decide, by decide, fun baud h => ?smallest⟩
  case boundary =>
    have hpos := BitVec.toNat_pos_of_ne_zero hb
    simp only [exists_brrCalc_eq_ok_iff hb]
    exact ⟨roundDiv_up_le_iff hpos 0xFFFF, roundDiv_down_le_iff hpos 0xFFFF, roundDiv_even_le_iff hpos rfl⟩
  case smallest =>
    by_cases hb : baud = 0
    · rw [hb, brrCalc_zero] at h
      exact h.elim nofun
    · rw [exists_brrCalc_eq_ok_iff hb, roundDiv_up_le_iff (BitVec.toNat_pos_of_ne_zero hb)] at h
      have hclock : (42000000 : BitVec 32).toNat = 42000000 := rfl
      omega

/-- Settles O40: a divisor of 0 is a quotient below one half, and a divisor below 16 has no bit above its fraction. -/
theorem smallDivisorsAccepted : Obligations.SmallDivisorsAccepted := by
  refine ⟨fun pclk baud hb => ?zero, fun rule pclk baud hb hn => ?small⟩
  case zero =>
    rw [brrCalc_eq_ok_iff hb, BitVec.ofNat_eq_ofNat, BitVec.toNat_ofNat, Nat.zero_mod, ← Nat.le_zero,
      roundDiv_up_le_iff (BitVec.toNat_pos_of_ne_zero hb)]
    omega
  case small =>
    obtain ⟨D, hD⟩ := (exists_brrCalc_eq_ok_iff hb).2 (hn.le.trans (by decide))
    rw [(brrCalc_eq_ok_iff hb).1 hD] at hn
    refine ⟨D, hD, hn, BitVec.eq_of_toNat_eq ?_⟩
    rw [mantissa_toNat, Nat.shiftRight_eq_div_pow]
    exact Nat.div_eq_of_lt hn

/-! ## The micro-steps of `SER_INIT` -/

/-- The first `exec` puts the command in flight and sets the UART's clock (rules R25, R162). -/
theorem exec_serInit_first {s : State} {baud : BitVec 32} (hf : s.Free (.serInit baud)) :
    exec (.serInit baud) s = .next { s with
      inflight := insertFlight ⟨s.cur, .serInit baud, .configuring⟩ s.inflight
      seq := some ⟨s.cur, .serInit, 1, none⟩
      trace := s.trace ++ [.w .rccUartEn 1]
      per := s.per.set .rccUartEn 1 } := by
  rw [exec_serInit_free hf]
  exact seqStep_field (n := 0) (d := none) rfl rfl (by rw [serInitOps_length]; decide) rfl

/-- An `exec` at a field write before the last (rule R162). -/
theorem exec_serInit_row {s : State} {baud : BitVec 32} {n : Nat} {d : Option (BitVec 16)} {f : Field} {v : Word}
    (hf : s.Flying (.serInit baud) .configuring) (hq : s.seq = some ⟨s.cur, .serInit, n, d⟩)
    (hm : (n + 1, f, v) ∈ serInitTable s.cfg) (hc : s.per.clocked f = true) (hn : n + 1 < 18) :
    exec (.serInit baud) s = .next { s with
      seq := some ⟨s.cur, .serInit, n + 1, d⟩, trace := s.trace ++ [.w f v], per := s.per.set f v } := by
  rw [exec_serInit_flying hf]
  exact seqStep_field hq (serInitTable_get hm) (by rwa [serInitOps_length]) hc

/-- Settles O43: the sequencer at its first micro-step, at a field write, at the calculation, at the divisor's write and at its last. -/
theorem serInitMicroSteps : Obligations.SerInitMicroSteps := by
  refine ⟨fun s baud hf => exec_serInit_first hf, fun s baud n d hf hq => ⟨fun f v hm hc hn => exec_serInit_row hf hq hm hc hn,
    fun hn D hD => ?latch, fun hn D hd hu => ?store, fun hn hu => ?last⟩⟩ <;> rw [exec_serInit_flying hf]
  case latch =>
    obtain rfl : n = 12 := Nat.succ.inj hn
    exact seqStep_calc hq rfl (by rw [serInitOps_length]; decide) hD
  case store =>
    obtain rfl : n = 13 := Nat.succ.inj hn
    subst hd
    exact seqStep_store hq rfl (by rw [serInitOps_length]; decide) hu
  case last =>
    obtain rfl : n = 17 := Nat.succ.inj hn
    exact seqStep_last hq rfl (serInitOps_length s.cfg baud).symm hu

/-! ## `SER_INIT` up to its calculation -/

/-- The field writes of micro-steps 3 to 12 of `SER_INIT`, in order: those that need the port's clock or the UART's (rule R162). -/
def serInitFrameWrites (p : Params) : List (Field × Word) := (((serInitTable p).take 12).drop 2).map Prod.snd

theorem mem_serInitFrameWrites {p : Params} {x : Field × Word} (h : x ∈ serInitFrameWrites p) : ∃ n, (n, x.1, x.2) ∈ serInitTable p := by
  obtain ⟨⟨n, y⟩, hy, rfl⟩ := List.mem_map.1 h
  exact ⟨n, List.mem_of_mem_take (List.mem_of_mem_drop hy)⟩

theorem serInitOps_drop_two (p : Params) (baud : BitVec 32) :
    (serInitOps p baud).drop 2 = fieldOps (serInitFrameWrites p) ++ (serInitOps p baud).drop 12 := rfl

theorem serInitFrameTrace_eq (p : Params) :
    serInitFrameTrace p = .w .rccUartEn 1 :: .w (.rccGpioEn p.serPort) 1 :: fieldEvents (serInitFrameWrites p) := rfl

/-- The twelve writes set the two clocks, give the two pins to the UART and set its frame (rules R162, R163). -/
theorem setAll_serInitFrameWrites (p : Params) (per : Periph) :
    ((per.set .rccUartEn 1).set (.rccGpioEn p.serPort) 1).setAll (serInitFrameWrites p) = serInitFrame p per := by
  simp only [serInitFrameWrites, serInitTable, List.take_succ_cons, List.take_zero, List.drop_succ_cons, List.drop_zero, List.map_cons,
    List.map_nil, Periph.setAll, List.foldl_cons, List.foldl_nil, Periph.set, Periph.modifyGpio_modifyGpio]
  rfl

/-- Micro-steps 1 to 12 of `SER_INIT`: the clocks, the pins and the frame, with the command in flight at its calculation (rules R24, R25,
R162). -/
theorem runCommand_serInit_frame {s : State} {baud : BitVec 32} (hf : s.Free (.serInit baud)) :
    runCommand 12 (.serInit baud) s = .next { s with
      seq := some ⟨s.cur, .serInit, 12, none⟩
      inflight := insertFlight ⟨s.cur, .serInit baud, .configuring⟩ s.inflight
      trace := s.trace ++ serInitFrameTrace s.cfg
      per := serInitFrame s.cfg s.per } := by
  have ⟨hfault, hfree, _⟩ := hf
  have hflying := flightOf_insertFlight hfree (.serInit baud) .configuring
  have hclock : ((s.per.set .rccUartEn 1).set (.rccGpioEn s.cfg.serPort) 1).rcc.gpioEn[s.cfg.serPort] = true := by
    rw [Periph.set_gpioEn, decide_eq_true rfl, Bool.true_or]
  rw [runCommand_of_next (exec_serInit_first hf)]
  refine Eq.trans (runCommand_of_next (exec_serInit_row (n := 1) (f := .rccGpioEn s.cfg.serPort) (v := 1) ⟨hfault, hflying⟩ rfl
    (List.mem_cons_of_mem _ List.mem_cons_self) rfl (by decide))) ?_
  refine Eq.trans (runCommand_fieldOps (l := serInitFrameWrites s.cfg) (fun u hu hfu => hu ▸ exec_serInit_flying hfu) ⟨hfault, hflying⟩
    rfl (serInitOps_drop_two s.cfg baud) (List.cons_ne_nil _ _) (fun x hx => ?clocked) fun x hx => ?enable) ?state
  case clocked =>
    obtain ⟨n, hn⟩ := mem_serInitFrameWrites hx
    exact serInitTable_clocked hn rfl fun _ => hclock
  case enable =>
    obtain ⟨n, hn⟩ := mem_serInitFrameWrites hx
    exact serInitTable_enable hn
  case state =>
    simp only [setAll_serInitFrameWrites, serInitFrameTrace_eq, List.append_assoc, List.singleton_append]
    rfl

/-- Settles O42: twelve micro-steps, then the calculation raises the fault, after which no micro-step runs. -/
theorem serInitDivisorFault : Obligations.SerInitDivisorFault := by
  refine ⟨brrCalc_zero, fun _ _ _ hb hn => brrCalc_overflow hb hn, fun s baud c hf hc => ?_⟩
  have ⟨hfault, hfree, _⟩ := hf
  have hflying := flightOf_insertFlight hfree (.serInit baud) .configuring
  refine ⟨?run, exec_faulted (Option.some_ne_none c), rfl, rfl, rfl, rfl, rfl, rfl, rfl⟩
  case run =>
    rw [runCommand_add (n := 1) (runCommand_serInit_frame hf)]
    exact runCommand_of_next (Eq.trans (exec_serInit_flying ⟨hfault, hflying⟩) (seqStep_calc_err rfl rfl hc))

end Sys2Proof.Machine
end

section
/-! Every step keeps the order of the UART's enables behind its frame and baud writes (rules R162, R165, R278). -/

namespace Sys2Proof.Machine

open Sys2Proof Sys2Proof.Config

/-! ## The UART's configuration fields under the rows of `SER_INIT` -/

/-- After `n` micro-steps of `SER_INIT`, with `d` latched: each frame field and the divisor, once its micro-step is past, holds what it wrote (rule
R162). -/
def Uart.WrittenSoFar (u : Uart) (n : Nat) (d : Option (BitVec 16)) : Prop :=
  (7 ≤ n → u.m = false) ∧ (8 ≤ n → u.stop = 0) ∧ (9 ≤ n → u.pce = false) ∧ (10 ≤ n → u.over8 = false) ∧
    (11 ≤ n → u.rtse = false) ∧ (12 ≤ n → u.ctse = false) ∧ (14 ≤ n → d = some u.brr)

/-- Row `n` of `SER_INIT` sets its own field of the UART, and no other (rules R63, R162). -/
theorem serInitTable_uart {p : Params} {n : Nat} {f : Field} {v : Word} (h : (n, f, v) ∈ serInitTable p) (per : Periph) :
    n ≠ 14 ∧ (per.set f v).uart = { per.uart with
      m := if n = 7 then false else per.uart.m
      stop := if n = 8 then 0 else per.uart.stop
      pce := if n = 9 then false else per.uart.pce
      over8 := if n = 10 then false else per.uart.over8
      rtse := if n = 11 then false else per.uart.rtse
      ctse := if n = 12 then false else per.uart.ctse
      ue := if n = 15 then true else per.uart.ue
      te := if n = 16 then true else per.uart.te
      re := if n = 17 then true else per.uart.re
      rxneie := if n = 18 then true else per.uart.rxneie } := by
  simp only [serInitTable, List.mem_cons, Prod.mk.injEq, List.not_mem_nil, or_false] at h
  rcases h with ⟨rfl, rfl, rfl⟩ | ⟨rfl, rfl, rfl⟩ | ⟨rfl, rfl, rfl⟩ | ⟨rfl, rfl, rfl⟩ | ⟨rfl, rfl, rfl⟩ | ⟨rfl, rfl, rfl⟩ |
    ⟨rfl, rfl, rfl⟩ | ⟨rfl, rfl, rfl⟩ | ⟨rfl, rfl, rfl⟩ | ⟨rfl, rfl, rfl⟩ | ⟨rfl, rfl, rfl⟩ | ⟨rfl, rfl, rfl⟩ | ⟨rfl, rfl, rfl⟩ |
    ⟨rfl, rfl, rfl⟩ | ⟨rfl, rfl, rfl⟩ | ⟨rfl, rfl, rfl⟩ <;> exact ⟨by decide, rfl⟩

/-- A field that row `k` sets to `y` holds `y` after row `n + 1`, if it did after row `n` wherever row `k` was among the first `n`. -/
theorem written_succ {α : Type} {k n : Nat} {x y : α} (h : k ≤ n → x = y) (hk : k ≤ n + 1) : (if n + 1 = k then y else x) = y := by
  split
  · rfl
  · exact h (by omega)

/-- An enable set only after the one ahead of it stays so under their rows, row `k` and the row after it. -/
theorem enable_succ {k n : Nat} {a b : Bool} (hab : a = true → b = true) (hb : k ≤ n → b = true) :
    (if n + 1 = k + 1 then true else a) = true → (if n + 1 = k then true else b) = true := by
  split
  · exact fun _ => written_succ hb (by omega)
  · intro ha
    rw [hab ha, ite_self]

theorem Uart.WrittenSoFar.row {p : Params} {per : Periph} {n : Nat} {d : Option (BitVec 16)} {f : Field} {v : Word}
    (h : per.uart.WrittenSoFar n d) (hrow : (n + 1, f, v) ∈ serInitTable p) : (per.set f v).uart.WrittenSoFar (n + 1) d := by
  obtain ⟨h14, hu⟩ := serInitTable_uart hrow per
  obtain ⟨hm, hstop, hpce, hover8, hrtse, hctse, hbrr⟩ := h
  rw [hu]
  exact ⟨written_succ hm, written_succ hstop, written_succ hpce, written_succ hover8, written_succ hrtse, written_succ hctse,
    fun hn => hbrr (by omega)⟩

/-- With the whole frame written, the calculation and the divisor's write leave what is written so far (rules R152, R162). -/
theorem Uart.WrittenSoFar.divisor {u : Uart} {n m : Nat} {d e : Option (BitVec 16)} {x : BitVec 16} (h : u.WrittenSoFar n d)
    (hn : 12 ≤ n) (hx : 14 ≤ m → e = some x) : Uart.WrittenSoFar { u with brr := x } m e := by
  obtain ⟨hm, hstop, hpce, hover8, hrtse, hctse, -⟩ := h
  exact ⟨fun _ => hm (by omega), fun _ => hstop (by omega), fun _ => hpce (by omega), fun _ => hover8 (by omega),
    fun _ => hrtse (by omega), fun _ => hctse hn, hx⟩

/-- The whole-register write of a divisor sets `brr` to it (rules R37, R61). -/
theorem Periph.set_brr (per : Periph) (D : BitVec 16) :
    per.set .uartBrr (D.setWidth 32) = { per with uart := { per.uart with brr := D } } := by
  have hD : (D.setWidth 32).extractLsb' 0 16 = D := BitVec.eq_of_toNat_eq (by simpa using D.isLt)
  rw [Periph.set, hD]

/-- The next row of `SER_INIT` keeps the order of the enables: its frame is written before `ue`, and each enable after the one ahead of it
(rules R162, R165). -/
theorem Periph.enableOk_row {s : State} {baud : BitVec 32} {n : Nat} {d : Option (BitVec 16)} {f : Field} {v : Word}
    (h : s.per.enableOk) (hw : s.per.uart.WrittenSoFar n d) (hsf : s.SerInitSoFar baud n d)
    (hrow : (n + 1, f, v) ∈ serInitTable s.cfg) : (s.per.set f v).enableOk := by
  obtain ⟨-, hu⟩ := serInitTable_uart hrow s.per
  obtain ⟨hframe, hte, hre, hie⟩ := h
  obtain ⟨hm, hstop, hpce, hover8, hrtse, hctse, -⟩ := hw
  obtain ⟨-, -, -, hue15, hte16, hre17⟩ := hsf
  rw [Periph.enableOk, hu]
  refine ⟨fun hue => ?frame, enable_succ hte hue15, enable_succ hre hte16, enable_succ hie hre17⟩
  case frame =>
    have hvals : s.per.uart.m = false ∧ s.per.uart.stop = 0 ∧ s.per.uart.pce = false ∧ s.per.uart.over8 = false ∧
        s.per.uart.rtse = false ∧ s.per.uart.ctse = false := by
      by_cases h15 : n + 1 = 15
      · exact ⟨hm (by omega), hstop (by omega), hpce (by omega), hover8 (by omega), hrtse (by omega), hctse (by omega)⟩
      · exact hframe ((if_neg h15).symm.trans hue)
    simp only [hvals, ite_self, and_self]

/-! ## The order of the enables under every step -/

/-- `v` is `u` but for the flags and the holding registers: the enable, frame and baud fields are the same (rules R35 to R40). -/
def Uart.SameConfig (u v : Uart) : Prop :=
  v = { u with
    rxne := v.rxne, txe := v.txe, ore := v.ore, fe := v.fe, pe := v.pe, rdr := v.rdr, tdr := v.tdr, rdrOpen := v.rdrOpen
    tdrOpen := v.tdrOpen }

/-- The UART's configuration is the same in both states, and so is the sequencer where it is at a `SER_INIT`. -/
structure State.KeepsSerial (s t : State) : Prop where
  cfg  : t.cfg = s.cfg
  uart : s.per.uart.SameConfig t.per.uart
  seq  : t.seq = s.seq ∨ ∀ q, t.seq = some q → q.cmd ≠ .serInit

theorem State.EnableOk.of_keeps {s t : State} (h : s.EnableOk) (hk : s.KeepsSerial t) : t.EnableOk := by
  obtain ⟨hnow, hreset, hsoFar⟩ := h
  obtain ⟨hcfg, hu, hseq⟩ := hk
  refine ⟨?now, hcfg ▸ hreset, fun q hq hc => ?soFar⟩
  case now =>
    rw [Periph.enableOk, hu]
    exact hnow
  case soFar =>
    rcases hseq with hseq | hseq
    · rw [hu]
      exact hsoFar q (hseq ▸ hq) hc
    · exact absurd hc (hseq q hq)

/-- No command but `SER_INIT` writes the UART's configuration (rule R165). -/
theorem exec_keepsSerial {i : Instr} {s t : State} (hi : ∀ baud, i ≠ .serInit baud) (h : exec i s = .next t) : s.KeepsSerial t := by
  cases i with
  | indInit =>
    have same : s.per.uart.SameConfig t.per.uart := by
      rw [(exec_indInit_frame h).rest]
      rfl
    rcases exec_indInit_cases h with ⟨-, rfl⟩ | ⟨-, -, -, rfl⟩ | ⟨-, rfl⟩ | ⟨-, n, d, f, v, -, -, -, ⟨-, rfl⟩ | ⟨-, rfl⟩⟩
    · exact ⟨rfl, same, .inl rfl⟩
    · exact ⟨rfl, same, .inl rfl⟩
    · exact ⟨rfl, same, .inr (by rintro q ⟨⟩; exact nofun)⟩
    · exact ⟨rfl, same, .inr (by rintro q ⟨⟩; exact nofun)⟩
    · exact ⟨rfl, same, .inr nofun⟩
  | indOn line => rcases exec_line_cases (.inl rfl) h with rfl | ⟨c, rfl⟩ | ⟨w, rfl⟩ <;> exact ⟨rfl, rfl, .inl rfl⟩
  | indOff line => rcases exec_line_cases (.inr rfl) h with rfl | ⟨c, rfl⟩ | ⟨w, rfl⟩ <;> exact ⟨rfl, rfl, .inl rfl⟩
  | serInit baud => exact absurd rfl (hi baud)
  | serRead =>
    rcases exec_serRead_cases h with ⟨-, rfl⟩ | ⟨-, -, -, rfl⟩ | ⟨-, -, rfl⟩ | ⟨-, -, -, x, ⟨-, rfl⟩ | ⟨-, rfl⟩⟩ | ⟨-, -, rfl⟩ <;>
      exact ⟨rfl, rfl, .inl rfl⟩
  | serWrite byte =>
    rcases exec_serWrite_cases h with ⟨-, rfl⟩ | ⟨-, -, -, rfl⟩ | ⟨-, -, rfl⟩ | ⟨-, -, -, x, ⟨-, rfl⟩ | ⟨-, rfl⟩⟩ | ⟨-, -, rfl⟩ <;>
      exact ⟨rfl, rfl, .inl rfl⟩

/-- The sequencer's entry of a `SER_INIT` in flight says what its micro-steps so far have set (rules R24, R152, R162). -/
theorem serInitSoFar_of_flying {s : State} {baud : BitVec 32} {n : Nat} {d : Option (BitVec 16)} (ha : s.activityOk)
    (hf : s.Flying (.serInit baud) .configuring) (hq : s.seq = some ⟨s.cur, .serInit, n, d⟩) : s.SerInitSoFar baud n d := by
  obtain ⟨-, -, -, m, e, -, -, hseq, hsf⟩ := (activityOk_serInit (inflight_eq_of_flightOf ha hf.2)).1 ha
  obtain ⟨rfl, rfl⟩ : n = m ∧ d = e := by simpa [hq] using hseq
  exact hsf

/-- With the sequencer at a `SER_INIT` of which `n` micro-steps are performed, the last clause of the enable order is about that entry. -/
theorem State.EnableOk.of_seq {s : State} {k n : Nat} {d : Option (BitVec 16)} (hnow : s.per.enableOk) (hreset : s.cfg.resetPeriph.enableOk)
    (hq : s.seq = some ⟨k, .serInit, n, d⟩) (hw : s.per.uart.WrittenSoFar n d) : s.EnableOk := by
  refine ⟨hnow, hreset, fun q hs _ => ?_⟩
  obtain rfl := Option.some.inj (hq.symm.trans hs)
  exact hw

theorem exec_serInit_enableOk {s t : State} {baud : BitVec 32} (ha : s.activityOk) (he : s.EnableOk)
    (h : exec (.serInit baud) s = .next t) : t.EnableOk := by
  have ⟨hnow, hreset, hsoFar⟩ := he
  rcases exec_serInit_cases h with ⟨-, rfl⟩ | ⟨-, -, -, rfl⟩ | ⟨-, rfl⟩ | ⟨hf, n, d, hq, -, ht⟩
  · exact he
  · exact ⟨hnow, hreset, hsoFar⟩
  · exact .of_seq hnow hreset rfl (by simp [Uart.WrittenSoFar])
  · have hsf := serInitSoFar_of_flying ha hf hq
    have hw : s.per.uart.WrittenSoFar n d := hsoFar _ hq rfl
    rcases ht with ⟨f, v, hrow, -, ⟨-, rfl⟩ | ⟨-, rfl⟩⟩ | ⟨rfl, D, -, rfl⟩ | ⟨-, c, -, rfl⟩ | ⟨rfl, -, D, rfl, rfl⟩
    · exact .of_seq (Periph.enableOk_row hnow hw hsf hrow) hreset rfl (hw.row hrow)
    · exact ⟨Periph.enableOk_row hnow hw hsf hrow, hreset, nofun⟩
    · exact .of_seq hnow hreset rfl (hw.divisor (by decide) fun hm => absurd hm (by decide))
    · exact ⟨hnow, hreset, hsoFar⟩
    · rw [Periph.set_brr]
      exact .of_seq hnow hreset rfl (hw.divisor (by decide) fun _ => rfl)

theorem exec_enableOk {i : Instr} {s t : State} (ha : s.activityOk) (he : s.EnableOk) (h : exec i s = .next t) : t.EnableOk := by
  by_cases hi : ∃ baud, i = .serInit baud
  · obtain ⟨baud, rfl⟩ := hi
    exact exec_serInit_enableOk ha he h
  · exact he.of_keeps (exec_keepsSerial (fun baud hb => hi ⟨baud, hb⟩) h)

/-- The line side writes no configuration field (rules R221 to R225). -/
theorem rxArrive_keepsSerial (s : State) : s.KeepsSerial (rxArrive s) := by
  obtain ⟨_, _, _, _, _, _, _, hs⟩ := rxArrive_eq s
  rw [hs]
  exact ⟨rfl, rfl, .inl rfl⟩

theorem txLoad_keepsSerial (s : State) : s.KeepsSerial (txLoad s) := by
  obtain ⟨_, _, hs⟩ := txLoad_eq s
  rw [hs]
  exact ⟨rfl, rfl, .inl rfl⟩

theorem txDone_keepsSerial (s : State) : s.KeepsSerial (txDone s) := by
  obtain ⟨_, _, hs⟩ := txDone_eq s
  rw [hs]
  exact ⟨rfl, rfl, .inl rfl⟩

theorem agentStep_enableOk {a : AgentStep} {s t : State} (ha : s.activityOk) (he : s.EnableOk) (h : agentStep a s = .next t) :
    t.EnableOk := by
  have ⟨hnow, hreset, hsoFar⟩ := he
  rcases agentStep_cases h with ⟨k, cs, rfl⟩ | ⟨k, cs, w, -, rfl⟩ | ⟨k, cs, i, -, -, hexec, -⟩ | ⟨-, rfl⟩ | ⟨-, rfl⟩ | ⟨-, rfl⟩ | ⟨-, rfl⟩
  · exact ⟨hnow, hreset, hsoFar⟩
  · exact ⟨hnow, hreset, hsoFar⟩
  · exact exec_enableOk (s := { s with callers := cs, cur := k }) ha ⟨hnow, hreset, hsoFar⟩ hexec
  · exact he.of_keeps (rxArrive_keepsSerial s)
  · exact he.of_keeps (txLoad_keepsSerial s)
  · exact he.of_keeps (txDone_keepsSerial s)
  · exact ⟨hreset, hreset, nofun⟩

/-- Settles O13: the pick of the agent leaves what the order speaks of, and so does every agent but a `SER_INIT`, whose rows follow it. -/
theorem stepKeepsEnableOrder : Obligations.StepKeepsEnableOrder := by
  intro s t hs he h
  have hpick : s.KeepsSerial s.pick.2 := by
    rw [pick_eq]
    exact ⟨rfl, rfl, .inl rfl⟩
  rw [step_eq] at h
  exact agentStep_enableOk hs.pick.activity (he.of_keeps hpick) h

end Sys2Proof.Machine
end

section
/-! Proofs of the statements of `SER_INIT`: run to its end (rule R162), run again (rule R168), and what it leaves unchanged (rule R169). -/

namespace Sys2Proof.Machine

open Sys2Proof Sys2Proof.Config

/-! ## `SER_INIT` run to its end -/

/-- The field writes of micro-steps 15 to 18 of `SER_INIT`, in order: the four enables (rule R162). -/
def serInitEnableWrites : List (Field × Word) := [(.uartUe, 1), (.uartTe, 1), (.uartRe, 1), (.uartRxneie, 1)]

theorem serInitOps_drop_fourteen (p : Params) (baud : BitVec 32) : (serInitOps p baud).drop 14 = fieldOps serInitEnableWrites := rfl

theorem serInitTrace_eq (p : Params) (d : BitVec 16) :
    serInitTrace p d = serInitFrameTrace p ++ .wr .brr (d.setWidth 32) :: fieldEvents serInitEnableWrites := rfl

/-- Every enable write of `SER_INIT` writes 1 to a field under the UART's clock (rules R29, R162). -/
theorem serInitEnableWrites_spec {x : Field × Word} (h : x ∈ serInitEnableWrites) (per : Periph) :
    per.clocked x.1 = per.rcc.uartEn ∧ x.2 = 1 := by
  simp only [serInitEnableWrites, List.mem_cons, List.not_mem_nil, or_false] at h
  rcases h with rfl | rfl | rfl | rfl <;> exact ⟨rfl, rfl⟩

/-- Micro-steps 13 and 14 of `SER_INIT` in flight, with an accepted divisor: it is latched and written (rules R152, R162). -/
theorem runCommand_serInit_divisor {s : State} {baud : BitVec 32} {d : BitVec 16} (hf : s.Flying (.serInit baud) .configuring)
    (hq : s.seq = some ⟨s.cur, .serInit, 12, none⟩) (hu : s.per.rcc.uartEn = true)
    (hd : brrCalc s.cfg.tieRule s.cfg.pclkHz baud = .ok d) :
    runCommand 2 (.serInit baud) s = .next { s with
      seq := some ⟨s.cur, .serInit, 14, some d⟩
      trace := s.trace ++ [.wr .brr (d.setWidth 32)]
      per := { s.per with uart := { s.per.uart with brr := d } } } := by
  obtain ⟨-, hlatch, -⟩ := serInitMicroSteps.2 s baud 12 none hf hq
  obtain ⟨-, -, hstore, -⟩ := serInitMicroSteps.2 { s with seq := some ⟨s.cur, .serInit, 13, some d⟩ } baud 13 (some d) hf rfl
  rw [runCommand_of_next (hlatch rfl d hd)]
  exact runCommand_of_next (hstore rfl d rfl hu)

/-- The end state of a `SER_INIT` whose divisor is `d` (rules R162, R167). -/
def State.serInitDone (s : State) (d : BitVec 16) : State :=
  { s with
    serCfg := .configured
    seq := none
    trace := s.trace ++ serInitTrace s.cfg d
    per := serInitPeriph s.cfg d s.per
    callers := s.callers.modify s.cur fun c => c.receive .ok }

/-- The eighteen micro-steps: the frame, the divisor, then the four enables, which end the command with the set in flight as it was before
(rules R25, R162). -/
theorem runCommand_serInit {s : State} {baud : BitVec 32} {d : BitVec 16} (hf : s.Free (.serInit baud))
    (hd : brrCalc s.cfg.tieRule s.cfg.pclkHz baud = .ok d) : runCommand 18 (.serInit baud) s = .next (s.serInitDone d) := by
  have ⟨hfault, hfree, _⟩ := hf
  have hflying := flightOf_insertFlight hfree (.serInit baud) .configuring
  rw [runCommand_add (n := 6) (runCommand_serInit_frame hf)]
  refine Eq.trans (runCommand_add (n := 4) (runCommand_serInit_divisor ⟨hfault, hflying⟩ rfl rfl hd)) ?_
  refine Eq.trans (runCommand_fieldOps_end (l := serInitEnableWrites) (n := 14) (d := some d)
    (fun u hu hfu => hu ▸ exec_serInit_flying hfu) ⟨hfault, hflying⟩ rfl (serInitOps_drop_fourteen s.cfg baud) (List.cons_ne_nil _ _)
    (fun x hx => (serInitEnableWrites_spec hx _).1) fun x hx _ => (serInitEnableWrites_spec hx s.per).2) ?_
  have hflight := filter_insertFlight ⟨s.cur, .serInit baud, .configuring⟩ s.inflight (flightOf_eq_none.1 hfree)
  simp only [State.leaveFlight, serInitFinish, State.respond, hflight, State.serInitDone, serInitTrace_eq, List.append_assoc,
    List.singleton_append]
  rfl

/-- Settles O41: the word by its two fields, and the run. -/
theorem serInitCompletes : Obligations.SerInitCompletes :=
  ⟨fun _ => ⟨opOf_cmdWord _ _, argOf_cmdWord _ _⟩, fun _ _ _ hf hd => ⟨rfl, runCommand_serInit hf hd⟩⟩

/-! ## `SER_INIT` run again -/

/-- `SER_INIT` sets the port's clock, and of the port the modes and alternate functions of the two pins (rules R162, R163). -/
theorem serInitFrame_eq (p : Params) (per : Periph) : serInitFrame p per =
    Periph.modifyGpio
      { per with
        rcc := { gpioEn := per.rcc.gpioEn.set p.serPort.val true p.serPort.isLt, uartEn := true }
        uart := { per.uart with m := false, stop := 0, pce := false, over8 := false, rtse := false, ctse := false } }
      p.serPort fun g =>
        { g with mode := setPins [p.txPin, p.rxPin] .af g.mode, af := setPins [p.txPin, p.rxPin] 7 g.af } := rfl

/-- Micro-steps 1 to 12 after a completed `SER_INIT` change no field (rule R168). -/
theorem serInitFrame_serInitPeriph (p : Params) (d : BitVec 16) (per : Periph) :
    serInitFrame p (serInitPeriph p d per) = serInitPeriph p d per := by
  simp [serInitPeriph, serInitFrame_eq, Periph.modifyGpio, setPins_setPins]

/-- A `SER_INIT` completed a second time changes the divisor at most (rule R168). -/
theorem serInitPeriph_serInitPeriph (p : Params) (d e : BitVec 16) (per : Periph) :
    serInitPeriph p e (serInitPeriph p d per) =
      { serInitPeriph p d per with uart := { (serInitPeriph p d per).uart with brr := e } } := by
  rw [serInitPeriph, serInitFrame_serInitPeriph]
  rfl

/-- After a `SER_INIT` its caller may start another, whatever its baud rate (rules R168, R245). -/
theorem State.Free.serInitDone {s : State} {baud : BitVec 32} (h : s.Free (.serInit baud)) (d : BitVec 16) (other : BitVec 32) :
    (s.serInitDone d).Free (.serInit other) := h

/-- Settles O44: from the end state of the first run, where the caller is free again, another run completes or faults at its calculation. -/
theorem serInitRepeat : Obligations.SerInitRepeat := by
  intro s baud d hf hd
  have again (other : BitVec 32) : (s.serInitDone d).Free (.serInit other) := hf.serInitDone d other
  refine ⟨_, _, runCommand_serInit hf hd, runCommand_serInit (again baud) hd, ⟨?same, rfl, rfl, rfl⟩,
    fun other e he => ⟨_, runCommand_serInit (again other) he, ?brr, rfl, rfl, rfl⟩, fun bad c hc => ?fault⟩
  case same => exact serInitPeriph_serInitPeriph s.cfg d d s.per
  case brr => exact serInitPeriph_serInitPeriph s.cfg d e s.per
  case fault =>
    obtain ⟨hrun, -⟩ := serInitDivisorFault.2.2 (s.serInitDone d) bad c (again bad) hc
    exact ⟨_, hrun, serInitFrame_serInitPeriph s.cfg d s.per, rfl, rfl⟩

/-! ## What `SER_INIT` leaves unchanged -/

/-- The field is one `SER_INIT` may write, or a flag, which no write changes (rules R38, R39, R162). -/
def Field.OfSerialConfig (p : Params) : Field → Prop
  | .rccGpioEn q => q = p.serPort
  | .gpioMode q i | .gpioAf q i => q = p.serPort ∧ (i = p.txPin ∨ i = p.rxPin)
  | .gpioOtype _ _ | .gpioOdr _ _ => False
  | .rccUartEn | .uartUe | .uartTe | .uartRe | .uartRxneie | .uartM | .uartStop | .uartPce | .uartOver8 | .uartRtse | .uartCtse
  | .uartBrr | .uartRxne | .uartTxe | .uartOre | .uartFe | .uartPe => True

/-- The peripheral fields that rule R169 lists are the same in `a` and `b`: what `SER_INIT` leaves unchanged. -/
structure Periph.SerialFrame (p : Params) (a b : Periph) : Prop where
  rest       : b = { a with
    rcc := b.rcc
    gpio := b.gpio
    uart := { b.uart with
      rxne := a.uart.rxne, txe := a.uart.txe, ore := a.uart.ore, fe := a.uart.fe, pe := a.uart.pe, rdr := a.uart.rdr, tdr := a.uart.tdr
      rdrOpen := a.uart.rdrOpen, tdrOpen := a.uart.tdrOpen } }
  otherPorts : ∀ q : Port, q ≠ p.serPort → b.rcc.gpioEn[q] = a.rcc.gpioEn[q] ∧ b.gpio[q] = a.gpio[q]
  otype      : b.gpio[p.serPort].otype = a.gpio[p.serPort].otype
  odr        : b.gpio[p.serPort].odr = a.gpio[p.serPort].odr
  otherPins  : ∀ i : Pin, i ≠ p.txPin → i ≠ p.rxPin →
    b.gpio[p.serPort].mode[i] = a.gpio[p.serPort].mode[i] ∧ b.gpio[p.serPort].af[i] = a.gpio[p.serPort].af[i]

theorem Periph.SerialFrame.refl (p : Params) (a : Periph) : a.SerialFrame p a :=
  ⟨rfl, fun _ _ => ⟨rfl, rfl⟩, rfl, rfl, fun _ _ _ => ⟨rfl, rfl⟩⟩

/-- A write of one of the fields of `SER_INIT` is within its frame. -/
theorem Periph.serialFrame_set {p : Params} {f : Field} (hf : f.OfSerialConfig p) (a : Periph) (v : Word) :
    a.SerialFrame p (a.set f v) := by
  have apart {i j : Pin} (hj : j = p.txPin ∨ j = p.rxPin) (htx : i ≠ p.txPin) (hrx : i ≠ p.rxPin) : j ≠ i := by
    rcases hj with rfl | rfl
    · exact htx.symm
    · exact hrx.symm
  cases f with
  | rccGpioEn q =>
    obtain rfl := hf
    exact ⟨rfl, fun q hq => ⟨getElem_set_pin_ne _ _ hq.symm, rfl⟩, rfl, rfl, fun _ _ _ => ⟨rfl, rfl⟩⟩
  | gpioMode q j =>
    obtain ⟨rfl, hj⟩ := hf
    rw [Periph.set]
    refine ⟨rfl, fun q hq => ⟨rfl, Periph.modifyGpio_ne a _ q _ hq.symm⟩, ?_, ?_, fun i htx hrx => ?_⟩ <;> rw [Periph.modifyGpio_self]
    exact ⟨getElem_set_pin_ne _ _ (apart hj htx hrx), rfl⟩
  | gpioAf q j =>
    obtain ⟨rfl, hj⟩ := hf
    rw [Periph.set]
    refine ⟨rfl, fun q hq => ⟨rfl, Periph.modifyGpio_ne a _ q _ hq.symm⟩, ?_, ?_, fun i htx hrx => ?_⟩ <;> rw [Periph.modifyGpio_self]
    exact ⟨rfl, getElem_set_pin_ne _ _ (apart hj htx hrx)⟩
  | gpioOtype q j => exact hf.elim
  | gpioOdr q j => exact hf.elim
  | _ => exact ⟨rfl, fun _ _ => ⟨rfl, rfl⟩, rfl, rfl, fun _ _ _ => ⟨rfl, rfl⟩⟩

/-- The rows of `SER_INIT` write its own fields only (rule R162). -/
theorem serInitTable_ofSerialConfig {p : Params} {n : Nat} {f : Field} {v : Word} (h : (n, f, v) ∈ serInitTable p) :
    f.OfSerialConfig p := by
  simp only [serInitTable, List.mem_cons, Prod.mk.injEq, List.not_mem_nil, or_false] at h
  rcases h with ⟨-, rfl, -⟩ | ⟨-, rfl, -⟩ | ⟨-, rfl, -⟩ | ⟨-, rfl, -⟩ | ⟨-, rfl, -⟩ | ⟨-, rfl, -⟩ | ⟨-, rfl, -⟩ | ⟨-, rfl, -⟩ |
    ⟨-, rfl, -⟩ | ⟨-, rfl, -⟩ | ⟨-, rfl, -⟩ | ⟨-, rfl, -⟩ | ⟨-, rfl, -⟩ | ⟨-, rfl, -⟩ | ⟨-, rfl, -⟩ | ⟨-, rfl, -⟩ <;>
    simp [Field.OfSerialConfig]

/-- What a micro-step of `SER_INIT` may change: the block's control state, the trace and its caller, and the peripherals within its frame
(rules R162, R169). -/
theorem exec_serInit_frame {s t : State} {baud : BitVec 32} (h : exec (.serInit baud) s = .next t) :
    t = { s with
      serCfg := t.serCfg, seq := t.seq, inflight := t.inflight, fault := t.fault, faultInfo := t.faultInfo
      trace := t.trace, callers := t.callers, per := t.per } ∧ s.per.SerialFrame s.cfg t.per := by
  rcases exec_serInit_cases h with ⟨-, rfl⟩ | ⟨-, -, -, rfl⟩ | ⟨-, rfl⟩ | ⟨-, n, d, -, -, ⟨f, v, hrow, -, ⟨-, rfl⟩ | ⟨-, rfl⟩⟩ |
    ⟨-, D, -, rfl⟩ | ⟨-, c, -, rfl⟩ | ⟨-, -, D, -, rfl⟩⟩
  · exact ⟨rfl, .refl _ _⟩
  · exact ⟨rfl, .refl _ _⟩
  · exact ⟨rfl, Periph.serialFrame_set (p := s.cfg) (f := .rccUartEn) trivial s.per 1⟩
  · exact ⟨rfl, Periph.serialFrame_set (serInitTable_ofSerialConfig hrow) s.per v⟩
  · exact ⟨rfl, Periph.serialFrame_set (serInitTable_ofSerialConfig hrow) s.per v⟩
  · exact ⟨rfl, .refl _ _⟩
  · exact ⟨rfl, .refl _ _⟩
  · exact ⟨rfl, Periph.serialFrame_set (p := s.cfg) (f := .uartBrr) trivial s.per _⟩

/-- Settles O45: the frame of a micro-step, and the response is its own caller's. -/
theorem serialConfigFrame : Obligations.SerialConfigFrame := by
  intro s t baud h
  obtain ⟨hstate, hper⟩ := exec_serInit_frame h
  have hother : t.per.other = s.per.other := by rw [hper.rest]
  exact ⟨by rwa [← hper.rest], fun a => by rw [hother], hper.otherPorts, hper.otype, hper.odr, hper.otherPins,
    fun k hk => exec_otherCallers h hk⟩

end Sys2Proof.Machine
end

section
/-! Proofs of the statements of the serial transfers: the micro-steps of `SER_READ` and `SER_WRITE` (rules R191 to R194, R201 to R204), what they
leave unchanged (rule R212), and the way of an accepted byte to the wire (rules R224, R225). -/

namespace Sys2Proof.Machine

open Sys2Proof Sys2Proof.Config

/-! ## The status sample -/

/-- A serial transfer without a completed `SER_INIT` faults at admission (rules R191, R201, R241). -/
theorem perform_notConfigured {s : State} {i : Instr} {first later} (hf : s.Free i) (hcfg : s.serCfg ≠ .configured) :
    perform i serCheck first later s = .next (s.raiseFault .serNotConfigured (encode i) 0) := by
  rw [perform_free hf, serCheck_eq_some.2 ⟨rfl, hcfg⟩]

/-- Settles O50: both commands have the same check. -/
theorem transfersNeedConfiguration : Obligations.TransfersNeedConfiguration := by
  intro s i hi hf hcfg
  rcases hi with rfl | ⟨b, rfl⟩
  · exact perform_notConfigured hf hcfg
  · exact perform_notConfigured hf hcfg

/-- Micro-step 1 of a serial transfer, admitted with the UART clocked: one status read, then `NOT_READY` or into flight, by the flag the command
samples (rules R68, R192, R202). -/
theorem perform_sample {s : State} {i : Instr} (flag : Uart → Bool) {later : Phase → State → Out} (hf : s.Free i)
    (hcfg : s.serCfg = .configured) (hu : s.per.rcc.uartEn = true) :
    ∃ x, busRead .sr s = .next (x, { s with draws := s.draws + 1, trace := s.trace ++ [.rd .sr x] }) ∧
      (flag s.per.uart = false → perform i serCheck (sampleStatus i flag) later s = .next { s with
        draws := s.draws + 1
        trace := s.trace ++ [.rd .sr x]
        callers := s.callers.modify s.cur fun c => c.receive .notReady }) ∧
      (flag s.per.uart = true → perform i serCheck (sampleStatus i flag) later s = .next { s with
        draws := s.draws + 1
        trace := s.trace ++ [.rd .sr x]
        inflight := insertFlight ⟨s.cur, i, .statusSampled true⟩ s.inflight }) := by
  have hread : readSr s = .next (_, { s with draws := s.draws + 1, trace := s.trace ++ [.rd .sr _] }) := busRead_sr hu
  have hsample : perform i serCheck (sampleStatus i flag) later s = sampleStatus i flag s := by
    rw [perform_free hf, serCheck_eq_none.2 hcfg]
  refine ⟨_, hread, fun hx => ?notReady, fun hx => ?ready⟩ <;> rw [hsample, sampleStatus, hread, andThen_next, hx]
  case notReady => rfl
  case ready => rfl

/-- A caller with nothing in flight has the command in flight that it puts there (rule R25). -/
theorem State.Free.flying {s : State} {i : Instr} (hf : s.Free i) (ph : Phase) (d : Nat) (tr : List Event) :
    State.Flying { s with draws := d, trace := tr, inflight := insertFlight ⟨s.cur, i, ph⟩ s.inflight } i ph :=
  ⟨hf.1, flightOf_insertFlight hf.2.1 i ph⟩

/-- A command that its caller puts in flight and takes out again leaves the set as it was (rule R25). -/
theorem State.Free.filter_insertFlight {s : State} {i : Instr} (hf : s.Free i) (ph : Phase) :
    (insertFlight ⟨s.cur, i, ph⟩ s.inflight).filter (fun g => g.caller != s.cur) = s.inflight :=
  Machine.filter_insertFlight ⟨s.cur, i, ph⟩ s.inflight (flightOf_eq_none.1 hf.2.1)

/-! ## `SER_READ` -/

/-- Settles O46: the status sample, then the data load, which is the data register's read and ends the command. -/
theorem serReadMicroSteps : Obligations.SerReadMicroSteps := by
  refine ⟨rfl, fun s hf hcfg hu => perform_sample Uart.rxne hf hcfg hu, fun s hf hu => ?_⟩
  have hread : readDr s = .next (_, _) := busRead_dr hu
  refine ⟨_, _, _, hread, ?exec, (drWord_bits s.per.uart _).2.symm, fun hopen => if_neg (by simp [hopen]), rfl, drawnFlag_eq_or _ _,
    drawnFlag_eq_or _ _, drawnFlag_eq_or _ _⟩
  case exec =>
    have hload : exec .serRead s = loadData s := perform_flying hf
    rw [hload, loadData, hread]
    rfl

/-- Settles O47: the two micro-steps in a row, with nothing between them to change the byte sampled as ready. -/
theorem serReadReturnsByteIffReady : Obligations.SerReadReturnsByteIffReady := by
  intro s hf hcfg hu hopen
  obtain ⟨-, hsample, hload⟩ := serReadMicroSteps
  obtain ⟨x, hread, hnotReady, hready⟩ := hsample s hf hcfg hu
  refine ⟨x, hread, fun hx => ?data, fun hx => ⟨_, hnotReady hx, rfl, rfl, rfl, rfl⟩⟩
  case data =>
    obtain ⟨y, u, b, hdata, hexec, -, hb, huart, -⟩ := hload _ (hf.flying (.statusSampled true) _ _) hu
    obtain rfl : b = s.per.uart.rdr := hb hopen
    have hrxne : u.rxne = false := by rw [huart]
    have hrdr : u.rdr = s.per.uart.rdr := by rw [huart]
    exact ⟨_, _, y, _, hready hx, hdata, (runCommand_of_next (hready hx)).trans (runCommand_of_next hexec), rfl,
      hf.filter_insertFlight _, List.append_assoc _ _ _, rfl, hrxne, hrdr⟩

/-- An arrival at an active receiver that holds a byte is an overrun: a draw says which of the two bytes stays (rule R222). -/
theorem arrive_overrun {s : State} (ha : s.per.rxActive = true) (hx : s.per.uart.rxne = true) (v : Byte) (ferr : Bool) :
    s.arrive v ferr = { s with
      per := { s.per with uart := s.per.uart.overrun v (freeBit s.draws) }, draws := s.draws + 1 } := by
  simp [State.arrive, ha, hx]

/-- The byte after an overrun is the old one or the new one. -/
theorem Uart.overrun_rdr (u : Uart) (v : Byte) (keepOld : Bool) : (u.overrun v keepOld).rdr = u.rdr ∨ (u.overrun v keepOld).rdr = v := by
  cases keepOld
  · exact .inr rfl
  · exact .inl rfl

theorem uartEn_of_rxActive {per : Periph} (h : per.rxActive = true) : per.rcc.uartEn = true := by
  simp only [Periph.rxActive, Bool.and_eq_true] at h
  exact h.1.1

/-- Settles O52: the data load returns the byte that stayed after the overrun. -/
theorem overrunDuringRead : Obligations.OverrunDuringRead := by
  intro s v ferr hf hx hopen ha
  rw [arrive_overrun ha hx]
  obtain ⟨-, -, hload⟩ := serReadMicroSteps
  obtain ⟨_, u, b, -, hexec, -, hb, huart, -⟩ := hload { s with
    per := { s.per with uart := s.per.uart.overrun v (freeBit s.draws) }, draws := s.draws + 1 } hf (uartEn_of_rxActive ha)
  have hreceived : (s.per.uart.overrun v (freeBit s.draws)).rdrOpen = false := by simp [Uart.overrun, hopen]
  obtain rfl := hb hreceived
  exact ⟨rfl, _, _, hexec, s.per.uart.overrun_rdr v _, congrArg Uart.rxne huart, rfl⟩

/-! ## `SER_WRITE` -/

/-- The operand of a `SER_WRITE` is its byte, zero-extended (rule R93). -/
theorem operandArg_serWrite (byte : Byte) : operandArg (.serWrite byte) = byte.setWidth 32 :=
  (BitVec.setWidth_eq_append (by decide)).symm

/-- Micro-step 2 of a `SER_WRITE` in flight, with the UART clocked: the data store, then `OK` (rules R66, R202). -/
theorem exec_serWrite_store {s : State} {byte : Byte} (hf : s.Flying (.serWrite byte) (.statusSampled true))
    (hu : s.per.rcc.uartEn = true) : exec (.serWrite byte) s = .next { s with
      trace := s.trace ++ [.wr .dr (byte.setWidth 32)]
      per := { s.per with uart := s.per.uart.afterWrite byte }
      inflight := s.inflight.filter fun g => g.caller != s.cur
      callers := s.callers.modify s.cur fun c => c.receive .ok } := by
  have hstore : exec (.serWrite byte) s = storeData byte s := perform_flying hf
  rw [hstore, storeData, writeDr, if_pos hu, wordByte_byteWord]
  rfl

/-- Settles O48: the status sample, then the data store. -/
theorem serWriteMicroSteps : Obligations.SerWriteMicroSteps :=
  ⟨fun byte => ⟨opOf_cmdWord _ _, (argOf_cmdWord _ _).trans (operandArg_serWrite byte)⟩,
    fun _ _ hf hcfg hu => perform_sample Uart.txe hf hcfg hu, fun _ _ hf hu => exec_serWrite_store hf hu⟩

/-- Settles O49: the two micro-steps in a row; the store finds `txe` 1, so its byte is not in doubt. -/
theorem serWriteStoresIffReady : Obligations.SerWriteStoresIffReady := by
  intro s byte hf hcfg hu
  obtain ⟨-, hsample, hstore⟩ := serWriteMicroSteps
  obtain ⟨x, hread, hnotReady, hready⟩ := hsample s byte hf hcfg hu
  refine ⟨x, hread, fun hx => ?stored, hnotReady⟩
  case stored =>
    rw [runCommand_of_next (hready hx), runCommand_of_next (hstore _ byte (hf.flying (.statusSampled true) _ _) hu)]
    simp only [runCommand, hf.filter_insertFlight, hx, List.append_assoc, List.cons_append, List.nil_append, Bool.not_true]

/-! ## What the transfers leave unchanged -/

/-- What rule R212 lets a serial transfer change at all: of the peripherals the flags of the UART and `tdr`. -/
def State.TransferFrame (s t : State) : Prop :=
  t = { s with
    inflight := t.inflight, fault := t.fault, faultInfo := t.faultInfo, trace := t.trace, callers := t.callers
    draws := t.draws
    per := { s.per with uart := { s.per.uart with
      rxne := t.per.uart.rxne, txe := t.per.uart.txe, ore := t.per.uart.ore, fe := t.per.uart.fe
      pe := t.per.uart.pe, tdr := t.per.uart.tdr, tdrOpen := t.per.uart.tdrOpen } } }

/-- A `SER_READ` changes nothing of the transmit side, and makes at most one transaction (rules R192, R212). -/
theorem exec_serRead_frame {s t : State} (h : exec .serRead s = .next t) :
    s.TransferFrame t ∧ t.per.uart.txe = s.per.uart.txe ∧ t.per.uart.tdr = s.per.uart.tdr ∧ t.per.uart.tdrOpen = s.per.uart.tdrOpen ∧
      (t.trace = s.trace ∨ (∃ x, t.trace = s.trace ++ [.rd .sr x]) ∨ ∃ x, t.trace = s.trace ++ [.rd .dr x]) := by
  rcases exec_serRead_cases h with ⟨-, rfl⟩ | ⟨-, -, -, rfl⟩ | ⟨-, -, rfl⟩ | ⟨-, -, -, x, ⟨-, rfl⟩ | ⟨-, rfl⟩⟩ | ⟨-, -, rfl⟩
  · exact ⟨rfl, rfl, rfl, rfl, .inl rfl⟩
  · exact ⟨rfl, rfl, rfl, rfl, .inl rfl⟩
  · exact ⟨rfl, rfl, rfl, rfl, .inl rfl⟩
  · exact ⟨rfl, rfl, rfl, rfl, .inr (.inl ⟨x, rfl⟩)⟩
  · exact ⟨rfl, rfl, rfl, rfl, .inr (.inl ⟨x, rfl⟩)⟩
  · exact ⟨rfl, rfl, rfl, rfl, .inr (.inr ⟨_, rfl⟩)⟩

/-- A `SER_WRITE` changes nothing of the receive side, and makes at most one transaction (rules R202, R212). -/
theorem exec_serWrite_frame {s t : State} {b : Byte} (h : exec (.serWrite b) s = .next t) :
    s.TransferFrame t ∧ t.per.uart.rxne = s.per.uart.rxne ∧ t.per.uart.ore = s.per.uart.ore ∧ t.per.uart.fe = s.per.uart.fe ∧
      t.per.uart.pe = s.per.uart.pe ∧
      (t.trace = s.trace ∨ (∃ x, t.trace = s.trace ++ [.rd .sr x]) ∨ t.trace = s.trace ++ [.wr .dr (b.setWidth 32)]) := by
  rcases exec_serWrite_cases h with ⟨-, rfl⟩ | ⟨-, -, -, rfl⟩ | ⟨-, -, rfl⟩ | ⟨-, -, -, x, ⟨-, rfl⟩ | ⟨-, rfl⟩⟩ | ⟨-, -, rfl⟩
  · exact ⟨rfl, rfl, rfl, rfl, rfl, .inl rfl⟩
  · exact ⟨rfl, rfl, rfl, rfl, rfl, .inl rfl⟩
  · exact ⟨rfl, rfl, rfl, rfl, rfl, .inl rfl⟩
  · exact ⟨rfl, rfl, rfl, rfl, rfl, .inr (.inl ⟨x, rfl⟩)⟩
  · exact ⟨rfl, rfl, rfl, rfl, rfl, .inr (.inl ⟨x, rfl⟩)⟩
  · exact ⟨rfl, rfl, rfl, rfl, rfl, .inr (.inr rfl)⟩

/-- Settles O51: each command within its frame; the byte store and the other callers no command touches. -/
theorem transferFrame : Obligations.TransferFrame := by
  intro s t i hi h
  obtain ⟨-, -, -, -, -, -, hother, -⟩ := exec_keeps h
  have hbytes (a : Nat) : Memory.read t.per.other a = Memory.read s.per.other a := by rw [hother]
  have hcallers (k : Nat) (hk : k ≠ s.cur) : t.callers[k]? = s.callers[k]? := exec_otherCallers h hk
  rcases hi with rfl | ⟨b, rfl⟩
  · obtain ⟨hframe, hread⟩ := exec_serRead_frame h
    exact ⟨hframe, hbytes, hcallers, fun _ => hread, nofun⟩
  · obtain ⟨hframe, hwrite⟩ := exec_serWrite_frame h
    exact ⟨hframe, hbytes, hcallers, nofun, fun c hc => Instr.serWrite.inj hc ▸ hwrite⟩

/-! ## The way to the wire -/

/-- Byte `b` waits in `tdr` for an active transmit side (rules R66, R220, R224). -/
structure Periph.Waiting (per : Periph) (b : Byte) : Prop where
  active : per.txActive = true
  txe    : per.uart.txe = false
  known  : per.uart.tdrOpen = false
  tdr    : per.uart.tdr = b

theorem uartEn_of_txActive {per : Periph} (h : per.txActive = true) : per.rcc.uartEn = true := by
  simp only [Periph.txActive, Bool.and_eq_true] at h
  exact h.1.1

/-- After the data store of a `SER_WRITE` with `txe` 1 and the transmit side active its byte waits (rules R66, R202). -/
theorem exec_serWrite_waiting {s : State} {byte : Byte} (hf : s.Flying (.serWrite byte) (.statusSampled true))
    (hx : s.per.uart.txe = true) (ha : s.per.txActive = true) :
    ∃ t, exec (.serWrite byte) s = .next t ∧ t.per.Waiting byte ∧ t.txShift = s.txShift ∧ t.wireTx = s.wireTx :=
  ⟨_, exec_serWrite_store hf (uartEn_of_txActive ha), ⟨ha, rfl, by simp [Uart.afterWrite, hx], rfl⟩, rfl, rfl⟩

/-- `TX_LOAD` with a byte waiting and the shift register empty (rule R224). -/
theorem txLoad_waiting {s : State} {b : Byte} (hw : s.per.Waiting b) (hs : s.txShift = none) : txLoad s = { s with
    txShift := some b
    per := { s.per with uart := { s.per.uart with txe := true } }
    draws := s.draws + 1 } := by
  simp [txLoad, State.txLoadEnabled, State.txByte, hw.active, hw.txe, hw.known, hw.tdr, hs]

/-- `TX_LOAD` waits for the shift register (rule R224). -/
theorem txLoad_shifting {s : State} {v : Byte} (hs : s.txShift = some v) : txLoad s = s := by
  simp [txLoad, State.txLoadEnabled, hs]

/-- `TX_DONE` with a byte in the shift register (rule R225). -/
theorem txDone_shifting {s : State} {v : Byte} (ha : s.per.txActive = true) (hs : s.txShift = some v) :
    txDone s = { s with wireTx := s.wireTx ++ [v], txShift := none } := by
  simp [txDone, State.txDoneEnabled, ha, hs]

/-- A byte waiting before an empty shift register: one `TX_LOAD` and one `TX_DONE` put it onto the wire (rules R224, R225). -/
theorem txDone_txLoad_waiting {s : State} {b : Byte} (hw : s.per.Waiting b) (hs : s.txShift = none) : txDone (txLoad s) = { s with
    wireTx := s.wireTx ++ [b]
    txShift := none
    per := { s.per with uart := { s.per.uart with txe := true } }
    draws := s.draws + 1 } := by
  rw [txLoad_waiting hw hs]
  exact txDone_shifting hw.active rfl

/-- Settles O56: after the store the byte waits, before an empty shift register or until the `TX_DONE` of the byte ahead. -/
theorem acceptedByteReachesWire : Obligations.AcceptedByteReachesWire := by
  intro s byte hf hx ha
  obtain ⟨t, ht, hw, hshift, hwire⟩ := exec_serWrite_waiting hf hx ha
  rw [← hshift, ← hwire]
  refine ⟨t, ht, fun hs => ?empty, fun v hs => ⟨txLoad_shifting hs, ?ahead⟩⟩
  case empty =>
    rw [txDone_txLoad_waiting hw hs]
    exact ⟨rfl, rfl, rfl⟩
  case ahead =>
    rw [txDone_shifting hw.active hs, txDone_txLoad_waiting (s := { t with wireTx := t.wireTx ++ [v], txShift := none }) hw rfl]
    exact ⟨List.append_assoc _ _ _, rfl⟩

end Sys2Proof.Machine
end

section
/-! Proofs of the statements of the line side: what `RX_ARRIVE`, `TX_LOAD` and `TX_DONE` do, and when they do nothing (rules R220 to R226). -/

namespace Sys2Proof.Machine

open Sys2Proof Sys2Proof.Config

/-! ## `RX_ARRIVE` -/

/-- `RX_ARRIVE` takes the next arrival placed (rule R43). -/
theorem rxArrive_placed {s : State} {a : Arrival} {rest : List Arrival} (h : s.wireRxIn = a :: rest) :
    rxArrive s = State.arrive { s with wireRxIn := rest } a.byte a.ferr := by
  simp [rxArrive, State.nextArrival, h]

/-- Where no arrival is placed, `RX_ARRIVE` takes a free one (rule R226, log 2). -/
theorem rxArrive_free {s : State} (h : s.wireRxIn = []) :
    rxArrive s = State.arrive { s with draws := s.draws + 1 } (freeArrival s.draws).byte (freeArrival s.draws).ferr := by
  simp [rxArrive, State.nextArrival, h]

/-- An arrival at an inactive receiver is lost (rule R223). -/
theorem arrive_inactive {s : State} (ha : s.per.rxActive = false) (v : Byte) (ferr : Bool) : s.arrive v ferr = s := by
  simp [State.arrive, ha]

/-- The receive register after an overrun: the old byte as it was, or the new one, which is known (rule R222). -/
theorem Uart.overrun_survivor (u : Uart) (v : Byte) (keepOld : Bool) :
    ((u.overrun v keepOld).rdr = u.rdr ∧ (u.overrun v keepOld).rdrOpen = u.rdrOpen) ∨
      ((u.overrun v keepOld).rdr = v ∧ (u.overrun v keepOld).rdrOpen = false) := by
  cases keepOld with
  | true => exact .inl ⟨rfl, Bool.and_true _⟩
  | false => exact .inr ⟨rfl, Bool.and_false _⟩

/-- Settles O53: placed or free, the arrival leaves the peripherals as they were and then arrives in one of three ways. -/
theorem arrivalEffect : Obligations.ArrivalEffect := by
  intro s q v ferr hnext
  obtain ⟨harrive, hper⟩ : rxArrive s = q.arrive v ferr ∧ q.per = s.per := by
    rcases hnext with ⟨a, rest, hplaced, rfl, rfl, rfl⟩ | ⟨hnone, rfl, rfl, rfl⟩
    · exact ⟨rxArrive_placed hplaced, rfl⟩
    · exact ⟨rxArrive_free hnone, rfl⟩
  rw [harrive, ← hper]
  refine ⟨arrive_deliver, fun ha hx => ?overrun, fun ha => arrive_inactive ha v ferr⟩
  case overrun => exact ⟨_, _, arrive_overrun ha hx v ferr, q.per.uart.overrun_survivor v _⟩

/-! ## `TX_LOAD` and `TX_DONE` -/

/-- The transmit side is active exactly with the UART clocked and enabled and its transmitter enabled (rule R220). -/
theorem Periph.txActive_iff {per : Periph} :
    per.txActive = true ↔ per.rcc.uartEn = true ∧ per.uart.ue = true ∧ per.uart.te = true := by
  simp only [Periph.txActive, Bool.and_eq_true, and_assoc]

/-- When `TX_LOAD` is enabled (rule R224). -/
theorem State.txLoadEnabled_iff {s : State} :
    s.txLoadEnabled = true ↔ s.per.txActive = true ∧ s.per.uart.txe = false ∧ s.txShift = none := by
  simp only [State.txLoadEnabled, Bool.and_eq_true, Bool.not_eq_true', Option.isNone_iff_eq_none, and_assoc]

/-- When `TX_DONE` is enabled (rules R220, R225, log 10). -/
theorem State.txDoneEnabled_iff {s : State} : s.txDoneEnabled = true ↔ s.per.txActive = true ∧ s.txShift ≠ none := by
  simp only [State.txDoneEnabled, Bool.and_eq_true, Option.isSome_iff_ne_none]

/-- `TX_LOAD` where it is not enabled is no step (rules R220, R224). -/
theorem txLoad_disabled {s : State} (h : ¬ s.txLoadEnabled = true) : txLoad s = s := if_neg h

/-- `TX_DONE` where it is not enabled is no step (rules R220, R225). -/
theorem txDone_disabled {s : State} (h : ¬ s.txDoneEnabled = true) : txDone s = s := if_neg h

/-- Settles O54: enabled, the byte stored is one that waits; each reason contradicts a conjunct of the enabling condition. -/
theorem txLoadStep : Obligations.TxLoadStep := by
  refine fun s => ⟨fun hclk hue hte hx hs hopen => ?enabled, fun hwhy => txLoad_disabled fun hen => ?disabled⟩
  case enabled => exact txLoad_waiting ⟨Periph.txActive_iff.2 ⟨hclk, hue, hte⟩, hx, hopen, rfl⟩ hs
  case disabled =>
    obtain ⟨hactive, hx, hs⟩ := State.txLoadEnabled_iff.1 hen
    obtain ⟨hclk, hue, hte⟩ := Periph.txActive_iff.1 hactive
    simp [hclk, hue, hte, hx, hs] at hwhy

/-- Settles O55: enabled, the byte shifting goes onto the wire; each reason contradicts a conjunct of the enabling condition. -/
theorem txDoneStep : Obligations.TxDoneStep := by
  refine fun s => ⟨fun v => txDone_shifting, fun hwhy => txDone_disabled fun hen => ?disabled⟩
  case disabled =>
    obtain ⟨hactive, hs⟩ := State.txDoneEnabled_iff.1 hen
    simp [hactive, hs] at hwhy

end Sys2Proof.Machine
end

section
/-! Proofs of the statements of the exceptions: the conflict rule (rule R245), admission and what a later micro-step can raise (rule R244), and
the sticky fault (rules R242, R248). -/

namespace Sys2Proof.Machine

open Sys2Proof Sys2Proof.Config

/-! ## The conflict rule -/

theorem isInit_iff {i : Instr} : isInit i = true ↔ i = .indInit ∨ ∃ baud, i = .serInit baud := by
  cases i <;> simp [isInit]

theorem isTransfer_iff {i : Instr} : isTransfer i = true ↔ i = .serRead ∨ ∃ b, i = .serWrite b := by
  cases i <;> simp [isTransfer]

/-- A command in flight stands in the way of one of the three kinds (rule R245). -/
theorem Flight.blocks_iff {f : Flight} {k : Nat} {cmd : Instr} : f.blocks k cmd = true ↔ f.caller ≠ k ∧
    (f.phase = .configuring ∨ (cmd = .indInit ∨ ∃ b, cmd = .serInit b) ∨
      ((cmd = .serRead ∨ ∃ b, cmd = .serWrite b) ∧ (f.cmd = .serRead ∨ ∃ b, f.cmd = .serWrite b))) := by
  simp only [Flight.blocks, Bool.and_eq_true, Bool.or_eq_true, bne_iff_ne, beq_iff_eq, isInit_iff, isTransfer_iff, or_assoc]

/-- Where a command conflicts, its admission is a fault (rules R244, R245). -/
theorem exec_conflict {i : Instr} {s : State} (hs : s.fault = none) (hn : s.flightOf s.cur = none) (hc : s.conflict s.cur i = true) :
    exec i s = .next (s.raiseFault .concurrentAccess (encode i) 0) := by
  have refused {check first later} : perform i check first later s = .next (s.raiseFault .concurrentAccess (encode i) 0) := by
    simp [perform, hs, hn, admission, hc]
  cases i with
  | indInit => exact refused
  | indOn line => exact refused
  | indOff line => exact refused
  | serInit baud => exact refused
  | serRead => exact refused
  | serWrite b => exact refused

/-- Settles O20: a conflict is a blocking command in flight, it faults at admission, and no command blocks its own caller's. -/
theorem conflictRule : Obligations.ConflictRule := by
  refine ⟨fun s k cmd => ?kinds, fun s cmd hs hn hc => exec_conflict hs hn hc, fun s k cmd hown => ?own⟩
  case kinds => simp only [State.conflict, List.any_eq_true, Flight.blocks_iff]
  case own =>
    refine List.any_eq_false.2 fun f hf hb => ?_
    obtain ⟨hk, -⟩ := Flight.blocks_iff.1 hb
    exact hk (hown f hf)

/-! ## Admission -/

/-- A word written to a faulted block changes nothing (rules R242, R244 check 1). -/
theorem issueWord_faulted {w : CmdWord} {s : State} (h : s.fault ≠ none) : issueWord w s = .next s :=
  if_pos (Option.isSome_iff_ne_none.2 h)

/-- What one micro-step of an unfaulted block comes to, by where its caller stands: at admission a fault or one bus transaction, and later no
fault but `SER_INIT`'s at micro-step 13 (rule R244). -/
inductive State.Performs (s : State) (i : Instr) (t : State) : Prop where
  | refused (hn : s.flightOf s.cur = none) (c : FaultCause) (ht : t = s.raiseFault c (encode i) 0)
  | first (hn : s.flightOf s.cur = none) (ht : t.fault = none) (e : Event) (htrace : t.trace = s.trace ++ [e])
  | later (hf : s.flightOf s.cur ≠ none) (ht : t.fault = none)
  | divisor (hf : s.flightOf s.cur ≠ none) (baud : BitVec 32) (hi : i = .serInit baud) (d : Option (BitVec 16))
      (hq : s.seq = some ⟨s.cur, .serInit, 12, d⟩) (c : FaultCause) (ht : t = s.raiseFault c (encode i) 13)

theorem State.Flying.flightOf_ne_none {s : State} {i : Instr} {ph : Phase} (h : s.Flying i ph) : s.flightOf s.cur ≠ none := by
  simp [h.2]

theorem exec_performs {i : Instr} {s t : State} (hs : s.fault = none) (h : exec i s = .next t) : s.Performs i t := by
  cases i with
  | indInit =>
    rcases exec_indInit_cases h with ⟨hf, -⟩ | ⟨-, hn, -, ht⟩ | ⟨⟨-, hn, -⟩, rfl⟩ | ⟨hf, n, d, f, v, -, -, -, ⟨-, rfl⟩ | ⟨-, rfl⟩⟩
    · exact absurd hs hf
    · exact .refused hn _ ht
    · exact .first hn hs _ rfl
    · exact .later hf.flightOf_ne_none hs
    · exact .later hf.flightOf_ne_none hs
  | indOn line =>
    rcases exec_indOn_cases h with ⟨hf, -⟩ | ⟨-, hn, -, ht⟩ | ⟨⟨-, hn, -⟩, c, -, ht⟩ | ⟨⟨-, hn, -⟩, -, -, -, rfl⟩
    · exact absurd hs hf
    · exact .refused hn _ ht
    · exact .refused hn _ ht
    · exact .first hn hs _ rfl
  | indOff line =>
    rcases exec_indOff_cases h with ⟨hf, -⟩ | ⟨-, hn, -, ht⟩ | ⟨⟨-, hn, -⟩, c, -, ht⟩ | ⟨⟨-, hn, -⟩, -, -, -, rfl⟩
    · exact absurd hs hf
    · exact .refused hn _ ht
    · exact .refused hn _ ht
    · exact .first hn hs _ rfl
  | serInit baud =>
    rcases exec_serInit_cases h with ⟨hf, -⟩ | ⟨-, hn, -, ht⟩ | ⟨⟨-, hn, -⟩, rfl⟩ | ⟨hf, n, d, hq, -, ⟨f, v, -, -, ⟨-, rfl⟩ | ⟨-, rfl⟩⟩ |
      ⟨-, D, -, rfl⟩ | ⟨rfl, c, -, ht⟩ | ⟨-, -, D, -, rfl⟩⟩
    · exact absurd hs hf
    · exact .refused hn _ ht
    · exact .first hn hs _ rfl
    · exact .later hf.flightOf_ne_none hs
    · exact .later hf.flightOf_ne_none hs
    · exact .later hf.flightOf_ne_none hs
    · exact .divisor hf.flightOf_ne_none baud rfl d hq c ht
    · exact .later hf.flightOf_ne_none hs
  | serRead =>
    rcases exec_serRead_cases h with ⟨hf, -⟩ | ⟨-, hn, -, ht⟩ | ⟨⟨-, hn, -⟩, -, ht⟩ | ⟨⟨-, hn, -⟩, -, -, x, ⟨-, rfl⟩ | ⟨-, rfl⟩⟩ | ⟨hf, -, rfl⟩
    · exact absurd hs hf
    · exact .refused hn _ ht
    · exact .refused hn _ ht
    · exact .first hn hs _ rfl
    · exact .first hn hs _ rfl
    · exact .later hf.flightOf_ne_none hs
  | serWrite b =>
    rcases exec_serWrite_cases h with ⟨hf, -⟩ | ⟨-, hn, -, ht⟩ | ⟨⟨-, hn, -⟩, -, ht⟩ | ⟨⟨-, hn, -⟩, -, -, x, ⟨-, rfl⟩ | ⟨-, rfl⟩⟩ | ⟨hf, -, rfl⟩
    · exact absurd hs hf
    · exact .refused hn _ ht
    · exact .refused hn _ ht
    · exact .first hn hs _ rfl
    · exact .first hn hs _ rfl
    · exact .later hf.flightOf_ne_none hs

/-- The checks of the command's own pass: the block is configured for it, and a line it names exists (rules R126, R191, R201). -/
def State.Configured (s : State) (i : Instr) : Prop :=
  (∀ line, i = .indOn line ∨ i = .indOff line → s.indCfg = true ∧ line.toNat ≤ 3) ∧
  ((i = .serRead ∨ ∃ b, i = .serWrite b) → s.serCfg = .configured)

/-- A command without a conflict whose own checks pass raises none of the table's faults of admission (rules R243, R244). -/
theorem State.Configured.not_raises {s : State} {i : Instr} {c : FaultCause} (h : s.Configured i) (hc : s.conflict s.cur i = false) :
    ¬ s.Raises i c 0 := by
  obtain ⟨hline, hser⟩ := h
  intro hr
  cases hr with
  | serNotConfigured hi hcfg => exact hcfg (hser hi)
  | indNotConfigured hi hcfg => simp [(hline _ hi).1] at hcfg
  | badLine hi hl => exact absurd (hline _ hi).2 (by omega)
  | concurrentAccess hk => simp [hc] at hk

/-- A command that passes every check performs its micro-step 1: one bus transaction, no fault (rule R244). -/
theorem exec_admitted {i : Instr} {s t : State} (hf : s.Free i) (hcfg : s.Configured i) (h : exec i s = .next t) :
    t.fault = none ∧ ∃ e, t.trace = s.trace ++ [e] := by
  obtain ⟨hs, hn, hc⟩ := hf
  cases exec_performs hs h with
  | first _ ht e htrace => exact ⟨ht, e, htrace⟩
  | later hf _ => exact absurd hn hf
  | divisor hf => exact absurd hn hf
  | refused _ c ht =>
    rcases exec_raises hs h with hnone | ⟨c', n, ht', hr⟩
    · simp [ht] at hnone
    · obtain rfl : n = 0 := by simpa using congrArg State.faultInfo (ht'.symm.trans ht)
      exact absurd hr (hcfg.not_raises hc)

/-- Settles O19: a legal word is its command's, whose checks `exec_line_fault`, `perform_notConfigured` and `exec_admitted` take in their
order, and `exec_performs` leaves a command in flight one fault. -/
theorem admissionChecksInOrder : Obligations.AdmissionChecksInOrder := by
  refine ⟨fun s w hn => ⟨issueWord_faulted, fun hs ⟨why, hd⟩ => issueWord_illegal hd hs, fun i hs hd => ?legal⟩,
    fun s t i f hs hfl h ht => ?later⟩
  case legal =>
    rw [issueWord_cmd hd, ← encodeInvertsDecode w i hd]
    refine ⟨exec_conflict hs hn, fun hc => ?_⟩
    have hf : s.Free i := ⟨hs, hn, hc⟩
    exact ⟨fun line hi => indicatorChecks s line i hi hf, fun hi => transfersNeedConfiguration s i hi hf,
      fun hline hser t h => exec_admitted hf ⟨hline, hser⟩ h⟩
  case later =>
    cases exec_performs hs h with
    | refused hn => simp [hfl] at hn
    | first hn => simp [hfl] at hn
    | later _ hnone => exact absurd hnone ht
    | divisor _ baud hi d hq c hraise => exact ⟨⟨baud, hi⟩, _, hq, rfl, by rw [hraise]; rfl⟩

/-! ## The fault is sticky -/

/-- A caller put back with its own last response leaves the last responses. -/
theorem map_last_set {l : List Caller} {k : Nat} {c d : Caller} (hc : l[k]? = some c) (hd : d.last = c.last) :
    (l.set k d).map Caller.last = l.map Caller.last := by
  have hlast : (l.map Caller.last)[k]? = some d.last := by rw [List.getElem?_map, hc, hd]; rfl
  obtain ⟨hk, hget⟩ := List.getElem?_eq_some_iff.1 hlast
  rw [List.map_set, ← hget, List.set_getElem_self]

/-- `t` is `s` but for what the line side, the wire and the schedule own and for the callers' place in their programs: no caller has a new
response (rules R27, R242). -/
def State.KeepsBlock (s t : State) : Prop :=
  t = { s with
    per := { s.per with uart := t.per.uart }
    txShift := t.txShift
    wireTx := t.wireTx
    wireRxIn := t.wireRxIn
    callers := t.callers
    cur := t.cur
    schedule := t.schedule
    draws := t.draws } ∧
  t.callers.map Caller.last = s.callers.map Caller.last

theorem issueWord_faulted_keepsBlock {s t : State} {w : CmdWord} {k : Nat} {cs : List Caller} (hs : s.fault ≠ none)
    (h : issueWord w { s with callers := cs, cur := k } = .next t) (hlast : cs.map Caller.last = s.callers.map Caller.last) :
    s.KeepsBlock t := by
  have hsame : issueWord w { s with callers := cs, cur := k } = .next { s with callers := cs, cur := k } := issueWord_faulted hs
  obtain rfl := Host.Outcome.next.inj (hsame.symm.trans h)
  exact ⟨rfl, hlast⟩

/-- With the block faulted no agent but reset does more than the line side and the callers do of their own (rules R242, R248). -/
theorem agentStep_faulted_keepsBlock {a : AgentStep} {s t : State} (hs : s.fault ≠ none) (h : agentStep a s = .next t) (ha : a ≠ .reset) :
    s.KeepsBlock t := by
  cases a with
  | issue k w =>
    rcases issueStep_cases h with ⟨-, rfl⟩ | ⟨-, hw⟩
    · exact ⟨rfl, rfl⟩
    · exact issueWord_faulted_keepsBlock hs hw rfl
  | block k =>
    rcases blockStep_cases h with ⟨-, rfl⟩ | ⟨f, -, he⟩
    · exact ⟨rfl, rfl⟩
    · have hsame : exec f.cmd { s with cur := k } = .next { s with cur := k } := exec_faulted hs
      obtain rfl := Host.Outcome.next.inj (hsame.symm.trans he)
      exact ⟨rfl, rfl⟩
  | harness k =>
    rcases harnessStep_cases h with rfl | ⟨c, prog, n, st, hc, -, -, -, rfl | ⟨i, -, hw⟩⟩
    · exact ⟨rfl, rfl⟩
    · exact ⟨rfl, map_last_set hc rfl⟩
    · exact issueWord_faulted_keepsBlock hs hw (map_last_set hc rfl)
  | rxArrive =>
    obtain ⟨_, _, _, _, _, _, _, ht⟩ := rxArrive_eq s
    obtain rfl := Host.Outcome.next.inj h
    rw [ht]
    exact ⟨rfl, rfl⟩
  | txLoad =>
    obtain ⟨_, _, ht⟩ := txLoad_eq s
    obtain rfl := Host.Outcome.next.inj h
    rw [ht]
    exact ⟨rfl, rfl⟩
  | txDone =>
    obtain ⟨_, _, ht⟩ := txDone_eq s
    obtain rfl := Host.Outcome.next.inj h
    rw [ht]
    exact ⟨rfl, rfl⟩
  | reset => exact absurd rfl ha

/-- The state with its fault and its record replaced. -/
def State.withFault (c : Option FaultCause) (r : Option FaultInfo) (s : State) : State := { s with fault := c, faultInfo := r }

/-- An arrival neither reads nor writes the fault (rule R242). -/
theorem arrive_withFault (c : Option FaultCause) (r : Option FaultInfo) (s : State) (v : Byte) (ferr : Bool) :
    (s.withFault c r).arrive v ferr = (s.arrive v ferr).withFault c r := by
  simp only [State.arrive, apply_ite (State.withFault c r)]
  rfl

theorem rxArrive_withFault (c : Option FaultCause) (r : Option FaultInfo) (s : State) :
    rxArrive (s.withFault c r) = (rxArrive s).withFault c r := by
  cases h : s.wireRxIn with
  | nil =>
    rw [rxArrive_free h, rxArrive_free (s := s.withFault c r) h, ← arrive_withFault]
    rfl
  | cons a rest =>
    rw [rxArrive_placed h, rxArrive_placed (s := s.withFault c r) h, ← arrive_withFault]
    rfl

theorem txLoad_withFault (c : Option FaultCause) (r : Option FaultInfo) (s : State) :
    txLoad (s.withFault c r) = (txLoad s).withFault c r := by
  simp only [txLoad, apply_ite (State.withFault c r)]
  rfl

theorem txDone_withFault (c : Option FaultCause) (r : Option FaultInfo) (s : State) :
    txDone (s.withFault c r) = (txDone s).withFault c r := by
  simp only [txDone, apply_ite (State.withFault c r)]
  rfl

/-- Settles O22: the pick of the agent leaves the fault and the block, `agentStep_faulted_keepsBlock` holds for the agent picked, and the line
side's steps commute with the fault. -/
theorem faultIsSticky : Obligations.FaultIsSticky := by
  refine ⟨fun s hs => ⟨fun i => exec_faulted hs, fun w => issueWord_faulted hs, fun ⟨_, _, hnone⟩ => hs hnone⟩,
    fun s t hs h ha => ?keeps,
    fun s c r => ⟨rxArrive_withFault c r s, txLoad_withFault c r s, txDone_withFault c r s⟩, fun s => rfl⟩
  case keeps =>
    rw [step_eq] at h
    have hkeeps : s.pick.2.KeepsBlock t := agentStep_faulted_keepsBlock ((pick_fault s).trans_ne hs) h ha
    rw [pick_eq] at hkeeps
    obtain ⟨ht, hlast⟩ := hkeeps
    rw [ht]
    exact ⟨rfl, rfl, rfl, rfl, rfl, rfl, rfl, rfl, rfl, hlast⟩

end Sys2Proof.Machine
end

section
/-! Every command ends within its bound of micro-steps (rules R195, R213, R286). -/

namespace Sys2Proof.Machine

open Sys2Proof Sys2Proof.Config

/-- Command `i` of the current caller of `s` has ended in `t`: the block has faulted, or the caller has a response and nothing in flight (rules
R98, R241). -/
def State.CommandEnded (s : State) (i : Instr) (t : State) : Prop :=
  t.fault ≠ none ∨ (t.flightOf s.cur = none ∧ ∃ r, mayRespond i r ∧ t.callers = s.callers.modify s.cur fun c => c.receive r)

/-- Command `i`, run without another agent, ends within its bound of micro-steps (rule R286). -/
def State.EndsWithinBound (s : State) (i : Instr) : Prop :=
  ∃ n t, 1 ≤ n ∧ n ≤ stepBound i ∧ runCommand n i s = .next t ∧ s.CommandEnded i t

/-- A response to a caller, with the set in flight as it was before the command, ends the command (rules R25, R98). -/
theorem State.Free.commandEnded {s t : State} {i : Instr} {r : Response} (hf : s.Free i) (hr : mayRespond i r)
    (hflight : t.inflight = s.inflight) (hcallers : t.callers = s.callers.modify s.cur fun c => c.receive r) : s.CommandEnded i t := by
  obtain ⟨-, hfree, -⟩ := hf
  refine .inr ⟨?_, r, hr, hcallers⟩
  rwa [State.flightOf, hflight]

theorem stepBound_pos (i : Instr) : 1 ≤ stepBound i := by cases i <;> simp [stepBound]

/-- One micro-step that ends the command is within every bound. -/
theorem endsWithinBound_of_exec {s t : State} {i : Instr} (h : exec i s = .next t) (ht : s.CommandEnded i t) : s.EndsWithinBound i :=
  ⟨1, t, le_rfl, stepBound_pos i, runCommand_of_next h, ht⟩

/-! ## The inits -/

theorem indInit_endsWithinBound {s : State} (hf : s.Free .indInit) : s.EndsWithinBound .indInit :=
  ⟨9, _, by decide, le_rfl, indInitCompletes.2 s hf, hf.commandEnded (r := .ok) rfl rfl rfl⟩

/-- `SER_INIT` faults at its calculation, micro-step 13, or performs all eighteen (rules R162, R163). -/
theorem serInit_endsWithinBound {s : State} {baud : BitVec 32} (hf : s.Free (.serInit baud)) : s.EndsWithinBound (.serInit baud) := by
  cases hd : brrCalc s.cfg.tieRule s.cfg.pclkHz baud with
  | ok d => exact ⟨18, _, by decide, le_rfl, runCommand_serInit hf hd, hf.commandEnded (r := .ok) rfl rfl rfl⟩
  | err c =>
    obtain ⟨hrun, -⟩ := serInitDivisorFault.2.2 s baud c hf hd
    exact ⟨13, _, by decide, by simp [stepBound], hrun, .inl (Option.some_ne_none c)⟩

/-! ## The indicator lines -/

/-- `IND_ON` and `IND_OFF` fault at their check or end with their one write, whose port a completed `IND_INIT` has clocked (rules R72, R126 to
R129). -/
theorem line_endsWithinBound {s : State} {i : Instr} {line : BitVec 32} (hi : i = .indOn line ∨ i = .indOff line) (hc : s.configuredOk)
    (hf : s.Free i) : s.EndsWithinBound i := by
  cases hk : indCheck line s with
  | some c => exact endsWithinBound_of_exec (exec_line_fault hi hf hk) (.inl (Option.some_ne_none c))
  | none =>
    obtain ⟨hcfg, hline⟩ := indCheck_eq_none.1 hk
    have hnum : line.toNat = (⟨line.toNat, by omega⟩ : LineIdx).val := rfl
    rcases hi with rfl | rfl
    · exact endsWithinBound_of_exec (perform_line hf hcfg hnum (hc.1 hcfg)) (hf.commandEnded (r := .ok) rfl rfl rfl)
    · exact endsWithinBound_of_exec (perform_line hf hcfg hnum (hc.1 hcfg)) (hf.commandEnded (r := .ok) rfl rfl rfl)

/-! ## The serial transfers -/

/-- A `SER_READ` of a configured block ends at its status sample or with its data load (rules R192, R195). -/
theorem serRead_endsWithinBound {s : State} (hf : s.Free .serRead) (hcfg : s.serCfg = .configured) (hu : s.per.rcc.uartEn = true) :
    s.EndsWithinBound .serRead := by
  obtain ⟨-, hsample, hload⟩ := serReadMicroSteps
  obtain ⟨x, -, hnotReady, hready⟩ := hsample s hf hcfg hu
  cases hx : s.per.uart.rxne with
  | false => exact endsWithinBound_of_exec (hnotReady hx) (hf.commandEnded (r := .notReady) (.inl rfl) rfl rfl)
  | true =>
    obtain ⟨_, _, b, -, hexec, -⟩ := hload _ (hf.flying (.statusSampled true) _ _) hu
    exact ⟨2, _, by decide, le_rfl, (runCommand_of_next (hready hx)).trans (runCommand_of_next hexec),
      hf.commandEnded (r := .data b) (.inr ⟨b, rfl⟩) (hf.filter_insertFlight _) rfl⟩

/-- A `SER_WRITE` of a configured block ends at its status sample or with its data store (rules R202, R213). -/
theorem serWrite_endsWithinBound {s : State} {b : Byte} (hf : s.Free (.serWrite b)) (hcfg : s.serCfg = .configured)
    (hu : s.per.rcc.uartEn = true) : s.EndsWithinBound (.serWrite b) := by
  obtain ⟨x, -, hready, hnotReady⟩ := serWriteStoresIffReady s b hf hcfg hu
  cases hx : s.per.uart.txe with
  | false => exact endsWithinBound_of_exec (hnotReady hx) (hf.commandEnded (r := .notReady) (.inr rfl) rfl rfl)
  | true => exact ⟨2, _, by decide, le_rfl, hready hx, hf.commandEnded (r := .ok) (.inl rfl) rfl rfl⟩

/-- A serial transfer faults where the block is not configured; where it is, `SER_INIT` has clocked the UART (rules R72, R191, R201). -/
theorem transfer_endsWithinBound {s : State} {i : Instr} (hi : i = .serRead ∨ ∃ b, i = .serWrite b) (hc : s.configuredOk) (hf : s.Free i) :
    s.EndsWithinBound i := by
  by_cases hcfg : s.serCfg = .configured
  · have hu : s.per.rcc.uartEn = true := uartEn_of_serCheck hc (serCheck_eq_none.2 hcfg)
    rcases hi with rfl | ⟨b, rfl⟩
    · exact serRead_endsWithinBound hf hcfg hu
    · exact serWrite_endsWithinBound hf hcfg hu
  · exact endsWithinBound_of_exec (transfersNeedConfiguration s i hi hf hcfg) (.inl (Option.some_ne_none _))

/-! ## Every command -/

/-- Settles O14, by the kind of the command; of the invariant it takes what a completed init leaves enabled. -/
theorem commandsEndWithinBound : Obligations.CommandsEndWithinBound := by
  intro s i hs _ hf
  cases i with
  | indInit => exact indInit_endsWithinBound hf
  | indOn line => exact line_endsWithinBound (.inl rfl) hs.configured hf
  | indOff line => exact line_endsWithinBound (.inr rfl) hs.configured hf
  | serInit baud => exact serInit_endsWithinBound hf
  | serRead => exact transfer_endsWithinBound (.inl rfl) hs.configured hf
  | serWrite b => exact transfer_endsWithinBound (.inr ⟨b, rfl⟩) hs.configured hf

end Sys2Proof.Machine
end
